-- ==== Sys2Proof/Word.lean ====
section
/-! DEFINITION. The word types of VIBCORE and the unit selector (00_scope.md R10, R12; 30_encoding.md R72). -/

namespace Sys2Proof

/-- A register, a slot of a ring buffer or a word of signal memory: `SW = 32` bits (R10). -/
abbrev Word := BitVec 32

/-- A command word or a response word: 64 bits (R10, R70, R73). -/
abbrev Word64 := BitVec 64

/-- A register number, the 8-bit `SEL` field of RDREG and WRREG (R30, R72). -/
abbrev RegNum := BitVec 8

/-- The unit operand of the RB commands: the delay line or the oscillator table (R72, R82). -/
inductive RbUnit where
  | dl
  | lut
  deriving DecidableEq, Repr

end Sys2Proof
end

