-- ==== Sys2Proof/Syntax.lean ====
section
/-! DEFINITION. The twelve commands of VIBCORE, one constructor per row of the opcode map (30_encoding.md R76). -/

namespace Sys2Proof

/-- A command. The operands are the fields of R71 and R72 as they stand in the command word: `r` a register number,
`u` the unit, `v` a 32-bit pattern, `o` and `k` unsigned indices, `f` a signed Q16.16 offset. RB.PUSH, RB.POP and
RB.RESET carry their written unit operand too (R82); only `dl` is well formed (R80, log entry 10). -/
inductive Instr where
  | nop
  | rdreg (r : RegNum)
  | wrreg (r : RegNum) (v : Word)
  | rbPush (u : RbUnit) (v : Word)
  | rbPop (u : RbUnit)
  | rbGet (u : RbUnit) (o : Word)
  | rbGetf (u : RbUnit) (f : Word)
  | rbReset (u : RbUnit)
  | oscSample (k : Word)
  | oscReset
  | vibProcess
  | vibReset
  deriving DecidableEq, Repr

end Sys2Proof
end

