-- ==== Sys2Proof/WellFormed.lean ====
section
/-! DEFINITION. Which commands exist: the mutating ring commands exist for unit `dl` only (30_encoding.md R80).
Every other operand is free: a register number that names no register is not an illegal encoding (R78). -/

namespace Sys2Proof

/-- The unit check of the mutating ring commands (R80). -/
def RbUnit.mutable : RbUnit → Bool
  | .dl => true
  | .lut => false

/-- The command exists in the opcode map (R76, R80). -/
def Instr.wellFormed : Instr → Bool
  | .nop => true
  | .rdreg _ => true
  | .wrreg _ _ => true
  | .rbPush u _ => u.mutable
  | .rbPop u => u.mutable
  | .rbGet _ _ => true
  | .rbGetf _ _ => true
  | .rbReset u => u.mutable
  | .oscSample _ => true
  | .oscReset => true
  | .vibProcess => true
  | .vibReset => true

end Sys2Proof
end

