-- ==== Sys2Proof/Decode.lean ====
section
/-! DEFINITION. The decoder of 30_encoding.md R75 to R80 (first row whose mask and match agree, else illegal, by
name), total on every 64-bit word and reading no state, and after it the encoder of R70 to R72. -/

namespace Sys2Proof

/-- Why a command word matches no row, after the cases (a) to (e) of R78. The hardware gives one fault,
ILLEGAL_CMD, for all of them; the names are the model's (log entry 15). -/
inductive Illegal where
  /-- (a) `OPC` is none of the twelve operation codes. -/
  | reservedOpcode
  /-- (b) the `ZERO` field is not zero. -/
  | nonzeroZero
  /-- (c) `OPND` is not zero in a command that takes none. -/
  | nonzeroOperand
  /-- (d), (e) `SEL` is not one the command takes. -/
  | badSelect
  deriving DecidableEq, Repr

/-- `OPC`, bits 63:56 (R70). -/
def opcOf (cw : Word64) : BitVec 8 := cw.extractLsb' 56 8

/-- `SEL`, bits 55:48 (R70). -/
def selOf (cw : Word64) : BitVec 8 := cw.extractLsb' 48 8

/-- `ZERO`, bits 47:32 (R70). -/
def zeroOf (cw : Word64) : BitVec 16 := cw.extractLsb' 32 16

/-- `OPND`, bits 31:0 (R70). -/
def opndOf (cw : Word64) : Word := cw.extractLsb' 0 32

/-- The unit bit `u = SEL[0]` of RB.GET and RB.GETF (R72). -/
def unitOf (cw : Word64) : RbUnit := if cw.getLsbD 48 then .lut else .dl

/-- The opcode map (R76): match, mask, and the command with its operands read from the fields. -/
def opcodeMap : List (Word64 × Word64 × (Word64 → Instr)) :=
  [ (0x0000000000000000#64, 0xFFFFFFFFFFFFFFFF#64, fun _ => .nop),
    (0x0100000000000000#64, 0xFF00FFFFFFFFFFFF#64, fun cw => .rdreg (selOf cw)),
    (0x0200000000000000#64, 0xFF00FFFF00000000#64, fun cw => .wrreg (selOf cw) (opndOf cw)),
    (0x1000000000000000#64, 0xFFFFFFFF00000000#64, fun cw => .rbPush .dl (opndOf cw)),
    (0x1100000000000000#64, 0xFFFFFFFFFFFFFFFF#64, fun _ => .rbPop .dl),
    (0x1200000000000000#64, 0xFFFEFFFF00000000#64, fun cw => .rbGet (unitOf cw) (opndOf cw)),
    (0x1300000000000000#64, 0xFFFEFFFF00000000#64, fun cw => .rbGetf (unitOf cw) (opndOf cw)),
    (0x1400000000000000#64, 0xFFFFFFFFFFFFFFFF#64, fun _ => .rbReset .dl),
    (0x2000000000000000#64, 0xFFFFFFFF00000000#64, fun cw => .oscSample (opndOf cw)),
    (0x2100000000000000#64, 0xFFFFFFFFFFFFFFFF#64, fun _ => .oscReset),
    (0x3000000000000000#64, 0xFFFFFFFFFFFFFFFF#64, fun _ => .vibProcess),
    (0x3100000000000000#64, 0xFFFFFFFFFFFFFFFF#64, fun _ => .vibReset) ]

/-- A row selects the word: `cw & mask == match` (R75). -/
def rowMatches (cw : Word64) (row : Word64 × Word64 × (Word64 → Instr)) : Bool :=
  cw &&& row.2.1 == row.1

/-- The operation codes in use (R78 (a)). -/
def usedOpcodes : List (BitVec 8) :=
  [0x00#8, 0x01#8, 0x02#8, 0x10#8, 0x11#8, 0x12#8, 0x13#8, 0x14#8, 0x20#8, 0x21#8, 0x30#8, 0x31#8]

/-- The operation codes whose command takes an operand in `OPND` (R71). -/
def operandOpcodes : List (BitVec 8) := [0x02#8, 0x10#8, 0x12#8, 0x13#8, 0x20#8]

/-- The name of the reason for a word that matches no row (R78). -/
def illegalReason (cw : Word64) : Illegal :=
  if usedOpcodes.contains (opcOf cw) = false then .reservedOpcode
  else if zeroOf cw ≠ 0 then .nonzeroZero
  else if operandOpcodes.contains (opcOf cw) = false ∧ opndOf cw ≠ 0 then .nonzeroOperand
  else .badSelect

/-- The decoder (R75): the command of the first row that matches, else the reason the word is illegal. -/
def decode (cw : Word64) : Except Illegal Instr :=
  match opcodeMap.find? (rowMatches cw) with
  | some row => .ok (row.2.2 cw)
  | none => .error (illegalReason cw)

/-- The instruction the decoder reads from a table word of `nbits` bits, every bit above them zero: a command is one
64-bit word, its bit 0 the least significant (R12, R70). -/
def decodeTableWord (nbits w : Nat) : Option Instr :=
  (decode (BitVec.ofNat 64 (w % 2 ^ nbits))).toOption

/-- The four fields laid out in one command word (R70). -/
def packWord (opc sel : BitVec 8) (opnd : Word) : Word64 := opc ++ sel ++ 0#16 ++ opnd

/-- `SEL` of a unit: 0x00 is `dl`, 0x01 is `lut` (R70, R72). -/
def unitSel : RbUnit → BitVec 8
  | .dl => 0x00#8
  | .lut => 0x01#8

/-- `OPC` of a command (R76). -/
def opcodeOf : Instr → BitVec 8
  | .nop => 0x00#8
  | .rdreg _ => 0x01#8
  | .wrreg _ _ => 0x02#8
  | .rbPush _ _ => 0x10#8
  | .rbPop _ => 0x11#8
  | .rbGet _ _ => 0x12#8
  | .rbGetf _ _ => 0x13#8
  | .rbReset _ => 0x14#8
  | .oscSample _ => 0x20#8
  | .oscReset => 0x21#8
  | .vibProcess => 0x30#8
  | .vibReset => 0x31#8

/-- The command word of a command, from the field table of R70 to R72 and R76. -/
def encode (i : Instr) : Word64 :=
  match i with
  | .nop => packWord (opcodeOf i) 0 0
  | .rdreg r => packWord (opcodeOf i) r 0
  | .wrreg r v => packWord (opcodeOf i) r v
  | .rbPush u v => packWord (opcodeOf i) (unitSel u) v
  | .rbPop u => packWord (opcodeOf i) (unitSel u) 0
  | .rbGet u o => packWord (opcodeOf i) (unitSel u) o
  | .rbGetf u f => packWord (opcodeOf i) (unitSel u) f
  | .rbReset u => packWord (opcodeOf i) (unitSel u) 0
  | .oscSample k => packWord (opcodeOf i) 0 k
  | .oscReset => packWord (opcodeOf i) 0 0
  | .vibProcess => packWord (opcodeOf i) 0 0
  | .vibReset => packWord (opcodeOf i) 0 0

end Sys2Proof
end

