-- ==== Sys2Proof/Machine/Flags.lean ====
section
/-! DEFINITION. The one flag of the block and the codes that go with it: the fault causes (60_exceptions.md R185),
the response codes (30_encoding.md R74) and the STATUS word (10_state.md R32). No ring, oscillator or arithmetic
operation sets or reads a flag (R25). -/

namespace Sys2Proof.Machine

/-- The five faults the block raises (R185). Each is an entry into the halted state, a next state of the model. -/
inductive Cause where
  | illegalCmd
  | badReg
  | negOffset
  | shortSignal
  | badRange
  deriving DecidableEq, Repr

/-- The cause code (R185). -/
def Cause.code : Cause → BitVec 8
  | .illegalCmd => 0x01#8
  | .badReg => 0x02#8
  | .negOffset => 0x03#8
  | .shortSignal => 0x04#8
  | .badRange => 0x05#8

/-- The response codes that are ever emitted (R74). -/
inductive Rc where
  | ok
  | fault (f : Cause)
  | halted
  deriving DecidableEq, Repr

/-- The response code's number (R74). -/
def Rc.code : Rc → BitVec 8
  | .ok => 0x00#8
  | .fault f => f.code
  | .halted => 0xFF#8

/-- The response word: `RC` in 63:56, zero in 55:32, `VAL` in 31:0 (R73). -/
def responseWord (rc : Rc) (val : Word) : Word64 := rc.code ++ 0#24 ++ val

/-- STATUS after fault entry: `CAUSE` in 15:8, `HALT = 1` in bit 0, every reserved bit 0 (R187, R32). -/
def haltStatus (f : Cause) : Word := 0#16 ++ f.code ++ 0#7 ++ 1#1

/-- STATUS.HALT, bit 0 (R32). -/
def haltBit (status : Word) : Bool := status.getLsbD 0

/-- STATUS.CAUSE, bits 15:8 (R32). -/
def causeField (status : Word) : BitVec 8 := status.extractLsb' 8 8

/-- All faults, in the order of their codes. -/
def allCauses : List Cause := [.illegalCmd, .badReg, .negOffset, .shortSignal, .badRange]

/-- STATUS holds a legal value: zero, or the halt word of a fault (R32). -/
def statusLegal (status : Word) : Bool :=
  status == 0 || (allCauses.map haltStatus).contains status

end Sys2Proof.Machine
end

