-- ==== Sys2Proof/Machine/FixedPoint.lean ====
section
/-! DEFINITION. The Q16.16 arithmetic of 40_fixed_point.md and the conversions of 00_scope.md R13: on exact
integers, with one stated rounding per formula. The two roundings used at elaboration (R101, R102) are written once
for any ordered field with a floor, so that they speak of exact reals and can be evaluated on rationals. -/

namespace Sys2Proof.Machine

/-- `ONE = 2^16`, the word for 1.0 (R10, R90). -/
def oneQ : Int := 65536

/-- `sext_32` (R13): a word's integer value in two's complement. -/
def sext32 (w : Word) : Int := w.toInt

/-- `zext_32` (R13): a word read as unsigned. -/
def zext32 (w : Word) : Nat := w.toNat

/-- `word32` (R13): the 32-bit pattern `v mod 2^32` of an integer. -/
def word32 (v : Int) : Word := BitVec.ofInt 32 v

/-- `a >> k` (R13): the floor of `a / 2^k`. -/
def asr (a : Int) (k : Nat) : Int := a / 2 ^ k

/-- `a << k` (R13). -/
def shl (a : Int) (k : Nat) : Int := a * 2 ^ k

/-- The Q16.16 product, rounded to nearest, ties toward plus infinity (R93). -/
def fxmul (a b : Int) : Int := asr (a * b + 32768) 16

/-- The linear interpolation `a * (1 - fr) + b * fr` with one rounding at the end (R94). -/
def lerp (a b fr : Int) : Int := asr (a * (65536 - fr) + b * fr + 32768) 16

/-- The integer part of an offset with 16 fraction bits (R96). -/
def offsetInt (fo : Int) : Int := asr fo 16

/-- The fraction of an offset, in `[0, 65535]` (R96). -/
def offsetFrac (fo : Int) : Int := fo % 65536

/-- `round_half_away(x) = sign(x) * floor(|x| + 1/2)` (R101). Evaluated at elaboration only. -/
def roundHalfAway {K : Type} [Field K] [LinearOrder K] [FloorRing K] (x : K) : Int :=
  if x < 0 then -⌊-x + 1 / 2⌋ else ⌊x + 1 / 2⌋

/-- `quant(x) = floor(x * 65536 + 1/2)`: the nearest Q16.16 value, ties toward plus infinity (R102).
Evaluated at elaboration only. -/
def quant {K : Type} [Field K] [LinearOrder K] [FloorRing K] (x : K) : Int :=
  ⌊x * 65536 + 1 / 2⌋

end Sys2Proof.Machine
end

