-- ==== Sys2Proof/Config.lean ====
section
/-! DEFINITION. The configuration of a VIBCORE (00_scope.md R7 to R11): fixed at elaboration, an argument of every
step (R8). `Cfg` is the plain data the running block uses; `Params` are the real construction parameters, which only
the derivation `Cfg.ElaboratedFrom` speaks of (log entries 1, 3). Named examples are those of 95_test_vectors.md. -/

namespace Sys2Proof

/-- The fields of the configuration record that the rules of the running block read (R9). `sinRom` lists
`SINROM[0 .. P-1]`; `amp` is the integer value of `AMP`. -/
structure Cfg where
  fs : Nat
  w : Nat
  d : Nat
  p : Nat
  sinRom : List Int
  amp : Int
  sigWords : Nat
  deriving DecidableEq, Repr

/-- `B = D + W + 10`, the capacity of the delay line (R146). -/
def Cfg.b (c : Cfg) : Nat := c.d + c.w + 10

/-- `PRIME_COUNT = B - 1` (R146). -/
def Cfg.primeCount (c : Cfg) : Nat := c.b - 1

/-- `SINROM[i]` (R131). Past the end of the list it is 0: DESIGN CHOICE, log entry 18. That happens only where the list is
shorter than `P`, in configurations that are not well-formed (`Cfg.ok` asks for the length `P`), to which R11 gives no
behaviour. -/
def Cfg.sin (c : Cfg) (i : Nat) : Int := c.sinRom.getD i 0

/-- The clauses of `CfgOK` (R11) on the plain data, with the shape of the ROM (R9: `SINROM[0..P-1]`). The two clauses
on `F_MOD` and `WIDTH_S` are in `Params.OK`. -/
def Cfg.ok (c : Cfg) : Bool :=
  decide (1 ≤ c.fs) && decide (1 ≤ c.p) && decide (c.b ≤ 2 ^ 31 - 1) && decide (c.p ≤ 2 ^ 31 - 1) &&
  decide (c.sinRom.length = c.p) &&
  c.sinRom.all (fun v => decide (-65536 ≤ v) && decide (v ≤ 65536)) &&
  decide (-(2 ^ 31 - 1) ≤ c.amp) && decide (c.amp ≤ 2 ^ 31 - 1) && decide (c.sigWords ≤ 2 ^ 32 - 1)

/-- The given construction parameters `FS`, `F_MOD`, `WIDTH_S`, `AMP_REAL`, `SIG_WORDS` (R7, R9). -/
structure Params where
  fs : Nat
  fMod : ℝ
  widthS : ℝ
  ampReal : ℝ
  sigWords : Nat

/-- The clauses of `CfgOK` on the given parameters (R11). -/
def Params.OK (q : Params) : Prop :=
  1 ≤ q.fs ∧ 0 < q.fMod ∧ 0 ≤ q.widthS ∧ q.sigWords ≤ 2 ^ 32 - 1

/-- `omega` is the normalized frequency of the parameters: `OMEGA = F_MOD * 2 * pi / FS` (R147). -/
def Params.IsOmega (q : Params) (omega : ℝ) : Prop :=
  omega = q.fMod * 2 * Real.pi / q.fs

/-- The configuration's data are those the sizing and table formulas derive from the parameters, on exact reals
(R130, R131, R132, R145). -/
def Cfg.ElaboratedFrom (c : Cfg) (q : Params) : Prop :=
  ∃ omega : ℝ, q.IsOmega omega ∧
    c.fs = q.fs ∧
    (c.w : Int) = Machine.roundHalfAway (q.widthS * q.fs) ∧
    (c.d : Int) = Machine.roundHalfAway (q.widthS * q.fs) ∧
    (c.p : Int) = Machine.roundHalfAway (q.fs / omega) ∧
    c.sinRom = (List.range c.p).map (fun i : Nat => Machine.quant (Real.sin (omega * (i : ℝ)))) ∧
    c.amp = Machine.quant q.ampReal ∧
    c.sigWords = q.sigWords

/-- `CfgOK` for the whole record (R11): well-formed given parameters, data derived from them, and the bounds. -/
def Cfg.OK (c : Cfg) : Prop :=
  c.ok = true ∧ ∃ q : Params, q.OK ∧ c.ElaboratedFrom q

/-- The unit-amplitude table of `CFG_A`, in full in 95_test_vectors.md section 0. -/
def Config.sinRomA : List Int :=
  [0, 46341, 65536, 46341, 0, -46341, -65536, -46341, 0, 46341]

/-- `CFG_A` of 95_test_vectors.md section 0: `FS = 8`, `F_MOD = 1`, `WIDTH_S = 0.25`, `AMP_REAL = 1.0`,
`SIG_WORDS = 64`. -/
def Config.cfgA : Cfg :=
  { fs := 8, w := 2, d := 2, p := 10, sinRom := Config.sinRomA, amp := 65536, sigWords := 64 }

/-- `CFG_A0`: `CFG_A` with `AMP_REAL = 0.0`. -/
def Config.cfgA0 : Cfg := { Config.cfgA with amp := 0 }

/-- `CFG_A2`: `CFG_A` with `AMP_REAL = 2.0`. -/
def Config.cfgA2 : Cfg := { Config.cfgA with amp := 131072 }

/-- The configuration of `State.reset`: `CFG_A`. DESIGN CHOICE, unsafe, log entry 2: the spec leaves the values of
the configuration open (D32). -/
def Config.resetCfg : Cfg := Config.cfgA

end Sys2Proof
end

