-- ==== Sys2Proof/Machine/RingBuffer.lean ====
section
/-! DEFINITION. The ring buffer of 41_ring_buffer.md: the triple (slots, read cursor, write cursor) and its
micro-operations R111 to R116. -/

namespace Sys2Proof.Machine

/-- One ring-buffer instance (R110): `mem[0 .. N-1]`, `rd`, `wr`. The cursors are the spec's integers in `[0, N)`
(R10, R23). -/
structure RingBuf where
  mem : List Word
  rd : Nat
  wr : Nat
  deriving DecidableEq, Repr

/-- The capacity `u.N`: the number of slots, which no operation changes (R23, R110; log entry 11). -/
def RingBuf.cap (u : RingBuf) : Nat := u.mem.length

/-- Slot `j`. -/
def RingBuf.slot (u : RingBuf) (j : Nat) : Word := u.mem.getD j 0

/-- Construction with `n` zero slots and both cursors at 0 (R111). -/
def RingBuf.new (n : Nat) : RingBuf := { mem := List.replicate n 0, rd := 0, wr := 0 }

/-- `push(u, v)` (R112). -/
def RingBuf.push (u : RingBuf) (v : Word) : RingBuf :=
  { u with mem := u.mem.set u.wr v, wr := (u.wr + 1) % u.cap }

/-- The word `pop(u)` returns: the slot at the read cursor (R113). -/
def RingBuf.popped (u : RingBuf) : Word := u.slot u.rd

/-- The buffer after `pop(u)`: the read cursor one further, the slot not cleared (R113). -/
def RingBuf.pop (u : RingBuf) : RingBuf := { u with rd := (u.rd + 1) % u.cap }

/-- `get(u, o)`: a read that advances nothing, at any offset, wrapping (R114, R97). -/
def RingBuf.get (u : RingBuf) (o : Nat) : Word := u.slot ((u.rd + o) % u.cap)

/-- `getf(u, fo)`: `none` is the raise of NEG_OFFSET (R116). Both slots are read; each read wraps on its own. -/
def RingBuf.getf (u : RingBuf) (fo : Int) : Option Word :=
  if fo < 0 then none
  else
    let i := (offsetInt fo).toNat
    some (word32 (lerp (sext32 (u.get i)) (sext32 (u.get (i + 1))) (offsetFrac fo)))

/-- `rbreset(u)`: every slot zero, both cursors 0 (R115). -/
def RingBuf.zeroed (u : RingBuf) : RingBuf := { mem := u.mem.map (fun _ => 0), rd := 0, wr := 0 }

end Sys2Proof.Machine
end

