-- ==== Sys2Proof/Machine/Oscillator.lean ====
section
/-! DEFINITION. The oscillator of 42_oscillator.md: the fill of its table (R133) and `sample_at` (R135). -/

namespace Sys2Proof.Machine

/-- Entry `i` of the filled table: the sine, then times the amplitude, rounded by `fxmul` (R133). -/
def oscEntry (c : Cfg) (i : Nat) : Word := word32 (fxmul (c.sin i) c.amp)

/-- The table after `oscfill()`: `P` slots written by index, both cursors 0 (R133, R134). -/
def oscFill (c : Cfg) : RingBuf :=
  { mem := (List.range c.p).map (oscEntry c), rd := 0, wr := 0 }

/-- `sample_at(k) = get(LUT, k mod P)` (R135, R99). -/
def sampleAt (c : Cfg) (lut : RingBuf) (k : Nat) : Word := lut.get (k % c.p)

end Sys2Proof.Machine
end

