-- ==== Sys2Proof/Machine/SigMem.lean ====
section
/-! DEFINITION. Signal memory (20_memory.md R50 to R53): words of 32 bits at word addresses, the spec's smallest
addressable unit, as a list of (address, word) pairs in one canonical form (log entries 4, 5). -/

namespace Sys2Proof.Machine

/-- Signal memory: the listed words, addresses strictly rising, none equal to what an unlisted address reads as. -/
abbrev SigMem := List (Nat × Word)

/-- What an unlisted address reads as. The spec leaves the first content of signal memory open (D33, `sig0`).
DESIGN CHOICE, unsafe, log entry 4. -/
def SigMem.unlisted : Word := 0

/-- The word at an address. -/
def SigMem.read : SigMem → Nat → Word
  | [], _ => SigMem.unlisted
  | (k, x) :: m, a => if k = a then x else SigMem.read m a

/-- Store a word at an address; storing what an unlisted address reads as leaves no entry there. -/
def SigMem.write : SigMem → Nat → Word → SigMem
  | [], a, v => if v = SigMem.unlisted then [] else [(a, v)]
  | (k, x) :: m, a, v =>
    if a < k then (if v = SigMem.unlisted then (k, x) :: m else (a, v) :: (k, x) :: m)
    else if a = k then (if v = SigMem.unlisted then m else (a, v) :: m)
    else (k, x) :: SigMem.write m a v

/-- The canonical form: from `lo` on, addresses strictly rising, no entry that an unlisted address would read. -/
def SigMem.wfFrom : Nat → SigMem → Bool
  | _, [] => true
  | lo, (k, x) :: m => decide (lo ≤ k) && decide (x ≠ SigMem.unlisted) && SigMem.wfFrom (k + 1) m

/-- Signal memory is in its canonical form. -/
def SigMem.wf (m : SigMem) : Bool := SigMem.wfFrom 0 m

/-- Every listed address exists: it is below `SIG_WORDS` (R50). -/
def SigMem.inRange (n : Nat) (m : SigMem) : Bool := m.all (fun c => decide (c.1 < n))

/-- `MemRead(addr, 1)` (R52): `none` for an address that does not exist (R50). -/
def memRead (c : Cfg) (m : SigMem) (a : Nat) : Option Word :=
  if a < c.sigWords then some (m.read a) else none

/-- `MemWrite(addr, 1, v)` (R53): `none` for an address that does not exist (R50). -/
def memWrite (c : Cfg) (m : SigMem) (a : Nat) (v : Word) : Option SigMem :=
  if a < c.sigWords then some (m.write a v) else none

end Sys2Proof.Machine
end

