-- ==== Sys2Proof/Machine/State.lean ====
section
/-! DEFINITION. The state of VIBCORE (10_state.md R20), the host's side of its two ports, the reasons a step can
stop, and the state after hardware reset (R39, 70_reset_and_hazards.md R210). -/

namespace Sys2Proof.Machine

/-- What the host has sent and the block has not yet taken (20_memory.md R67): a command word, the RST event, or a
write of one word of signal memory. The host's reads change nothing and have no event (log entry 6). -/
inductive HostInput where
  | command (cw : Word64)
  | rst
  | memWrite (addr : Nat) (v : Word)
  deriving DecidableEq, Repr

/-- The machine. `dl`, `lut`, the six registers and `cp` are the block's state (R20); `sig` is the platform's signal
memory; `cfg`, `inputs` and `responses` are the model's own fields (log entries 1, 6): the configuration every step
takes (R8), the host's inputs oldest first, the response words emitted oldest first. -/
structure State where
  cfg : Cfg
  dl : RingBuf
  lut : RingBuf
  sigBase : Word
  chCount : Word
  dataLen : Word
  status : Word
  faultCh : Word
  faultIdx : Word
  cp : Nat
  sig : SigMem
  inputs : List HostInput
  responses : List Word64
  deriving DecidableEq, Repr

/-- Why the model stops. None of these is a fault of the hardware: the hardware's five faults are `Cause`, and
raising one is a next state. -/
inductive Fault where
  /-- An access to a word of signal memory at or above `SIG_WORDS`, which does not exist (R50). Raised by a host
  write that names such a word, and by the sequencer if it formed such an address, which it never does (R51). Safe. -/
  | absentWord (addr : Nat)
  deriving DecidableEq, Repr

/-- Why the model gives no meaning. -/
inductive Refusal where
  /-- The command has no meaning in the model yet; raised by `exec` only, for no command now. Safe. -/
  | notModelled (mnemonic : String)
  deriving DecidableEq, Repr

/-- The state after hardware reset of a block with configuration `c`, over signal memory `m` (R39, R210). -/
def State.resetOf (c : Cfg) (m : SigMem) : State :=
  { cfg := c
    dl := RingBuf.new c.b
    lut := oscFill c
    sigBase := 0
    chCount := 0
    dataLen := 0
    status := 0
    faultCh := 0
    faultIdx := 0
    cp := 0
    sig := m
    inputs := []
    responses := [] }

/-- The machine right after reset: `CFG_A`, no word of signal memory listed, nothing issued, nothing emitted
(log entries 2, 4, 6). -/
def State.reset : State := State.resetOf Config.resetCfg []

end Sys2Proof.Machine
end

