-- ==== Sys2Proof/Machine/Ops.lean ====
section
/-! DEFINITION. The named operations every command is made of: the field updates, `respond`, fault entry (`raise`,
60_exceptions.md R187), the halted answer and the envelope of R189, hardware reset (70_reset_and_hazards.md R210), and
the host's write of a signal word. There is no return from a fault (R192): RST is the only way out. -/

namespace Sys2Proof.Machine

/-- The three outcomes of a step or of a command. -/
abbrev Result := Host.Outcome State Fault Refusal

/-- Replace the delay line. -/
def State.withDl (s : State) (u : RingBuf) : State := { s with dl := u }

/-- Replace the oscillator table. -/
def State.withLut (s : State) (u : RingBuf) : State := { s with lut := u }

/-- Replace signal memory. -/
def State.withSig (s : State) (m : SigMem) : State := { s with sig := m }

/-- STATUS.HALT (R32, R188). -/
def State.halted (s : State) : Bool := haltBit s.status

/-- `respond(rc, val)`: one response word emitted after those before it (R73). -/
def State.respond (s : State) (rc : Rc) (val : Word) : State :=
  { s with responses := s.responses ++ [responseWord rc val] }

/-- The command completed with the value `val` (R74). -/
def State.respondOk (s : State) (val : Word) : State := s.respond .ok val

/-- A halted block answers HALTED with the STATUS word and does not execute the command (R188, R189). -/
def State.respondHalted (s : State) : State := s.respond .halted s.status

/-- `raise F(ch, idx)` on a block that is not halted (R187): STATUS, FAULT_CH and FAULT_IDX are written, the code is
the response, and nothing else changes. -/
def State.raise (s : State) (f : Cause) (ch idx : Nat) : State :=
  State.respond { s with status := haltStatus f, faultCh := word32 ch, faultIdx := word32 idx } (.fault f) 0

/-- `cp <- cp + 1`, once per command whatever its outcome (R27, R189). -/
def State.advance (s : State) : State := { s with cp := s.cp + 1 }

/-- The end of a command: the command pointer advances after the response (R189). -/
def endCommand : Result → Result
  | .next s => .next s.advance
  | .fault r => .fault r
  | .refused r => .refused r

/-- The envelope of a command that a halted block refuses (R189): the halted test, the body, the advance. -/
def runCommandBody (s : State) (body : State → Result) : Result :=
  endCommand (if s.halted then .next s.respondHalted else body s)

/-- The envelope of a command that a halted block executes too: NOP and RDREG (R188, R189). -/
def runAlways (s : State) (body : State → Result) : Result := endCommand (body s)

/-- What the block does with a word that decodes to no command (R78, R189). -/
def illegalCommand (s : State) : Result :=
  runCommandBody s (fun s => .next (s.raise .illegalCmd 0 0))

/-- Hardware reset (R210): every piece of block state as R39 lists it, whatever it was; signal memory is not touched,
and the configuration and the host's two streams are not block state (R20; log entry 13). -/
def State.hardwareReset (s : State) : State :=
  { State.resetOf s.cfg s.sig with inputs := s.inputs, responses := s.responses }

/-- The host writes one word of signal memory between commands (R67); a word that does not exist stops the model
(R50; log entry 9). -/
def State.hostWrite (s : State) (addr : Nat) (v : Word) : Result :=
  match memWrite s.cfg s.sig addr v with
  | some m => .next (s.withSig m)
  | none => .fault (.absentWord addr)

end Sys2Proof.Machine
end

