-- ==== Sys2Proof/Machine/Operands.lean ====
section
/-! DEFINITION. The operand forms of 30_encoding.md R71 and R72: what a command makes of its fields. There is no
other form: no register operand, no scaling, no addressing mode. -/

namespace Sys2Proof.Machine

/-- A sample word or a 32-bit pattern: the field, unchanged (R71). -/
def sampleOperand (opnd : Word) : Word := opnd

/-- An unsigned index: `zext_32(OPND)`, in `[0, 2^32)` (R71). -/
def indexOperand (opnd : Word) : Nat := zext32 opnd

/-- A signed Q16.16 offset: `sext_32(OPND)`, in `[-2^31, 2^31)` (R71). -/
def offsetOperand (opnd : Word) : Int := sext32 opnd

/-- The ring-buffer instance a unit operand names (R72, R119). -/
def State.unit (s : State) : RbUnit → RingBuf
  | .dl => s.dl
  | .lut => s.lut

end Sys2Proof.Machine
end

