-- ==== Sys2Proof/Machine/OscCmds.lean ====
section
/-! DEFINITION. The oscillator commands (42_oscillator.md R136, R137). -/

namespace Sys2Proof.Machine

/-- OSC.SAMPLE k (R136). -/
def execOscSample (k : Word) (s : State) : Result :=
  runCommandBody s (fun s => .next (s.respondOk (sampleAt s.cfg s.lut (indexOperand k))))

/-- OSC.RESET (R137): the fill against the same parameters. -/
def execOscReset (s : State) : Result :=
  runCommandBody s (fun s => .next ((s.withLut (oscFill s.cfg)).respondOk 0))

end Sys2Proof.Machine
end

