-- ==== Sys2Proof/Machine/RingCmds.lean ====
section
/-! DEFINITION. The ring-buffer commands (41_ring_buffer.md R117 to R121). RB.PUSH, RB.POP and RB.RESET on unit `lut`
exist in no row of the opcode map and raise ILLEGAL_CMD, as their words do (30_encoding.md R80; log entry 10). -/

namespace Sys2Proof.Machine

/-- RB.PUSH dl, v (R117). -/
def execRbPush (u : RbUnit) (v : Word) (s : State) : Result :=
  match u with
  | .dl => runCommandBody s (fun s => .next ((s.withDl (s.dl.push (sampleOperand v))).respondOk 0))
  | .lut => illegalCommand s

/-- RB.POP dl (R118). -/
def execRbPop (u : RbUnit) (s : State) : Result :=
  match u with
  | .dl => runCommandBody s (fun s => .next ((s.withDl s.dl.pop).respondOk s.dl.popped))
  | .lut => illegalCommand s

/-- RB.GET u, o (R119). -/
def execRbGet (u : RbUnit) (o : Word) (s : State) : Result :=
  runCommandBody s (fun s => .next (s.respondOk ((s.unit u).get (indexOperand o))))

/-- RB.GETF u, f (R120): NEG_OFFSET with info 0, 0 when the offset is negative. -/
def execRbGetf (u : RbUnit) (f : Word) (s : State) : Result :=
  runCommandBody s (fun s =>
    match (s.unit u).getf (offsetOperand f) with
    | some v => .next (s.respondOk v)
    | none => .next (s.raise .negOffset 0 0))

/-- RB.RESET dl (R121). -/
def execRbReset (u : RbUnit) (s : State) : Result :=
  match u with
  | .dl => runCommandBody s (fun s => .next ((s.withDl s.dl.zeroed).respondOk 0))
  | .lut => illegalCommand s

end Sys2Proof.Machine
end

