-- ==== Sys2Proof/Machine/Registers.lean ====
section
/-! DEFINITION. The register file of 10_state.md R30 to R38: 17 registers by number, the one operation that reads a
register and the one that writes one. No read has a side effect; only three registers can be written. -/

namespace Sys2Proof.Machine

/-- The defined registers (R30). -/
inductive Reg where
  | status
  | sigBase
  | chCount
  | dataLen
  | faultCh
  | faultIdx
  | id
  | bufLen
  | delay
  | width
  | period
  | amp
  | sigWords
  | dlRd
  | dlWr
  | lutRd
  | lutWr
  deriving DecidableEq, Repr

/-- A register's number (R30). -/
def Reg.number : Reg → RegNum
  | .status => 0x00#8
  | .sigBase => 0x01#8
  | .chCount => 0x02#8
  | .dataLen => 0x03#8
  | .faultCh => 0x04#8
  | .faultIdx => 0x05#8
  | .id => 0x08#8
  | .bufLen => 0x09#8
  | .delay => 0x0A#8
  | .width => 0x0B#8
  | .period => 0x0C#8
  | .amp => 0x0D#8
  | .sigWords => 0x0E#8
  | .dlRd => 0x10#8
  | .dlWr => 0x11#8
  | .lutRd => 0x12#8
  | .lutWr => 0x13#8

/-- All registers, in the order of the table of R30. -/
def allRegs : List Reg :=
  [.status, .sigBase, .chCount, .dataLen, .faultCh, .faultIdx, .id, .bufLen, .delay, .width, .period, .amp,
   .sigWords, .dlRd, .dlWr, .lutRd, .lutWr]

/-- The register a number names; every other number is reserved (R30). -/
def regOf (r : RegNum) : Option Reg := allRegs.find? (fun x => x.number == r)

/-- The identity constant, ASCII "ASE2" (R2, R31). -/
def idWord : Word := 0x41534532#32

/-- `x[i]` (R30 to R38): the six registers that are state, the hardwired identity and configuration views, and the
cursor views, each as a 32-bit word. -/
def State.readReg (s : State) : Reg → Word
  | .status => s.status
  | .sigBase => s.sigBase
  | .chCount => s.chCount
  | .dataLen => s.dataLen
  | .faultCh => s.faultCh
  | .faultIdx => s.faultIdx
  | .id => idWord
  | .bufLen => word32 s.cfg.b
  | .delay => word32 s.cfg.d
  | .width => word32 s.cfg.w
  | .period => word32 s.cfg.p
  | .amp => word32 s.cfg.amp
  | .sigWords => word32 s.cfg.sigWords
  | .dlRd => word32 s.dl.rd
  | .dlWr => word32 s.dl.wr
  | .lutRd => word32 s.lut.rd
  | .lutWr => word32 s.lut.wr

/-- `x[i] <- v` for the three writable registers; `none` for a read-only one (R30, R33 to R35, R177). -/
def State.writeReg (s : State) (x : Reg) (v : Word) : Option State :=
  match x with
  | .sigBase => some { s with sigBase := v }
  | .chCount => some { s with chCount := v }
  | .dataLen => some { s with dataLen := v }
  | _ => none

end Sys2Proof.Machine
end

