-- ==== Sys2Proof/Machine/SystemCmds.lean ====
section
/-! DEFINITION. The system commands NOP, RDREG, WRREG (44_system.md R175 to R177). -/

namespace Sys2Proof.Machine

/-- NOP (R175): responds OK, 0, also when halted. -/
def execNop (s : State) : Result := runAlways s (fun s => .next (s.respondOk 0))

/-- RDREG (R176): responds the register's word; a reserved number raises BAD_REG, and on a halted block is answered
HALTED (R189). -/
def execRdreg (r : RegNum) (s : State) : Result :=
  runAlways s (fun s =>
    match regOf r with
    | some x => .next (s.respondOk (s.readReg x))
    | none => .next (if s.halted then s.respondHalted else s.raise .badReg 0 0))

/-- WRREG (R177): writes one of SIG_BASE, CH_COUNT, DATA_LEN whole; any other number raises BAD_REG. -/
def execWrreg (r : RegNum) (v : Word) (s : State) : Result :=
  runCommandBody s (fun s =>
    match (regOf r).bind (fun x => s.writeReg x (sampleOperand v)) with
    | some t => .next (t.respondOk 0)
    | none => .next (s.raise .badReg 0 0))

end Sys2Proof.Machine
end

