-- ==== Sys2Proof/Machine/Vibrato.lean ====
section
/-! DEFINITION. The vibrato sequencer: `vibprocess(base, C, L)` of 43_vibrato.md R149, one operation at a time in the
order written (20_memory.md R60). Its loops are structural recursions on the number of rounds left. -/

namespace Sys2Proof.Machine

/-- One access of the sequencer to signal memory: the word address and the word read or written. -/
inductive Access where
  | read (addr : Nat) (v : Word)
  | write (addr : Nat) (v : Word)
  deriving DecidableEq, Repr

/-- What a VIB.PROCESS changes while it runs: the delay line and signal memory. `log` lists the accesses to signal
memory so far, newest first; it is transient, dropped when the command ends (R28; log entry 12). -/
structure Work where
  dl : RingBuf
  sig : SigMem
  log : List Access
  deriving DecidableEq, Repr

/-- How far the sequencer got: it goes on, it raised NEG_OFFSET at `(c, n)` with everything done before it kept
(R165), or it formed an address that does not exist, which it never does (R51). -/
inductive Seq where
  | run (w : Work)
  | neg (w : Work) (c n : Nat)
  | absent (addr : Nat)
  deriving DecidableEq, Repr

/-- The next operations, if the sequencer goes on. -/
def Seq.andThen (q : Seq) (f : Work → Seq) : Seq :=
  match q with
  | .run w => f w
  | .neg w c n => .neg w c n
  | .absent a => .absent a

/-- What is fixed during one VIB.PROCESS: the configuration, the oscillator's table, and the arguments read once at
the start (R148). -/
structure Job where
  cfg : Cfg
  lut : RingBuf
  base : Nat
  len : Nat
  deriving DecidableEq, Repr

/-- `A(c, n) = SIG_BASE + c * L + n` (R51). -/
def Job.addr (j : Job) (c n : Nat) : Nat := j.base + c * j.len + n

/-- The modulation `m = sext_32(sample_at(n))` (R152). -/
def Job.modulation (j : Job) (n : Nat) : Int := sext32 (sampleAt j.cfg j.lut n)

/-- The fractional delay `fd = (D << 16) + W * m`, exact (R152, R98). -/
def Job.delayAt (j : Job) (n : Nat) : Int := shl j.cfg.d 16 + j.cfg.w * j.modulation n

/-- `push(DL, MemRead(A(c, n), 1))`. -/
def pushSample (j : Job) (c n : Nat) (w : Work) : Seq :=
  match memRead j.cfg w.sig (j.addr c n) with
  | some v => .run { w with dl := w.dl.push v, log := .read (j.addr c n) v :: w.log }
  | none => .absent (j.addr c n)

/-- Priming (R150): `k` pushes from index `n` downward. -/
def primeFrom (j : Job) (c : Nat) : Nat → Nat → Work → Seq
  | 0, _, w => .run w
  | k + 1, n, w => (pushSample j c n w).andThen (primeFrom j c k (n - 1))

/-- The feed of a main-pass step (R153): the original sample at `fi = n - B` when `fi >= 0`, else silence. -/
def feed (j : Job) (c n : Nat) (w : Work) : Seq :=
  if j.cfg.b ≤ n then pushSample j c (n - j.cfg.b) w
  else .run { w with dl := w.dl.push 0 }

/-- Overwrite the sample in place, then pop, the popped value discarded (R153). -/
def writeAndPop (j : Job) (c n : Nat) (y : Word) (w : Work) : Seq :=
  match memWrite j.cfg w.sig (j.addr c n) y with
  | some m => .run { dl := w.dl.pop, sig := m, log := .write (j.addr c n) y :: w.log }
  | none => .absent (j.addr c n)

/-- One main-pass step at `(c, n)` (R149 step 2): the fractional read, the write, the pop, the feed. -/
def mainStep (j : Job) (c n : Nat) (w : Work) : Seq :=
  match w.dl.getf (j.delayAt n) with
  | some y => (writeAndPop j c n y w).andThen (feed j c n)
  | none => .neg w c n

/-- The main pass over the indices below `k`, strictly decreasing (R149). -/
def mainPass (j : Job) (c : Nat) : Nat → Work → Seq
  | 0, w => .run w
  | n + 1, w => (mainStep j c n w).andThen (mainPass j c n)

/-- One channel: priming from index `L - 1` down to `L - B + 1`, then the main pass (R149). -/
def runChannel (j : Job) (c : Nat) (w : Work) : Seq :=
  (primeFrom j c j.cfg.primeCount (j.len - 1) w).andThen (mainPass j c j.len)

/-- `k` channels from channel `c` upward; nothing resets or realigns the delay line (R149, R163). -/
def runChannels (j : Job) : Nat → Nat → Work → Seq
  | 0, _, w => .run w
  | k + 1, c, w => (runChannel j c w).andThen (runChannels j k (c + 1))

/-- `vibprocess(base, C, L)` from a delay line and a signal memory (R149). -/
def vibprocess (j : Job) (chans : Nat) (dl : RingBuf) (m : SigMem) : Seq :=
  runChannels j chans 0 { dl := dl, sig := m, log := [] }

end Sys2Proof.Machine
end

