-- ==== Sys2Proof/Machine/VibCmds.lean ====
section
/-! DEFINITION. The vibrato commands (43_vibrato.md R148, R155). -/

namespace Sys2Proof.Machine

/-- The state with what the sequencer has done so far. -/
def State.withWork (s : State) (w : Work) : State := (s.withDl w.dl).withSig w.sig

/-- The job of a VIB.PROCESS in a state: `base = x[1]`, `L = x[3]` (R148). -/
def State.job (s : State) : Job :=
  { cfg := s.cfg, lut := s.lut, base := zext32 s.sigBase, len := zext32 s.dataLen }

/-- The sequencer's run for a state's registers, delay line and signal memory (R148, R149). -/
def State.sequence (s : State) : Seq := vibprocess s.job (zext32 s.chCount) s.dl s.sig

/-- The end of the sequencer's run: OK, or NEG_OFFSET with the step's indices and what was done kept (R148, R165). -/
def State.finishSeq (s : State) : Seq → Result
  | .run w => .next ((s.withWork w).respondOk 0)
  | .neg w c n => .next ((s.withWork w).raise .negOffset c n)
  | .absent a => .fault (.absentWord a)

/-- The body of VIB.PROCESS (R148): the no-op test, then SHORT_SIGNAL, then BAD_RANGE, on exact integers and before
any access, then the sequencer. -/
def vibProcessBody (s : State) : Result :=
  if zext32 s.chCount = 0 ∨ zext32 s.dataLen = 0 then .next (s.respondOk 0)
  else if zext32 s.dataLen < s.cfg.primeCount then .next (s.raise .shortSignal 0 0)
  else if s.cfg.sigWords < zext32 s.sigBase + zext32 s.chCount * zext32 s.dataLen then
    .next (s.raise .badRange 0 0)
  else s.finishSeq s.sequence

/-- VIB.PROCESS (R148). -/
def execVibProcess (s : State) : Result := runCommandBody s vibProcessBody

/-- VIB.RESET (R155): the delay line zeroed, then the table filled. -/
def execVibReset (s : State) : Result :=
  runCommandBody s (fun s => .next (((s.withDl s.dl.zeroed).withLut (oscFill s.cfg)).respondOk 0))

end Sys2Proof.Machine
end

