-- ==== Sys2Proof/Machine/Dispatch.lean ====
section
/-! DEFINITION. One arm per command of 30_encoding.md R76, each a call of its meaning. -/

namespace Sys2Proof.Machine

def exec (i : Instr) (s : State) : Host.Outcome State Fault Refusal :=
  match i with
  | .nop => Sys2Proof.Machine.execNop s
  | .rdreg r => Sys2Proof.Machine.execRdreg r s
  | .wrreg r v => Sys2Proof.Machine.execWrreg r v s
  | .rbPush u v => Sys2Proof.Machine.execRbPush u v s
  | .rbPop u => Sys2Proof.Machine.execRbPop u s
  | .rbGet u o => Sys2Proof.Machine.execRbGet u o s
  | .rbGetf u f => Sys2Proof.Machine.execRbGetf u f s
  | .rbReset u => Sys2Proof.Machine.execRbReset u s
  | .oscSample k => Sys2Proof.Machine.execOscSample k s
  | .oscReset => Sys2Proof.Machine.execOscReset s
  | .vibProcess => Sys2Proof.Machine.execVibProcess s
  | .vibReset => Sys2Proof.Machine.execVibReset s

end Sys2Proof.Machine
end

