-- ==== Sys2Proof/Machine/Port.lean ====
section
/-! DEFINITION. The two ports: what the block does with one command word (60_exceptions.md R189) and with one input of
the host (20_memory.md R67). -/

namespace Sys2Proof.Machine

/-- The command envelope: decode, then the command, or ILLEGAL_CMD for a word that is none (R189). -/
def runWord (cw : Word64) (s : State) : Result :=
  match decode cw with
  | .ok i => exec i s
  | .error _ => illegalCommand s

/-- One input of the host: a command word, RST (R210), or its own write of a signal word (R67). -/
def takeInput (e : HostInput) (s : State) : Result :=
  match e with
  | .command cw => runWord cw s
  | .rst => .next s.hardwareReset
  | .memWrite addr v => s.hostWrite addr v

/-- The state after the oldest input is taken from the queue (R64). -/
def State.dequeued (s : State) (rest : List HostInput) : State := { s with inputs := rest }

/-- A command word issued before every waiting input. -/
def State.issueFirst (s : State) (cw : Word64) : State := { s with inputs := .command cw :: s.inputs }

end Sys2Proof.Machine
end

