-- ==== Sys2Proof/Machine/Step.lean ====
section
/-! DEFINITION. One step of the machine: the oldest input of the host is taken and handled whole; with none waiting
the block holds its state (60_exceptions.md R189, R201; log entry 7). -/

namespace Sys2Proof.Machine

/-- One step. -/
def step (s : State) : Host.Outcome State Fault Refusal :=
  match s.inputs with
  | [] => .next s
  | e :: rest => takeInput e (s.dequeued rest)

/-- The state with a table word issued as the next command word, its bit 0 the word's bit 0, bits above `nbits` zero
(R70; log entry 6: commands come from outside the machine). -/
def State.withFetchWord (s : State) (nbits w : Nat) : State :=
  s.issueFirst (BitVec.ofNat 64 (w % 2 ^ nbits))

end Sys2Proof.Machine
end

