-- ==== Sys2Proof/Machine/Assembler.lean ====
section
/-! DEFINITION. The assembler notation of 30_encoding.md R82 and the pseudo-instructions of R83: one line of text to
the commands it stands for. It is a notation of the host's, not a part of the block. -/

namespace Sys2Proof.Machine

/-- An operand as written (R82): a unit, a register name, a numeral, or `q(<decimal>)`. -/
inductive AsmOperand where
  | unit (u : RbUnit)
  | reg (x : Reg)
  | num (n : Nat)
  | q (x : Rat)
  deriving DecidableEq, Repr

/-- The mnemonics: the twelve commands (R76) and the four pseudo-instructions (R83). -/
inductive Mnemonic where
  | nop
  | rdreg
  | wrreg
  | rbPush
  | rbPop
  | rbGet
  | rbGetf
  | rbReset
  | oscSample
  | oscReset
  | vibProcess
  | vibReset
  | rbPeek
  | setSig
  | statusP
  | vibRun
  deriving DecidableEq, Repr

/-- The spelling of the mnemonics (R76, R83). -/
def mnemonicNames : List (String × Mnemonic) :=
  [("NOP", .nop), ("RDREG", .rdreg), ("WRREG", .wrreg), ("RB.PUSH", .rbPush), ("RB.POP", .rbPop),
   ("RB.GET", .rbGet), ("RB.GETF", .rbGetf), ("RB.RESET", .rbReset), ("OSC.SAMPLE", .oscSample),
   ("OSC.RESET", .oscReset), ("VIB.PROCESS", .vibProcess), ("VIB.RESET", .vibReset), ("RB.PEEK", .rbPeek),
   ("SETSIG", .setSig), ("STATUS", .statusP), ("VIB.RUN", .vibRun)]

/-- The names of the registers (R30). -/
def registerNames : List (String × Reg) :=
  [("STATUS", .status), ("SIG_BASE", .sigBase), ("CH_COUNT", .chCount), ("DATA_LEN", .dataLen),
   ("FAULT_CH", .faultCh), ("FAULT_IDX", .faultIdx), ("ID", .id), ("BUF_LEN", .bufLen), ("DELAY", .delay),
   ("WIDTH", .width), ("PERIOD", .period), ("AMP", .amp), ("SIG_WORDS", .sigWords), ("DL_RD", .dlRd),
   ("DL_WR", .dlWr), ("LUT_RD", .lutRd), ("LUT_WR", .lutWr)]

/-- The names of the units (R82). -/
def unitNames : List (String × RbUnit) := [("dl", .dl), ("lut", .lut)]

/-- Look a name up. -/
def lookupName {α : Type} (table : List (String × α)) (l : List Char) : Option α :=
  (table.find? (fun e => e.1.toList == l)).map (fun e => e.2)

/-- `q(<decimal>) = word32(round_half_away(<decimal> * 65536))` (R82). -/
def qWord (x : Rat) : Word := word32 (roundHalfAway (x * 65536))

/-- A space within a line. -/
def isBlank (c : Char) : Bool := c == ' ' || c == '\t' || c == '\r'

/-- Drop the blanks at both ends. -/
def trimBlanks (l : List Char) : List Char :=
  ((l.dropWhile isBlank).reverse.dropWhile isBlank).reverse

/-- The parts between separators. -/
def splitAtChar (sep : Char) : List Char → List (List Char)
  | [] => [[]]
  | c :: l =>
    if c = sep then [] :: splitAtChar sep l
    else
      match splitAtChar sep l with
      | [] => [[c]]
      | part :: parts => (c :: part) :: parts

/-- The value of a digit in a base up to 16. -/
def digitValue (base : Nat) (c : Char) : Option Nat :=
  let n := c.toNat
  let d := if 48 ≤ n ∧ n ≤ 57 then n - 48
    else if 65 ≤ n ∧ n ≤ 70 then n - 55
    else if 97 ≤ n ∧ n ≤ 102 then n - 87
    else base
  if d < base then some d else none

/-- The value of digits after the value `acc` of those before them. -/
def digitsFrom (base : Nat) : Nat → List Char → Option Nat
  | acc, [] => some acc
  | acc, c :: l =>
    match digitValue base c with
    | some d => digitsFrom base (acc * base + d) l
    | none => none

/-- At least one digit, and nothing else. -/
def parseDigits (base : Nat) (l : List Char) : Option Nat :=
  if l.isEmpty then none else digitsFrom base 0 l

/-- A decimal or `0x` hexadecimal numeral (R82). -/
def parseNumeral (l : List Char) : Option Nat :=
  match l with
  | '0' :: 'x' :: h => parseDigits 16 h
  | l => parseDigits 10 l

/-- A decimal with an optional sign and an optional fraction (R82). -/
def parseDecimal (l : List Char) : Option Rat :=
  let neg := l.head? == some '-'
  let body := if neg then l.drop 1 else l
  let value : Option Rat :=
    match splitAtChar '.' body with
    | [i] => (parseDigits 10 i).map (fun n => (n : Rat))
    | [i, f] =>
      (parseDigits 10 i).bind (fun n =>
        (parseDigits 10 f).map (fun k => (n : Rat) + (k : Rat) / ((10 ^ f.length : Nat) : Rat)))
    | _ => none
  value.map (fun x => if neg then -x else x)

/-- One operand (R82). -/
def parseOperand (l : List Char) : Option AsmOperand :=
  match lookupName unitNames l, lookupName registerNames l, l with
  | some u, _, _ => some (.unit u)
  | none, some x, _ => some (.reg x)
  | none, none, 'q' :: '(' :: t =>
    if t.getLast? == some ')' then (parseDecimal (trimBlanks t.dropLast)).map .q else none
  | none, none, l => (parseNumeral l).map .num

/-- The register an operand names, by name or by number (R82). -/
def AsmOperand.regNum : AsmOperand → Option RegNum
  | .reg x => some x.number
  | .num n => if n < 2 ^ 8 then some (BitVec.ofNat 8 n) else none
  | _ => none

/-- The 32-bit field of an operand: a numeral or a Q16.16 value (R82). R82 allows `q(<decimal>)` for a Q16.16 value, the
operands of RB.PUSH and RB.GETF. DESIGN CHOICE, log entry 17: R82 is silent on `q(..)` as an unsigned index (RB.GET,
OSC.SAMPLE) or a register argument (WRREG, SETSIG, VIB.RUN), and the model accepts it there too, as the same word. -/
def AsmOperand.word : AsmOperand → Option Word
  | .num n => if n < 2 ^ 32 then some (BitVec.ofNat 32 n) else none
  | .q x => some (qWord x)
  | _ => none

/-- The unit an operand names. -/
def AsmOperand.asUnit : AsmOperand → Option RbUnit
  | .unit u => some u
  | _ => none

/-- `SETSIG base, ch, len` (R83). -/
def expandSetSig (base ch len : Word) : List Instr :=
  [.wrreg Reg.sigBase.number base, .wrreg Reg.chCount.number ch, .wrreg Reg.dataLen.number len]

/-- `VIB.RUN base, ch, len` (R83). -/
def expandVibRun (base ch len : Word) : List Instr :=
  .vibReset :: (expandSetSig base ch len ++ [.vibProcess])

/-- The commands a mnemonic with its operands stands for, before the unit check (R82, R83). -/
def expandLine (m : Mnemonic) (ops : List AsmOperand) : Option (List Instr) :=
  match m, ops with
  | .nop, [] => some [.nop]
  | .rdreg, [r] => r.regNum.map (fun r => [.rdreg r])
  | .wrreg, [r, v] => r.regNum.bind (fun r => v.word.map (fun v => [.wrreg r v]))
  | .rbPush, [u, v] => u.asUnit.bind (fun u => v.word.map (fun v => [.rbPush u v]))
  | .rbPop, [u] => u.asUnit.map (fun u => [.rbPop u])
  | .rbGet, [u, o] => u.asUnit.bind (fun u => o.word.map (fun o => [.rbGet u o]))
  | .rbGetf, [u, f] => u.asUnit.bind (fun u => f.word.map (fun f => [.rbGetf u f]))
  | .rbReset, [u] => u.asUnit.map (fun u => [.rbReset u])
  | .oscSample, [k] => k.word.map (fun k => [.oscSample k])
  | .oscReset, [] => some [.oscReset]
  | .vibProcess, [] => some [.vibProcess]
  | .vibReset, [] => some [.vibReset]
  | .rbPeek, [u] => u.asUnit.map (fun u => [.rbGet u 0])
  | .setSig, [a, b, c] =>
    a.word.bind (fun a => b.word.bind (fun b => c.word.map (fun c => expandSetSig a b c)))
  | .statusP, [] => some [.rdreg Reg.status.number]
  | .vibRun, [a, b, c] =>
    a.word.bind (fun a => b.word.bind (fun b => c.word.map (fun c => expandVibRun a b c)))
  | _, _ => none

/-- The commands of a mnemonic with its operands; a mutating ring command on `lut` is rejected (R82). -/
def assembleOps (m : Mnemonic) (ops : List AsmOperand) : Option (List Instr) :=
  (expandLine m ops).bind (fun is => if is.all Instr.wellFormed then some is else none)

/-- The operands of a line, separated by commas. -/
def parseOperands (l : List Char) : Option (List AsmOperand) :=
  if l.isEmpty then some []
  else (splitAtChar ',' l).mapM (fun part => parseOperand (trimBlanks part))

/-- One line: the comment dropped, the mnemonic looked up, the operands placed (R82). An empty line is no command. -/
def assembleLine (l : List Char) : Option (List Instr) :=
  let t := trimBlanks (l.takeWhile (fun c => c != ';'))
  if t.isEmpty then some []
  else
    (lookupName mnemonicNames (t.takeWhile (fun c => !isBlank c))).bind (fun m =>
      (parseOperands (trimBlanks (t.dropWhile (fun c => !isBlank c)))).bind (fun ops => assembleOps m ops))

/-- A program, one command or pseudo-instruction per line, to its command words (R82). -/
def assemble (text : List Char) : Option (List Word64) :=
  ((splitAtChar '\n' text).mapM assembleLine).map (fun is => is.flatten.map encode)

end Sys2Proof.Machine
end

