-- ==== Sys2Proof/Safety.lean ====
section
/-! DEFINITION. What the claims speak of: the invariant of every reachable state, reachable states, a host that keeps
to the words that exist, and the spec's names for a run of VIB.PROCESS (lag, zero-extended signal, taps). -/

namespace Sys2Proof

/-- The commands whose answer carries a value (30_encoding.md R74). -/
def Instr.returnsValue : Instr → Bool
  | .nop => false
  | .rdreg _ => true
  | .wrreg _ _ => false
  | .rbPush _ _ => false
  | .rbPop _ => true
  | .rbGet _ _ => true
  | .rbGetf _ _ => true
  | .rbReset _ => false
  | .oscSample _ => true
  | .oscReset => false
  | .vibProcess => false
  | .vibReset => false

end Sys2Proof

namespace Sys2Proof.Machine

/-- A ring buffer of capacity `n` with both cursors in range (R23). -/
structure RingBuf.Shaped (u : RingBuf) (n : Nat) : Prop where
  length : u.mem.length = n
  rd_lt : u.rd < n
  wr_lt : u.wr < n

/-- The invariant of every reachable state: the configuration is well-formed (R11), the delay line has its capacity
and its cursors are in range (R23), the table is the fill (R24), STATUS is legal (R32), the fault information is zero
unless NEG_OFFSET was raised (R36), and signal memory is canonical and names words that exist (R50). -/
structure State.Inv (s : State) : Prop where
  cfg_ok : s.cfg.ok = true
  dl_shaped : s.dl.Shaped s.cfg.b
  lut_filled : s.lut = oscFill s.cfg
  status_legal : statusLegal s.status = true
  info_clear : causeField s.status ≠ Cause.negOffset.code → s.faultCh = 0 ∧ s.faultIdx = 0
  sig_wf : s.sig.wf = true
  sig_inRange : s.sig.inRange s.cfg.sigWords = true

/-- The input names no word of signal memory that does not exist (R50, R67). -/
def HostInput.present (c : Cfg) : HostInput → Bool
  | .command _ => true
  | .rst => true
  | .memWrite addr _ => decide (addr < c.sigWords)

/-- The host writes only words that exist. -/
def State.HostOk (s : State) : Prop := ∀ e ∈ s.inputs, e.present s.cfg = true

/-- A state some run reaches: from hardware reset of a block with a well-formed configuration, over any signal memory,
by steps and by the host issuing further inputs. -/
inductive Reachable : State → Prop where
  | reset (c : Cfg) (m : SigMem) : c.ok = true → m.wf = true → m.inRange c.sigWords = true →
      Reachable (State.resetOf c m)
  | issue (s : State) (more : List HostInput) : Reachable s → Reachable { s with inputs := s.inputs ++ more }
  | step (s t : State) : Reachable s → Sys2Proof.Machine.step s = .next t → Reachable t

/-- The state after a command that changes nothing but answers `rc`, `val` (R73, R27). -/
def State.answered (s : State) (rc : BitVec 8) (val : Word) : State :=
  { s with responses := s.responses ++ [rc ++ 0#24 ++ val], cp := s.cp + 1 }

/-- The state after a command that raised the fault with this code and information, and changed nothing before that
(R187, R27). -/
def State.faulted (s : State) (code : BitVec 8) (ch idx : Nat) : State :=
  { s with
    status := 0#16 ++ code ++ 0x01#8
    faultCh := BitVec.ofNat 32 ch
    faultIdx := BitVec.ofNat 32 idx
    responses := s.responses ++ [code ++ 0#24 ++ 0#32]
    cp := s.cp + 1 }

/-- The word selects no command (R75). -/
def NoCommand (cw : Word64) : Prop := (decode cw).toOption = none

/-- The word selects no command, and a running block that takes it raises ILLEGAL_CMD and changes nothing but the fault
entry (R78, R187). -/
def RaisesIllegalCmd (cw : Word64) : Prop :=
  NoCommand cw ∧ ∀ (s : State) (rest : List HostInput), s.inputs = .command cw :: rest → s.halted = false →
    Sys2Proof.Machine.step s = .next { s.faulted 0x01 0 0 with inputs := rest }

/-- One push or one pop of a ring buffer (R122). -/
inductive RingOp where
  | push (v : Word)
  | pop
  deriving DecidableEq, Repr

/-- The buffer after one operation. -/
def RingBuf.apply (u : RingBuf) : RingOp → RingBuf
  | .push v => u.push v
  | .pop => u.pop

/-- The buffer after a sequence of operations, the head first. -/
def RingBuf.applyAll (u : RingBuf) (ops : List RingOp) : RingBuf := ops.foldl RingBuf.apply u

/-- The words a sequence of operations pushes, in order. -/
def pushedWords : List RingOp → List Word
  | [] => []
  | .push v :: ops => v :: pushedWords ops
  | .pop :: ops => pushedWords ops

/-- How many pops a sequence of operations makes. -/
def popCount : List RingOp → Nat
  | [] => 0
  | .push _ :: ops => popCount ops
  | .pop :: ops => popCount ops + 1

/-- The access is a read. -/
def Access.isRead : Access → Bool
  | .read _ _ => true
  | .write _ _ => false

/-- The address of an access. -/
def Access.addr : Access → Nat
  | .read a _ => a
  | .write a _ => a

/-- The lag of the delay line: `(DL.rd - DL.wr) mod B` (R158). -/
def State.lag (s : State) : Nat := ((s.dl.rd - s.dl.wr : Int) % s.cfg.b).toNat

/-- A VIB.PROCESS of this state passes the checks of R148 and has work to do. -/
structure State.CanProcess (s : State) : Prop where
  running : s.halted = false
  channels : 0 < s.chCount.toNat
  long : s.cfg.b - 1 ≤ s.dataLen.toNat
  inMemory : s.sigBase.toNat + s.chCount.toNat * s.dataLen.toNat ≤ s.cfg.sigWords

/-- `fd` at sample index `n` (R152), from the table's entry as R24 gives it. -/
def State.delayAt (s : State) (n : Nat) : Int :=
  s.cfg.d * 65536 + s.cfg.w * sext32 (word32 (fxmul (s.cfg.sin (n % s.cfg.p)) s.cfg.amp))

/-- The word address of `signal[c][n]` for a state's registers (R51). -/
def State.addrOf (s : State) (c n : Nat) : Nat := s.sigBase.toNat + c * s.dataLen.toNat + n

/-- The zero-extended signal `xz[c][j]` of a state (43_vibrato.md, names): zero below index 0. -/
def State.xz (s : State) (c : Nat) (j : Int) : Int :=
  if j < 0 then 0 else sext32 (s.sig.read (s.addrOf c j.toNat))

/-- `e(n, j)` of R160: the sample that offset `j` reaches at index `n` of channel `c`, with the lag `lag`. -/
def State.tap (s : State) (c lag n j : Nat) : Int :=
  if lag + (s.dataLen.toNat - 1 - n) + j ≤ s.cfg.b - 2 then s.xz c ((n : Int) - j - lag)
  else s.xz c ((n : Int) - j - lag - 1)

/-- The tape `T(p)` of channel `c`: the sample its `p`-th push stores, priming first, then the feeds of the main pass
(R158, R150, R153). -/
def State.tape (s : State) (c : Nat) (p : Int) : Int :=
  if p ≤ (s.cfg.b : Int) - 2 then s.xz c ((s.dataLen.toNat : Int) - 1 - p)
  else s.xz c ((s.dataLen.toNat : Int) - 2 - p)

/-- The tape position that offset `j` reaches at index `n` of a channel with the lag `lag` (R158, R217): with
`k = L - 1 - n`, the last position `p <= B - 2 + k` congruent to `lag + k + j` modulo `B`. It is negative where the
channel has pushed to no such position. -/
def State.lastPush (s : State) (lag n j : Nat) : Int :=
  let k : Int := s.dataLen.toNat - 1 - n
  let top : Int := s.cfg.b - 2 + k
  top - (top - (lag + k + j)) % s.cfg.b

/-- The one slot of the delay line that priming channel `c` leaves alone, the last before the write cursor, as the
channel found it (R158, R217). Channel 0 finds what the line held when the command started. A later channel finds the
last push of the channel before it, tape position `L + B - 2`, which is boundary silence (R164). -/
def State.startSlot (s : State) (c : Nat) : Int :=
  if c = 0 then sext32 (s.dl.slot ((s.dl.wr + (s.cfg.b - 1)) % s.cfg.b)) else 0

/-- What offset `j` reaches at index `n` of channel `c` with the lag `lag`, valid or not (R158, R159(b), R163(a),
R217): the sample last pushed to that slot, or the slot as the channel found it. Where `lag + j <= B - 2` it is `e(n, j)`
of R160 (`State.tap`). -/
def State.reached (s : State) (c lag n j : Nat) : Int :=
  if 0 ≤ s.lastPush lag n j then s.tape c (s.lastPush lag n j) else s.startSlot c

/-- The word at an address of a state's signal memory. -/
def State.word (s : State) (addr : Nat) : Word := s.sig.read addr

end Sys2Proof.Machine
end

