-- ==== Sys2Proof/Certificates/Slice0/Obligations.lean ====
section
/-! DEFINITION. The statements for the provers. Each docstring names the rules of spec/ it formalises. The next states
are written out in the spec's terms (`State.answered`: only the response and `cp`; `State.faulted`: only the fault
entry), so each equation is a frame too: what it does not name is unchanged. -/

open Sys2Proof Sys2Proof.Machine

/-! Encoding (30_encoding.md). -/

/-- Decoding the encoding of any command of the opcode map gives the command back, with every operand at every value
(R70 to R72, R76). -/
def Obligations.DecodeOfEncodeIsIdentity : Prop :=
  ∀ i : Instr, i.wellFormed = true → decode (encode i) = .ok i

/-- A word that decodes is exactly the encoding of its command: no bit is ignored (R76, R78, D23). -/
def Obligations.EncodeOfDecodeIsIdentity : Prop :=
  ∀ (cw : Word64) (i : Instr), decode cw = .ok i → i.wellFormed = true ∧ encode i = cw

/-- R75: a word selects the command of the first, and only, row whose mask and match agree; a word that matches no row
is illegal and raises ILLEGAL_CMD; the decoder is total and reads no state (it is a function of the word alone). -/
def Obligations.DecoderSelectsTheOneMatchingRow : Prop :=
  (∀ (cw : Word64) (i j : Nat) (hi : i < opcodeMap.length) (hj : j < opcodeMap.length), i ≠ j →
    ¬(cw &&& opcodeMap[i].2.1 = opcodeMap[i].1 ∧ cw &&& opcodeMap[j].2.1 = opcodeMap[j].1)) ∧
  (∀ (cw : Word64), ∀ row ∈ opcodeMap, cw &&& row.2.1 = row.1 → decode cw = .ok (row.2.2 cw)) ∧
  (∀ cw : Word64, (∀ row ∈ opcodeMap, cw &&& row.2.1 ≠ row.1) → RaisesIllegalCmd cw)

/-- R78: a word that selects no command raises ILLEGAL_CMD and changes nothing else; no word is a NOP but NOP itself;
the cases (a) to (e) are illegal; RDREG and WRREG decode with every register number, and one that names no register
raises BAD_REG when executed. -/
def Obligations.IllegalEncodingsRaiseIllegalCmd : Prop :=
  (∀ cw : Word64, NoCommand cw → RaisesIllegalCmd cw) ∧
  (∀ cw : Word64, decode cw = .ok .nop ↔ cw = 0) ∧
  (∀ cw : Word64, opcOf cw ∉ [0x00#8, 0x01#8, 0x02#8, 0x10#8, 0x11#8, 0x12#8, 0x13#8, 0x14#8, 0x20#8, 0x21#8, 0x30#8,
    0x31#8] → RaisesIllegalCmd cw) ∧
  (∀ cw : Word64, zeroOf cw ≠ 0 → RaisesIllegalCmd cw) ∧
  (∀ cw : Word64, opcOf cw ∈ [0x00#8, 0x01#8, 0x11#8, 0x14#8, 0x21#8, 0x30#8, 0x31#8] → opndOf cw ≠ 0 →
    RaisesIllegalCmd cw) ∧
  (∀ cw : Word64, opcOf cw ∈ [0x00#8, 0x20#8, 0x21#8, 0x30#8, 0x31#8] → selOf cw ≠ 0 → RaisesIllegalCmd cw) ∧
  (∀ cw : Word64, opcOf cw ∈ [0x10#8, 0x11#8, 0x12#8, 0x13#8, 0x14#8] → 2 ≤ (selOf cw).toNat → RaisesIllegalCmd cw) ∧
  (∀ r : RegNum, decode (0x01#8 ++ r ++ 0#16 ++ 0#32) = .ok (.rdreg r)) ∧
  (∀ (r : RegNum) (v : Word), decode (0x02#8 ++ r ++ 0#16 ++ v) = .ok (.wrreg r v)) ∧
  (∀ (s : State) (r : RegNum) (v : Word), s.halted = false → r ∉ [0x00#8, 0x01#8, 0x02#8, 0x03#8, 0x04#8, 0x05#8,
      0x08#8, 0x09#8, 0x0A#8, 0x0B#8, 0x0C#8, 0x0D#8, 0x0E#8, 0x10#8, 0x11#8, 0x12#8, 0x13#8] →
    exec (.rdreg r) s = .next (s.faulted 0x02 0 0) ∧ exec (.wrreg r v) s = .next (s.faulted 0x02 0 0))

/-- R79: the zero word is NOP and the word of ones is illegal. -/
def Obligations.ZeroWordIsNopAndOnesIllegal : Prop :=
  decode 0 = .ok .nop ∧ opcOf (BitVec.allOnes 64) = 0xFF#8 ∧ NoCommand (BitVec.allOnes 64)

/-- Words written out in 95_test_vectors.md V4 decode to the commands named there. -/
def Obligations.SampleWordsDecode : Prop :=
  decode 0x0108000000000000#64 = .ok (.rdreg 0x08#8) ∧
  decode 0x0203000000000014#64 = .ok (.wrreg 0x03#8 20#32) ∧
  decode 0x1000000000010000#64 = .ok (.rbPush .dl 0x00010000#32) ∧
  decode 0x1301000000098000#64 = .ok (.rbGetf .lut 0x00098000#32) ∧
  decode 0x2000000000000002#64 = .ok (.oscSample 2#32) ∧
  decode 0x3000000000000000#64 = .ok .vibProcess ∧
  NoCommand 0x1001000000000005#64 ∧ NoCommand 0x3100000080000000#64

/-- R80: RB.PUSH, RB.POP and RB.RESET on `lut` match no row and raise ILLEGAL_CMD, RB.GET and RB.GETF accept both
units, and only OSC.RESET and VIB.RESET ever change the table. -/
def Obligations.MutatingRingCommandsExistOnDlOnly : Prop :=
  (∀ cw : Word64, opcOf cw ∈ [0x10#8, 0x11#8, 0x14#8] → selOf cw = 0x01#8 → RaisesIllegalCmd cw) ∧
  (∀ (u : RbUnit) (o : Word), decode (encode (.rbGet u o)) = .ok (.rbGet u o)) ∧
  (∀ (u : RbUnit) (f : Word), decode (encode (.rbGetf u f)) = .ok (.rbGetf u f)) ∧
  (∀ (i : Instr) (s t : State), exec i s = .next t → t.lut ≠ s.lut → i = .oscReset ∨ i = .vibReset)

/-! The envelope, the halted state and faults (60_exceptions.md). -/

/-- When the next command word decodes to a command, a step is that command's `exec` on the state with the word taken
from the queue (R189). -/
def Obligations.StepRunsTheDecodedCommand : Prop :=
  ∀ (s : State) (cw : Word64) (rest : List HostInput) (i : Instr), s.inputs = .command cw :: rest →
    decode cw = .ok i → step s = exec i { s with inputs := rest }

/-- R73: for every command word, legal or not, on every state, the step answers a next state with exactly one response
word `{RC, 24 zero bits, VAL}` after those before it, `VAL` zero in a fault's answer and in that of a command that
returns no value; and (R27) `cp` advances by one, and (R74) no code but those seven is emitted. -/
def Obligations.EveryCommandAnswersExactlyOnce : Prop :=
  ∀ (s : State) (cw : Word64) (rest : List HostInput), s.inputs = .command cw :: rest →
    ∃ (t : State) (rc : BitVec 8) (val : Word), step s = .next t ∧ t.responses = s.responses ++ [rc ++ 0#24 ++ val] ∧
      t.cp = s.cp + 1 ∧ t.inputs = rest ∧
      rc ∈ [0x00#8, 0x01#8, 0x02#8, 0x03#8, 0x04#8, 0x05#8, 0xFF#8] ∧
      (rc ∈ [0x01#8, 0x02#8, 0x03#8, 0x04#8, 0x05#8] → val = 0) ∧ (rc = 0xFF#8 → val = s.status) ∧
      ((∀ i, decode cw = .ok i → i.returnsValue = false) → rc ≠ 0xFF#8 → val = 0)

/-- With no input waiting the block holds its state (R201; the model's idle step is log entry 7). -/
def Obligations.IdleBlockHoldsItsState : Prop :=
  ∀ s : State, s.inputs = [] → step s = .next s

/-- While halted, NOP answers OK, RDREG of a defined register answers OK with the register, and every other word, legal
or not, is answered HALTED with STATUS; nothing but `cp` and the response stream changes (R188, R189). -/
def Obligations.HaltedBlockOnlyAnswers : Prop :=
  ∀ (s : State) (cw : Word64) (rest : List HostInput), s.inputs = .command cw :: rest → s.halted = true →
    (decode cw = .ok .nop → step s = .next { s.answered 0x00 0 with inputs := rest }) ∧
    (∀ (r : RegNum) (x : Reg), decode cw = .ok (.rdreg r) → x.number = r →
      step s = .next { s.answered 0x00 (s.readReg x) with inputs := rest }) ∧
    (decode cw ≠ .ok .nop → (∀ x : Reg, decode cw ≠ .ok (.rdreg x.number)) →
      step s = .next { s.answered 0xFF s.status with inputs := rest })

/-- The halted state is entered only by a fault entry, whose code is in STATUS and in the response, and left only by
RST; until then STATUS, FAULT_CH and FAULT_IDX keep the first fault (R187, R188). -/
def Obligations.HaltEnteredByFaultLeftByReset : Prop :=
  ∀ s t : State, step s = .next t →
    (s.halted = false → t.halted = true →
      ∃ f : Cause, t.status = 0#16 ++ f.code ++ 0x01#8 ∧ t.responses = s.responses ++ [f.code ++ 0#24 ++ 0#32]) ∧
    (s.halted = true → (∀ rest, s.inputs ≠ .rst :: rest) →
      t.halted = true ∧ t.status = s.status ∧ t.faultCh = s.faultCh ∧ t.faultIdx = s.faultIdx) ∧
    (∀ rest, s.inputs = .rst :: rest → t.halted = false)

/-- What each command may change: the delay line only by RB.PUSH, RB.POP, RB.RESET, VIB.PROCESS and VIB.RESET, the
table only by OSC.RESET and VIB.RESET, signal memory only by VIB.PROCESS, each argument register only by WRREG of its
number, STATUS and the fault information only on a block that was running, and the configuration and the host's inputs
by none (R30, R54, R37). -/
def Obligations.OnlyTheNamedCommandsChangeEachPiece : Prop :=
  ∀ (i : Instr) (s t : State), exec i s = .next t →
    (t.dl ≠ s.dl → (∃ v, i = .rbPush .dl v) ∨ i = .rbPop .dl ∨ i = .rbReset .dl ∨ i = .vibProcess ∨ i = .vibReset) ∧
    (t.lut ≠ s.lut → i = .oscReset ∨ i = .vibReset) ∧
    (t.sig ≠ s.sig → i = .vibProcess) ∧
    (t.sigBase ≠ s.sigBase → ∃ v, i = .wrreg 0x01#8 v) ∧
    (t.chCount ≠ s.chCount → ∃ v, i = .wrreg 0x02#8 v) ∧
    (t.dataLen ≠ s.dataLen → ∃ v, i = .wrreg 0x03#8 v) ∧
    (t.status ≠ s.status ∨ t.faultCh ≠ s.faultCh ∨ t.faultIdx ≠ s.faultIdx → s.halted = false ∧ t.halted = true) ∧
    t.cfg = s.cfg ∧ t.inputs = s.inputs

/-- No command reads `cp` or the response stream: with another `cp` and other earlier responses the command does the
same and emits the same response (R27, R125). -/
def Obligations.CommandsIgnoreCpAndEarlierResponses : Prop :=
  ∀ (i : Instr) (s t : State) (k : Nat) (r : List Word64), exec i s = .next t →
    ∃ rw : Word64, t.responses = s.responses ++ [rw] ∧
      exec i { s with cp := k, responses := r } = .next { t with cp := k + 1, responses := r ++ [rw] }

/-! System commands (44_system.md). -/

/-- R175: NOP answers OK, 0 and changes nothing, also when halted; its word is the zero word, and a word with its
opcode and any other bit set raises ILLEGAL_CMD. -/
def Obligations.NopAnswersOkAlways : Prop :=
  (∀ s : State, exec .nop s = .next (s.answered 0x00 0)) ∧
  decode 0 = .ok .nop ∧
  (∀ cw : Word64, opcOf cw = 0x00#8 → cw ≠ 0 → RaisesIllegalCmd cw)

/-- R176, R30 to R38: RDREG answers the word of each of the 17 registers and changes nothing, halted or not; a reserved
number raises BAD_REG on a running block and is answered HALTED on a halted one; a non-zero ZERO or OPND raises
ILLEGAL_CMD. -/
def Obligations.RdregAnswersEveryRegister : Prop :=
  (∀ s : State, ∀ e ∈ ([(0x00#8, s.status), (0x01#8, s.sigBase), (0x02#8, s.chCount), (0x03#8, s.dataLen),
      (0x04#8, s.faultCh), (0x05#8, s.faultIdx), (0x08#8, 0x41534532#32), (0x09#8, BitVec.ofNat 32 s.cfg.b),
      (0x0A#8, BitVec.ofNat 32 s.cfg.d), (0x0B#8, BitVec.ofNat 32 s.cfg.w), (0x0C#8, BitVec.ofNat 32 s.cfg.p),
      (0x0D#8, BitVec.ofInt 32 s.cfg.amp), (0x0E#8, BitVec.ofNat 32 s.cfg.sigWords),
      (0x10#8, BitVec.ofNat 32 s.dl.rd), (0x11#8, BitVec.ofNat 32 s.dl.wr), (0x12#8, BitVec.ofNat 32 s.lut.rd),
      (0x13#8, BitVec.ofNat 32 s.lut.wr)] : List (RegNum × Word)),
    exec (.rdreg e.1) s = .next (s.answered 0x00 e.2)) ∧
  (∀ (s : State) (r : RegNum), r ∉ [0x00#8, 0x01#8, 0x02#8, 0x03#8, 0x04#8, 0x05#8, 0x08#8, 0x09#8, 0x0A#8, 0x0B#8,
      0x0C#8, 0x0D#8, 0x0E#8, 0x10#8, 0x11#8, 0x12#8, 0x13#8] →
    (s.halted = false → exec (.rdreg r) s = .next (s.faulted 0x02 0 0)) ∧
    (s.halted = true → exec (.rdreg r) s = .next (s.answered 0xFF s.status))) ∧
  (∀ r : RegNum, decode (0x01#8 ++ r ++ 0#16 ++ 0#32) = .ok (.rdreg r)) ∧
  (∀ cw : Word64, opcOf cw = 0x01#8 → zeroOf cw ≠ 0 ∨ opndOf cw ≠ 0 → RaisesIllegalCmd cw)

/-- R177: WRREG stores the operand whole in SIG_BASE, CH_COUNT or DATA_LEN and answers OK; every other number raises
BAD_REG and stores nothing; a non-zero ZERO raises ILLEGAL_CMD. -/
def Obligations.WrregWritesOneArgumentRegister : Prop :=
  (∀ (s : State) (v : Word), s.halted = false →
    exec (.wrreg 0x01#8 v) s = .next { s.answered 0x00 0 with sigBase := v } ∧
    exec (.wrreg 0x02#8 v) s = .next { s.answered 0x00 0 with chCount := v } ∧
    exec (.wrreg 0x03#8 v) s = .next { s.answered 0x00 0 with dataLen := v } ∧
    ∀ r : RegNum, r ∉ [0x01#8, 0x02#8, 0x03#8] → exec (.wrreg r v) s = .next (s.faulted 0x02 0 0)) ∧
  (∀ (r : RegNum) (v : Word), decode (0x02#8 ++ r ++ 0#16 ++ v) = .ok (.wrreg r v)) ∧
  (∀ cw : Word64, opcOf cw = 0x02#8 → zeroOf cw ≠ 0 → RaisesIllegalCmd cw)

/-! Ring-buffer commands (41_ring_buffer.md). -/

/-- R117, R112: RB.PUSH stores the pattern at the write cursor, advances that cursor by one mod `B`, answers OK, and
changes nothing else; a non-zero SEL or ZERO raises ILLEGAL_CMD. -/
def Obligations.RbPushStoresAtWriteCursor : Prop :=
  (∀ (s : State) (v : Word), s.halted = false → s.dl.mem.length = s.cfg.b →
    exec (.rbPush .dl v) s = .next { s.answered 0x00 0 with
      dl := { mem := s.dl.mem.set s.dl.wr v, rd := s.dl.rd, wr := (s.dl.wr + 1) % s.cfg.b } }) ∧
  (∀ v : Word, decode (0x10#8 ++ 0x00#8 ++ 0#16 ++ v) = .ok (.rbPush .dl v)) ∧
  (∀ cw : Word64, opcOf cw = 0x10#8 → selOf cw ≠ 0 ∨ zeroOf cw ≠ 0 → RaisesIllegalCmd cw)

/-- R118, R113: RB.POP answers the slot at the read cursor, advances that cursor by one mod `B`, and changes nothing
else; a non-zero SEL, ZERO or OPND raises ILLEGAL_CMD. -/
def Obligations.RbPopAnswersSlotAtReadCursor : Prop :=
  (∀ s : State, s.halted = false → s.dl.Shaped s.cfg.b →
    ∃ v : Word, s.dl.mem[s.dl.rd]? = some v ∧
      exec (.rbPop .dl) s = .next { s.answered 0x00 v with
        dl := { mem := s.dl.mem, rd := (s.dl.rd + 1) % s.cfg.b, wr := s.dl.wr } }) ∧
  decode (0x11#8 ++ 0x00#8 ++ 0#16 ++ 0#32) = .ok (.rbPop .dl) ∧
  (∀ cw : Word64, opcOf cw = 0x11#8 → selOf cw ≠ 0 ∨ zeroOf cw ≠ 0 ∨ opndOf cw ≠ 0 → RaisesIllegalCmd cw)

/-- R119, R114: RB.GET answers slot `(rd + o) mod N` of the named unit, for every 32-bit unsigned offset, and changes
nothing; SEL above 1 or a non-zero ZERO raises ILLEGAL_CMD. -/
def Obligations.RbGetAnswersSlotAtOffset : Prop :=
  (∀ (s : State) (o : Word), s.halted = false → s.dl.Shaped s.cfg.b →
    ∃ v : Word, s.dl.mem[(s.dl.rd + o.toNat) % s.cfg.b]? = some v ∧
      exec (.rbGet .dl o) s = .next (s.answered 0x00 v)) ∧
  (∀ (s : State) (o : Word), s.halted = false → s.lut.Shaped s.cfg.p →
    ∃ v : Word, s.lut.mem[(s.lut.rd + o.toNat) % s.cfg.p]? = some v ∧
      exec (.rbGet .lut o) s = .next (s.answered 0x00 v)) ∧
  (∀ o : Word, decode (0x12#8 ++ 0x00#8 ++ 0#16 ++ o) = .ok (.rbGet .dl o) ∧
    decode (0x12#8 ++ 0x01#8 ++ 0#16 ++ o) = .ok (.rbGet .lut o)) ∧
  (∀ cw : Word64, opcOf cw = 0x12#8 → 2 ≤ (selOf cw).toNat ∨ zeroOf cw ≠ 0 → RaisesIllegalCmd cw)

/-- R120, R116: RB.GETF with a negative offset raises NEG_OFFSET with information 0, 0; otherwise it answers the
rounded interpolation of the slots at the offset's integer part and one further, each read wrapping on its own; either
way nothing else changes. SEL above 1 or a non-zero ZERO raises ILLEGAL_CMD. -/
def Obligations.RbGetfInterpolatesTwoSlots : Prop :=
  (∀ (s : State) (u : RbUnit) (f : Word), s.halted = false → f.toInt < 0 →
    exec (.rbGetf u f) s = .next (s.faulted 0x03 0 0)) ∧
  (∀ (s : State) (f : Word), s.halted = false → 0 ≤ f.toInt → s.dl.Shaped s.cfg.b →
    ∃ a b : Word, s.dl.mem[(s.dl.rd + f.toNat / 65536) % s.cfg.b]? = some a ∧
      s.dl.mem[(s.dl.rd + f.toNat / 65536 + 1) % s.cfg.b]? = some b ∧
      exec (.rbGetf .dl f) s = .next (s.answered 0x00 (BitVec.ofInt 32
        ((a.toInt * (65536 - (f.toNat % 65536 : Nat)) + b.toInt * (f.toNat % 65536 : Nat) + 32768) / 65536)))) ∧
  (∀ (s : State) (f : Word), s.halted = false → 0 ≤ f.toInt → s.lut.Shaped s.cfg.p →
    ∃ a b : Word, s.lut.mem[(s.lut.rd + f.toNat / 65536) % s.cfg.p]? = some a ∧
      s.lut.mem[(s.lut.rd + f.toNat / 65536 + 1) % s.cfg.p]? = some b ∧
      exec (.rbGetf .lut f) s = .next (s.answered 0x00 (BitVec.ofInt 32
        ((a.toInt * (65536 - (f.toNat % 65536 : Nat)) + b.toInt * (f.toNat % 65536 : Nat) + 32768) / 65536)))) ∧
  (∀ f : Word, decode (0x13#8 ++ 0x00#8 ++ 0#16 ++ f) = .ok (.rbGetf .dl f) ∧
    decode (0x13#8 ++ 0x01#8 ++ 0#16 ++ f) = .ok (.rbGetf .lut f)) ∧
  (∀ cw : Word64, opcOf cw = 0x13#8 → 2 ≤ (selOf cw).toNat ∨ zeroOf cw ≠ 0 → RaisesIllegalCmd cw)

/-- R121, R115: RB.RESET zeroes every slot of the delay line and both cursors, answers OK, and changes nothing else,
STATUS included; a halted block does not execute it; a non-zero SEL, ZERO or OPND raises ILLEGAL_CMD. -/
def Obligations.RbResetZeroesDelayLine : Prop :=
  (∀ s : State, s.halted = false → s.dl.mem.length = s.cfg.b →
    exec (.rbReset .dl) s = .next { s.answered 0x00 0 with
      dl := { mem := List.replicate s.cfg.b 0, rd := 0, wr := 0 } }) ∧
  (∀ s : State, s.halted = true → exec (.rbReset .dl) s = .next (s.answered 0xFF s.status)) ∧
  decode (0x14#8 ++ 0x00#8 ++ 0#16 ++ 0#32) = .ok (.rbReset .dl) ∧
  (∀ cw : Word64, opcOf cw = 0x14#8 → selOf cw ≠ 0 ∨ zeroOf cw ≠ 0 ∨ opndOf cw ≠ 0 → RaisesIllegalCmd cw)

/-- R122: after any interleaving of pushes and pops since a reset, the cursors are the counts mod the capacity. -/
def Obligations.RingCursorsCountOperations : Prop :=
  ∀ (u : RingBuf) (ops : List RingOp), 0 < u.mem.length →
    (u.zeroed.applyAll ops).wr = (pushedWords ops).length % u.mem.length ∧
    (u.zeroed.applyAll ops).rd = popCount ops % u.mem.length

/-- R123: after any interleaving of pushes and pops since a reset, each slot holds the last word pushed there or zero;
`get` at an offset whose word is pushed and not yet overwritten returns that word, `pop` the word at offset 0; and when
the buffer is logically full the next push overwrites the oldest unread word. -/
def Obligations.RingContentIsLastWordsPushed : Prop :=
  ∀ (u : RingBuf) (ops : List RingOp), 0 < u.mem.length →
    (∀ t j : Nat, t < (pushedWords ops).length → t % u.mem.length = j →
      (∀ t', t < t' → t' < (pushedWords ops).length → t' % u.mem.length ≠ j) →
      (u.zeroed.applyAll ops).mem[j]? = (pushedWords ops)[t]?) ∧
    (∀ j : Nat, j < u.mem.length → (∀ t, t < (pushedWords ops).length → t % u.mem.length ≠ j) →
      (u.zeroed.applyAll ops).mem[j]? = some 0) ∧
    (∀ o : Nat, popCount ops + o < (pushedWords ops).length →
      (pushedWords ops).length - (popCount ops + o) ≤ u.mem.length →
      some ((u.zeroed.applyAll ops).get o) = (pushedWords ops)[popCount ops + o]?) ∧
    (popCount ops < (pushedWords ops).length → (pushedWords ops).length - popCount ops ≤ u.mem.length →
      some (u.zeroed.applyAll ops).popped = (pushedWords ops)[popCount ops]?) ∧
    (∀ v : Word, (pushedWords ops).length = popCount ops + u.mem.length →
      (u.zeroed.applyAll ops).mem[(u.zeroed.applyAll ops).wr]? = (pushedWords ops)[popCount ops]? ∧
      ((u.zeroed.applyAll ops).push v).mem[(u.zeroed.applyAll ops).wr]? = some v)

/-! Oscillator (42_oscillator.md). -/

/-- R136 with R135 and R24: in a state that meets the invariant, OSC.SAMPLE answers `word32(fxmul(SINROM[k mod P],
AMP))` for every 32-bit index and changes nothing; index 0 of an elaborated table answers zero; a non-zero SEL or ZERO
raises ILLEGAL_CMD. -/
def Obligations.OscSampleAnswersTableEntry : Prop :=
  (∀ (s : State) (k : Word), s.Inv → s.halted = false →
    exec (.oscSample k) s = .next (s.answered 0x00 (BitVec.ofInt 32
      ((s.cfg.sinRom.getD (k.toNat % s.cfg.p) 0 * s.cfg.amp + 32768) / 65536)))) ∧
  (∀ s : State, s.Inv → s.cfg.OK → s.halted = false → exec (.oscSample 0) s = .next (s.answered 0x00 0)) ∧
  (∀ (s : State) (k : Word), s.Inv → s.cfg.amp = 0 → s.halted = false →
    exec (.oscSample k) s = .next (s.answered 0x00 0)) ∧
  (∀ k : Word, decode (0x20#8 ++ 0x00#8 ++ 0#16 ++ k) = .ok (.oscSample k)) ∧
  (∀ cw : Word64, opcOf cw = 0x20#8 → selOf cw ≠ 0 ∨ zeroOf cw ≠ 0 → RaisesIllegalCmd cw)

/-- R137, R133: OSC.RESET fills the table with `word32(fxmul(SINROM[i], AMP))` for `i` in `[0, P)`, sets both its
cursors to 0, answers OK, and changes nothing else, so nothing at all where the table invariant holds; a non-zero SEL,
ZERO or OPND raises ILLEGAL_CMD. (In a configuration that is not well-formed the ROM may be shorter than `P`; the entries
past its end are then the model's choice, log entry 18.) -/
def Obligations.OscResetFillsTable : Prop :=
  (∀ s : State, s.halted = false →
    exec .oscReset s = .next { s.answered 0x00 0 with
      lut := { mem := (List.range s.cfg.p).map (fun i => BitVec.ofInt 32 ((s.cfg.sinRom.getD i 0 * s.cfg.amp + 32768) / 65536))
               rd := 0, wr := 0 } }) ∧
  (∀ s : State, s.Inv → s.halted = false → exec .oscReset s = .next (s.answered 0x00 0)) ∧
  decode (0x21#8 ++ 0x00#8 ++ 0#16 ++ 0#32) = .ok .oscReset ∧
  (∀ cw : Word64, opcOf cw = 0x21#8 → selOf cw ≠ 0 ∨ zeroOf cw ≠ 0 ∨ opndOf cw ≠ 0 → RaisesIllegalCmd cw)

/-- By the table invariant OSC.RESET equals NOP and VIB.RESET equals RB.RESET on every running state that meets the
invariant (R211, R24). -/
def Obligations.SoftResetsOfTableAreInvisible : Prop :=
  ∀ s : State, s.Inv → s.halted = false →
    exec .oscReset s = exec .nop s ∧ exec .vibReset s = exec (.rbReset .dl) s

/-- R139: every sample of a filled table is bounded by the amplitude; amplitude 0 gives zeros, 65536 gives the sine
table, -65536 its negation. -/
def Obligations.SamplesAreBoundedByAmplitude : Prop :=
  ∀ (c : Cfg) (k : Nat), c.ok = true →
    |sext32 (sampleAt c (oscFill c) k)| ≤ |c.amp| ∧
    (c.amp = 0 → sampleAt c (oscFill c) k = 0) ∧
    (c.amp = 65536 → sext32 (sampleAt c (oscFill c) k) = c.sinRom.getD (k % c.p) 0) ∧
    (c.amp = -65536 → sext32 (sampleAt c (oscFill c) k) = -c.sinRom.getD (k % c.p) 0)

/-! Arithmetic (40_fixed_point.md). -/

/-- R93: the value of `fxmul`, its five laws, and that a table entry fits a 32-bit word without wrapping. -/
def Obligations.FxmulRoundsToNearest : Prop :=
  (∀ a b : Int, fxmul a b = ⌊((a * b + 32768 : Int) : ℝ) / 65536⌋) ∧
  (∀ a b : Int, fxmul a 0 = 0 ∧ fxmul 0 b = 0 ∧ fxmul a 65536 = a ∧ fxmul 65536 b = b ∧ fxmul a (-65536) = -a) ∧
  (∀ a b : Int, -65536 ≤ a → a ≤ 65536 → -(2 ^ 31 - 1) ≤ b → b ≤ 2 ^ 31 - 1 →
    |fxmul a b| ≤ 2 ^ 31 - 1 ∧ sext32 (word32 (fxmul a b)) = fxmul a b)

/-- R95: the laws (a) to (h) of `lerp`, for all integers and all fractions in `[0, 65535]`. -/
def Obligations.LerpObeysItsLaws : Prop :=
  (∀ a b : Int, lerp a b 0 = a) ∧
  (∀ a fr : Int, 0 ≤ fr → fr ≤ 65535 → lerp a a fr = a) ∧
  (∀ a b fr : Int, 0 ≤ fr → fr ≤ 65535 → min a b ≤ lerp a b fr ∧ lerp a b fr ≤ max a b) ∧
  (∀ (a b : Word) (fr : Int), 0 ≤ fr → fr ≤ 65535 →
    sext32 (word32 (lerp (sext32 a) (sext32 b) fr)) = lerp (sext32 a) (sext32 b) fr) ∧
  (∀ fr : Int, 0 ≤ fr → fr ≤ 65535 → lerp 0 0 fr = 0) ∧
  (∀ a b fr fr' : Int, a ≤ b → 0 ≤ fr → fr ≤ fr' → fr' ≤ 65535 → lerp a b fr ≤ lerp a b fr') ∧
  (∀ a b fr : Int, 0 ≤ fr → fr ≤ 65535 →
    |((lerp a b fr : Int) : ℝ) - ((a : ℝ) + ((b : ℝ) - (a : ℝ)) * (fr : ℝ) / 65536)| ≤ 1 / 2) ∧
  (∀ a b : Int, lerp a b 32768 = (a + b + 1) / 2) ∧
  (∀ a b fr : Int, lerp a b fr = a + ((b - a) * fr + 32768) / 65536)

/-! VIB.PROCESS (43_vibrato.md). Every hypothesis is on the state alone: `CanProcess` is what R148 checks, and `fd` of
R152 is not negative at any index. -/

/-- The checks of VIB.PROCESS in their order: no channels or no samples answers OK and changes nothing, whatever the
other registers hold; then SHORT_SIGNAL; then BAD_RANGE on exact integers; each fault changes nothing but the fault
entry (R148, R154, R190). -/
def Obligations.VibProcessChecksInOrder : Prop :=
  ∀ s : State, s.halted = false →
    (s.chCount = 0 ∨ s.dataLen = 0 → exec .vibProcess s = .next (s.answered 0x00 0)) ∧
    (s.chCount ≠ 0 → s.dataLen ≠ 0 → s.dataLen.toNat < s.cfg.b - 1 →
      exec .vibProcess s = .next (s.faulted 0x04 0 0)) ∧
    (s.chCount ≠ 0 → s.dataLen ≠ 0 → s.cfg.b - 1 ≤ s.dataLen.toNat →
      s.cfg.sigWords < s.sigBase.toNat + s.chCount.toNat * s.dataLen.toNat →
      exec .vibProcess s = .next (s.faulted 0x05 0 0))

/-- R164: a VIB.PROCESS that passes the checks and meets no negative offset answers OK; only the delay line and signal
memory change; the cursors end where R164 says, the lag has grown by `C`, and the slots are all zero when `L >= B`, and
all zero but the slot at the write cursor, which holds `x[C-1][0]`, when `L = B - 1`. -/
def Obligations.VibProcessEndState : Prop :=
  ∀ s : State, s.Inv → s.CanProcess → (∀ n, n < s.dataLen.toNat → 0 ≤ s.delayAt n) →
    ∃ t : State, exec .vibProcess s = .next t ∧ t = { s.answered 0x00 0 with dl := t.dl, sig := t.sig } ∧
      t.dl.mem.length = s.cfg.b ∧
      t.dl.rd = (s.dl.rd + s.chCount.toNat * s.dataLen.toNat) % s.cfg.b ∧
      t.dl.wr = (s.dl.wr + s.chCount.toNat * (s.cfg.b - 1 + s.dataLen.toNat)) % s.cfg.b ∧
      t.dl.wr = (s.dl.wr + s.chCount.toNat * (s.dataLen.toNat - 1)) % s.cfg.b ∧
      t.lag = (s.lag + s.chCount.toNat) % s.cfg.b ∧
      (s.cfg.b ≤ s.dataLen.toNat → t.dl.mem = List.replicate s.cfg.b 0) ∧
      (s.dataLen.toNat = s.cfg.b - 1 → ∀ i, i < s.cfg.b →
        t.dl.mem[i]? = some (if i = t.dl.wr then s.word (s.addrOf (s.chCount.toNat - 1) 0) else 0))

/-- R160: with no negative offset, every word VIB.PROCESS writes is the interpolation between what its two offsets reach,
for every channel with its lag, whether the reads are valid or not (beyond validity the words of R158, R159(b), R163(a)
and R217: the sample last pushed to the slot, or the slot as the channel found it); where both are valid it is the closed
form, and the tail, the seam and the body are the three forms R160 gives. -/
def Obligations.VibProcessClosedForm : Prop :=
  ∀ s : State, s.Inv → s.CanProcess → (∀ n, n < s.dataLen.toNat → 0 ≤ s.delayAt n) →
    ∃ t : State, exec .vibProcess s = .next t ∧
      ∀ c n lag i k : Nat, c < s.chCount.toNat → n < s.dataLen.toNat → lag = (s.lag + c) % s.cfg.b →
        i = (s.delayAt n / 65536).toNat → k = s.dataLen.toNat - 1 - n →
        t.word (s.addrOf c n) =
          word32 (lerp (s.reached c lag n i) (s.reached c lag n (i + 1)) (s.delayAt n % 65536)) ∧
        (lag + i + 1 ≤ s.cfg.b - 2 →
          t.word (s.addrOf c n) = word32 (lerp (s.tap c lag n i) (s.tap c lag n (i + 1)) (s.delayAt n % 65536)) ∧
          (lag + k + i + 1 ≤ s.cfg.b - 2 →
            t.word (s.addrOf c n) = word32 (lerp (sext32 (s.word (s.addrOf c (n - i - lag))))
              (sext32 (s.word (s.addrOf c (n - i - lag - 1)))) (s.delayAt n % 65536))) ∧
          (lag + k + i = s.cfg.b - 2 →
            t.word (s.addrOf c n) = word32 (lerp (s.xz c (s.dataLen.toNat - s.cfg.b + 1))
              (s.xz c (s.dataLen.toNat - s.cfg.b - 1)) (s.delayAt n % 65536))) ∧
          (s.cfg.b - 1 ≤ lag + k + i →
            t.word (s.addrOf c n) = word32 (lerp (s.xz c ((n : Int) - i - lag - 1))
              (s.xz c ((n : Int) - i - lag - 2)) (s.delayAt n % 65536))))

/-- R161: with amplitude 0 the command is a pure delay, word for word: `D + lag` samples on the tail, `D + lag + 1` on
the body, silence below index 0. -/
def Obligations.ZeroAmplitudeIsPureDelay : Prop :=
  ∀ s : State, s.Inv → s.CanProcess → s.cfg.amp = 0 →
    ∃ t : State, exec .vibProcess s = .next t ∧
      ∀ c n lag : Nat, c < s.chCount.toNat → n < s.dataLen.toNat → lag = (s.lag + c) % s.cfg.b →
        lag + s.cfg.d + 1 ≤ s.cfg.b - 2 →
        (s.dataLen.toNat + s.cfg.d + lag + 1 ≤ n + s.cfg.b →
          t.word (s.addrOf c n) = s.word (s.addrOf c (n - s.cfg.d - lag))) ∧
        (n + s.cfg.b ≤ s.dataLen.toNat + s.cfg.d + lag → s.cfg.d + lag + 1 ≤ n →
          t.word (s.addrOf c n) = s.word (s.addrOf c (n - s.cfg.d - lag - 1))) ∧
        (n + s.cfg.b ≤ s.dataLen.toNat + s.cfg.d + lag → n < s.cfg.d + lag + 1 → t.word (s.addrOf c n) = 0)

/-- R162: a constant channel comes out constant wherever both taps lie at signal indices, on the tail always, whatever
the modulation; a zero channel comes out zero wherever the reads are valid. -/
def Obligations.ConstantInputGivesConstantOutput : Prop :=
  ∀ s : State, s.Inv → s.CanProcess → (∀ n, n < s.dataLen.toNat → 0 ≤ s.delayAt n) →
    ∃ t : State, exec .vibProcess s = .next t ∧
      ∀ c n lag i : Nat, c < s.chCount.toNat → n < s.dataLen.toNat → lag = (s.lag + c) % s.cfg.b →
        i = (s.delayAt n / 65536).toNat → lag + i + 1 ≤ s.cfg.b - 2 →
        (∀ v : Word, (∀ n', n' < s.dataLen.toNat → s.word (s.addrOf c n') = v) →
          (i + lag + 2 ≤ n ∨ lag + (s.dataLen.toNat - 1 - n) + i + 1 ≤ s.cfg.b - 2) →
          t.word (s.addrOf c n) = v) ∧
        ((∀ n', n' < s.dataLen.toNat → s.word (s.addrOf c n') = 0) → t.word (s.addrOf c n) = 0)

/-- R165: NEG_OFFSET inside VIB.PROCESS is raised at the highest index whose offset is negative, in channel 0 (the
offsets do not depend on the channel, so no later channel can be the first). STATUS is 0x00000301, FAULT_CH and
FAULT_IDX name the step, every index above it holds its output, every other word is original, and the delay line has had
the priming and the pops and pushes of the steps above: both cursors and, at every offset, the slot (`State.reached`
gives what an offset reaches, valid or not). -/
def Obligations.NegOffsetKeepsWhatWasDone : Prop :=
  ∀ (s : State) (n : Nat), s.Inv → s.CanProcess → n < s.dataLen.toNat → s.delayAt n < 0 →
    (∀ k, n < k → k < s.dataLen.toNat → 0 ≤ s.delayAt k) →
    ∃ t : State, exec .vibProcess s = .next t ∧ t = { s.faulted 0x03 0 n with dl := t.dl, sig := t.sig } ∧
      t.status = 0x00000301#32 ∧ t.halted = true ∧
      (∀ a, (∀ k, n < k → k < s.dataLen.toNat → a ≠ s.addrOf 0 k) → t.word a = s.word a) ∧
      (∀ k i : Nat, n < k → k < s.dataLen.toNat → i = (s.delayAt k / 65536).toNat →
        t.word (s.addrOf 0 k) =
          word32 (lerp (s.reached 0 s.lag k i) (s.reached 0 s.lag k (i + 1)) (s.delayAt k % 65536))) ∧
      t.dl.mem.length = s.cfg.b ∧
      t.dl.rd = (s.dl.rd + (s.dataLen.toNat - 1 - n)) % s.cfg.b ∧
      t.dl.wr = (s.dl.wr + (s.cfg.b - 1) + (s.dataLen.toNat - 1 - n)) % s.cfg.b ∧
      (∀ o : Nat, sext32 (t.dl.get o) = s.reached 0 s.lag n o)

/-- With an amplitude in `[-1, 1]` and `D >= W` no offset is negative, none exceeds `D + W`, and both taps are valid
while the lag is at most 7; with width 0 the offset is `D` (R159). -/
def Obligations.SmallAmplitudeKeepsReadsValid : Prop :=
  ∀ (s : State) (n : Nat), s.cfg.ok = true →
    (|s.cfg.amp| ≤ 65536 → s.cfg.w ≤ s.cfg.d →
      0 ≤ s.delayAt n ∧ s.delayAt n ≤ (s.cfg.d + s.cfg.w) * 65536 ∧
      ∀ lag : Nat, lag ≤ 7 → lag + (s.delayAt n / 65536).toNat + 1 ≤ s.cfg.b - 2) ∧
    (s.cfg.w = 0 → s.delayAt n = s.cfg.d * 65536)

/-- VIB.PROCESS changes no word outside `[SIG_BASE, SIG_BASE + C * L)`, whatever its outcome (R58). -/
def Obligations.VibProcessTouchesOnlyItsRegion : Prop :=
  ∀ (s t : State) (a : Nat), s.Inv → exec .vibProcess s = .next t →
    (a < s.sigBase.toNat ∨ s.sigBase.toNat + s.chCount.toNat * s.dataLen.toNat ≤ a) → t.word a = s.word a

/-- A successful run makes `C * (B - 1 + max(0, L - B))` reads and `C * L` writes of signal memory, all inside the
region, each word of the region written exactly once, and no word read after it was written (R156, R222, R58). -/
def Obligations.VibProcessAccessesAreCounted : Prop :=
  ∀ s : State, s.Inv → s.CanProcess → (∀ n, n < s.dataLen.toNat → 0 ≤ s.delayAt n) →
    ∃ w : Work, s.sequence = .run w ∧
      w.log.countP Access.isRead = s.chCount.toNat * (s.cfg.b - 1 + (s.dataLen.toNat - s.cfg.b)) ∧
      w.log.countP (fun x => !x.isRead) = s.chCount.toNat * s.dataLen.toNat ∧
      (∀ x ∈ w.log, s.sigBase.toNat ≤ x.addr ∧
        x.addr < s.sigBase.toNat + s.chCount.toNat * s.dataLen.toNat) ∧
      (∀ c n, c < s.chCount.toNat → n < s.dataLen.toNat →
        w.log.countP (fun x => !x.isRead && x.addr == s.addrOf c n) = 1) ∧
      (∀ (before after : List Access) (a : Nat) (v : Word), w.log.reverse = before ++ .write a v :: after →
        ∀ x ∈ after, x.isRead = true → x.addr ≠ a)

/-- R66: different channels have different words; the word a main-pass step reads lies below the word it writes; and
every read of a run, whatever its outcome, returns the original sample. -/
def Obligations.EveryReadReturnsAnOriginalSample : Prop :=
  (∀ (s : State) (c1 c2 n1 n2 : Nat), c1 ≠ c2 → n1 < s.dataLen.toNat → n2 < s.dataLen.toNat →
    s.addrOf c1 n1 ≠ s.addrOf c2 n2) ∧
  (∀ (s : State) (c n : Nat), s.cfg.b ≤ n → s.addrOf c (n - s.cfg.b) < s.addrOf c n) ∧
  (∀ (s : State) (w : Work), s.Inv → s.CanProcess →
    (s.sequence = .run w ∨ ∃ c n, s.sequence = .neg w c n) →
    ∀ (a : Nat) (v : Word), .read a v ∈ w.log → v = s.word a)

/-- R157: the end state of VIB.PROCESS depends on the configuration, the argument registers, the delay line and the
signal alone; after VIB.RESET the delay line does not enter either. -/
def Obligations.VibProcessIsDeterminedByItsInputs : Prop :=
  (∀ s s' : State, s.Inv → s'.Inv → s.halted = false → s'.halted = false → s.cfg = s'.cfg → s.sigBase = s'.sigBase →
    s.chCount = s'.chCount → s.dataLen = s'.dataLen → s.dl = s'.dl → s.sig = s'.sig →
    ∃ t t' : State, exec .vibProcess s = .next t ∧ exec .vibProcess s' = .next t' ∧ t.dl = t'.dl ∧ t.sig = t'.sig ∧
      t.responses.getLast? = t'.responses.getLast?) ∧
  (∀ s s' : State, s.Inv → s'.Inv → s.halted = false → s'.halted = false → s.cfg = s'.cfg → s.sigBase = s'.sigBase →
    s.chCount = s'.chCount → s.dataLen = s'.dataLen → s.sig = s'.sig →
    ∃ u u' t t' : State, exec .vibReset s = .next u ∧ exec .vibReset s' = .next u' ∧ exec .vibProcess u = .next t ∧
      exec .vibProcess u' = .next t' ∧ t.dl = t'.dl ∧ t.sig = t'.sig ∧
      t.responses.getLast? = t'.responses.getLast?)

/-- R155: VIB.RESET leaves the delay line and the table exactly as hardware reset does, answers OK, and changes nothing
else, the argument registers and the fault information included; a halted block does not execute it; a non-zero SEL,
ZERO or OPND raises ILLEGAL_CMD. (In a configuration that is not well-formed the ROM may be shorter than `P`; the entries
past its end are then the model's choice, log entry 18.) -/
def Obligations.VibResetRestoresBufferAndTable : Prop :=
  (∀ s : State, s.halted = false → s.dl.mem.length = s.cfg.b →
    exec .vibReset s = .next { s.answered 0x00 0 with
      dl := { mem := List.replicate s.cfg.b 0, rd := 0, wr := 0 }
      lut := { mem := (List.range s.cfg.p).map (fun i => BitVec.ofInt 32 ((s.cfg.sinRom.getD i 0 * s.cfg.amp + 32768) / 65536))
               rd := 0, wr := 0 } }) ∧
  (∀ s : State, s.halted = true → exec .vibReset s = .next (s.answered 0xFF s.status)) ∧
  decode (0x31#8 ++ 0x00#8 ++ 0#16 ++ 0#32) = .ok .vibReset ∧
  (∀ cw : Word64, opcOf cw = 0x31#8 → selOf cw ≠ 0 ∨ zeroOf cw ≠ 0 ∨ opndOf cw ≠ 0 → RaisesIllegalCmd cw)

/-! Signal memory and the host (20_memory.md). -/

/-- R53: a `MemWrite` at a word that exists stores the whole word there and has no other effect, and (R52) a `MemRead`
of it returns that word; it keeps the canonical form; a word that does not exist is neither read nor written (R50). -/
def Obligations.MemWriteStoresOneWord : Prop :=
  ∀ (c : Cfg) (m : SigMem) (a : Nat) (v : Word), m.wf = true →
    (a < c.sigWords →
      ∃ m' : SigMem, memWrite c m a v = some m' ∧ memRead c m' a = some v ∧
        (∀ b, b ≠ a → memRead c m' b = memRead c m b) ∧ m'.wf = true) ∧
    (c.sigWords ≤ a → memWrite c m a v = none ∧ memRead c m a = none)

/-- A host write of a word that exists, between commands, changes that word alone and none of the block's state; the
model stops by name on a word that does not exist, its own choice (R67, R50; log entry 9). -/
def Obligations.HostWriteChangesOneWord : Prop :=
  ∀ (s : State) (a : Nat) (v : Word) (rest : List HostInput), s.sig.wf = true → s.inputs = .memWrite a v :: rest →
    (a < s.cfg.sigWords → ∃ t : State, step s = .next t ∧ t = { s with inputs := rest, sig := t.sig } ∧
      t.word a = v ∧ ∀ b, b ≠ a → t.word b = s.word b) ∧
    (s.cfg.sigWords ≤ a → step s = .fault (.absentWord a))

/-- With the host writing only words that exist, no step of any state stops: it always answers a next state. -/
def Obligations.NoStepStopsWhileHostKeepsToMemory : Prop :=
  ∀ s : State, s.HostOk → ∃ t : State, step s = .next t

/-! Reset and the invariants (10_state.md, 70_reset_and_hazards.md). -/

/-- RST on any state, halted or not, gives every piece of block state the value of R39 and R210, and does not touch
signal memory. That the inputs queued after RST and the responses emitted before it are kept is no rule of the spec: it
is the model's DESIGN CHOICE, log entry 13 (unsafe for words queued before RST). So are the table's entries past the end
of a ROM shorter than `P`, in a configuration that is not well-formed (log entry 18). -/
def Obligations.HardwareResetRestoresBlockState : Prop :=
  ∀ (s : State) (rest : List HostInput), s.inputs = .rst :: rest →
    step s = .next { cfg := s.cfg
                     dl := { mem := List.replicate s.cfg.b 0, rd := 0, wr := 0 }
                     lut := { mem := (List.range s.cfg.p).map (fun i =>
                                BitVec.ofInt 32 ((s.cfg.sinRom.getD i 0 * s.cfg.amp + 32768) / 65536))
                              rd := 0, wr := 0 }
                     sigBase := 0, chCount := 0, dataLen := 0, status := 0, faultCh := 0, faultIdx := 0, cp := 0
                     sig := s.sig, inputs := rest, responses := s.responses }

/-- The state after hardware reset of every well-formed configuration over every canonical signal memory meets the
invariant, `State.reset` among them (R39; `State.reset`'s configuration and empty memory are the model's choices, log
entries 2 and 4). -/
def Obligations.ResetStatesMeetTheInvariant : Prop :=
  (∀ (c : Cfg) (m : SigMem), c.ok = true → m.wf = true → m.inRange c.sigWords = true → (State.resetOf c m).Inv) ∧
  State.reset.Inv

/-- Every step keeps the invariant, from every state that meets it (R11, R23, R24, R32, R36, R50). -/
def Obligations.StepKeepsTheInvariant : Prop :=
  ∀ s t : State, s.Inv → step s = .next t → t.Inv

/-- R23 and R24: in every reachable state both cursors of both buffers are in range, neither buffer's capacity has
changed, and the table is the fill. -/
def Obligations.ReachableCursorsAndTable : Prop :=
  ∀ s : State, Reachable s →
    s.dl.mem.length = s.cfg.b ∧ s.dl.rd < s.cfg.b ∧ s.dl.wr < s.cfg.b ∧
    s.lut.mem.length = s.cfg.p ∧ s.lut.rd < s.cfg.p ∧ s.lut.wr < s.cfg.p ∧
    s.lut.rd = 0 ∧ s.lut.wr = 0 ∧
    ∀ i, i < s.cfg.p →
      s.lut.mem[i]? = some (BitVec.ofInt 32 ((s.cfg.sinRom.getD i 0 * s.cfg.amp + 32768) / 65536))

/-- In every reachable state STATUS is zero or the halt word of one of the five causes, and the fault information is
zero unless the cause is NEG_OFFSET (R32, R36). -/
def Obligations.ReachableStatusIsLegal : Prop :=
  ∀ s : State, Reachable s →
    s.status ∈ [0x00000000#32, 0x00000101#32, 0x00000201#32, 0x00000301#32, 0x00000401#32, 0x00000501#32] ∧
    (s.status ≠ 0x00000301#32 → s.faultCh = 0 ∧ s.faultIdx = 0)

/-! Elaboration (00_scope.md, 40_fixed_point.md, 42_oscillator.md, 43_vibrato.md). -/

/-- R101: `round_half_away(x)` is the sign of `x` times `floor(|x| + 1/2)`: a nearest integer, and of two equally near
the one farther from zero; for `x >= 0` it is `floor(x + 1/2)`. -/
def Obligations.RoundHalfAwayIsNearest : Prop :=
  ∀ x : ℝ, roundHalfAway x = SignType.sign x * ⌊|x| + 1 / 2⌋ ∧ |(roundHalfAway x : ℝ) - x| ≤ 1 / 2 ∧
    (|(roundHalfAway x : ℝ) - x| = 1 / 2 → |x| < |(roundHalfAway x : ℝ)|) ∧
    (0 ≤ x → roundHalfAway x = ⌊x + 1 / 2⌋)

/-- `quant` is the one integer with `-1/2 < q - 65536 x <= 1/2`, so the constraint form of R102 fixes each table entry
uniquely, a tie included (R102). -/
def Obligations.QuantIsFixedByItsConstraint : Prop :=
  ∀ (x : ℝ) (q : Int), q = quant x ↔ -(1 / 2) < (q : ℝ) - 65536 * x ∧ (q : ℝ) - 65536 * x ≤ 1 / 2

/-- The parameters fix the configuration: two configurations elaborated from the same parameters are equal, and every
entry of an elaborated unit table lies in `[-65536, 65536]` (R9, R130, R131, R145). -/
def Obligations.ParametersDetermineTheConfiguration : Prop :=
  (∀ (q : Params) (c c' : Cfg), c.ElaboratedFrom q → c'.ElaboratedFrom q → c = c') ∧
  (∀ (q : Params) (c : Cfg), c.ElaboratedFrom q →
    c.w = c.d ∧ c.b = 2 * c.d + 10 ∧ c.sinRom.length = c.p ∧ ∀ v ∈ c.sinRom, -65536 ≤ v ∧ v ≤ 65536)

/-- The configuration CFG_A of 95_test_vectors.md is well-formed and is the one its parameters elaborate to: `W = D =
2`, `B = 14`, `P = 10`, the table of ten entries, `AMP = 65536` (R130 to R132, R145, R146). -/
def Obligations.CfgAIsElaboratedFromItsParameters : Prop :=
  Config.cfgA.ok = true ∧ Config.cfgA.b = 14 ∧
  Config.cfgA.ElaboratedFrom { fs := 8, fMod := 1, widthS := 1 / 4, ampReal := 1, sigWords := 64 }

/-- R83: the four pseudo-instructions stand for the commands of the table. -/
def Obligations.PseudoInstructionsExpand : Prop :=
  (∀ u : RbUnit, assembleOps .rbPeek [.unit u] = some [.rbGet u 0]) ∧
  (∀ base ch len : Nat, base < 2 ^ 32 → ch < 2 ^ 32 → len < 2 ^ 32 →
    assembleOps .setSig [.num base, .num ch, .num len] =
      some [.wrreg 0x01#8 (BitVec.ofNat 32 base), .wrreg 0x02#8 (BitVec.ofNat 32 ch),
        .wrreg 0x03#8 (BitVec.ofNat 32 len)]) ∧
  assembleOps .statusP [] = some [.rdreg 0x00#8] ∧
  (∀ base ch len : Nat, base < 2 ^ 32 → ch < 2 ^ 32 → len < 2 ^ 32 →
    assembleOps .vibRun [.num base, .num ch, .num len] =
      some [.vibReset, .wrreg 0x01#8 (BitVec.ofNat 32 base), .wrreg 0x02#8 (BitVec.ofNat 32 ch),
        .wrreg 0x03#8 (BitVec.ofNat 32 len), .vibProcess])
end

