-- ==== Sys2Proof/Laws/Arith.lean ====
section
/-! SUPPORT. Small lemmas about the Q16.16 arithmetic (40_fixed_point.md). -/

namespace Sys2Proof.Machine

theorem asr_sixteen (a : Int) : asr a 16 = a / 65536 := rfl

theorem shl_sixteen (a : Int) : shl a 16 = a * 65536 := rfl

theorem fxmul_eq (a b : Int) : fxmul a b = (a * b + 32768) / 65536 := rfl

theorem lerp_eq (a b fr : Int) : lerp a b fr = (a * (65536 - fr) + b * fr + 32768) / 65536 := rfl

theorem offsetInt_eq (fo : Int) : offsetInt fo = fo / 65536 := rfl

theorem offsetFrac_eq (fo : Int) : offsetFrac fo = fo % 65536 := rfl

theorem sext32_bounds (w : Word) : -2 ^ 31 ≤ sext32 w ∧ sext32 w < 2 ^ 31 := by
  have h1 := BitVec.le_toInt w
  have h2 := BitVec.toInt_lt (x := w)
  simp only [sext32]
  omega

/-- An integer in the range of a word survives the way into a word and back (R15). -/
theorem sext32_word32 (v : Int) (h1 : -2 ^ 31 ≤ v) (h2 : v < 2 ^ 31) : sext32 (word32 v) = v := by
  simp only [sext32, word32, BitVec.toInt_ofInt]
  rw [Int.bmod_eq_of_le] <;> omega

theorem word32_sext32 (w : Word) : word32 (sext32 w) = w := by
  simp [word32, sext32]

@[simp] theorem sext32_zero : sext32 0 = 0 := by decide

theorem zext32_lt (w : Word) : zext32 w < 2 ^ 32 := w.isLt

/-- `lerp` in the one-multiplier form (R95 (h)). -/
theorem lerp_one_multiplier (a b fr : Int) : lerp a b fr = a + ((b - a) * fr + 32768) / 65536 := by
  rw [lerp_eq]
  have : a * (65536 - fr) + b * fr + 32768 = ((b - a) * fr + 32768) + a * 65536 := by ring
  rw [this, Int.add_mul_ediv_right _ _ (by norm_num)]
  ring

/-- The correction `lerp` adds to its first input, for inputs in order. -/
theorem lerp_step_bounds (d fr : Int) (hd : 0 ≤ d) (h0 : 0 ≤ fr) (h1 : fr ≤ 65535) :
    0 ≤ (d * fr + 32768) / 65536 ∧ (d * fr + 32768) / 65536 ≤ d := by
  have hp : 0 ≤ d * fr := mul_nonneg hd h0
  have hq : d * fr ≤ d * 65535 := mul_le_mul_of_nonneg_left h1 hd
  constructor
  · omega
  · omega

theorem lerp_step_bounds_neg (d fr : Int) (hd : d ≤ 0) (h0 : 0 ≤ fr) (h1 : fr ≤ 65535) :
    d ≤ (d * fr + 32768) / 65536 ∧ (d * fr + 32768) / 65536 ≤ 0 := by
  have hp : d * fr ≤ 0 := mul_nonpos_of_nonpos_of_nonneg hd h0
  have hq : d * 65535 ≤ d * fr := mul_le_mul_of_nonpos_left h1 hd
  constructor
  · omega
  · omega

/-- A word in the range of a word: what `lerp` of two words is (R94, R95 (c)). -/
theorem lerp_range (a b fr : Int) (ha : -2 ^ 31 ≤ a ∧ a < 2 ^ 31) (hb : -2 ^ 31 ≤ b ∧ b < 2 ^ 31)
    (h0 : 0 ≤ fr) (h1 : fr ≤ 65535) : -2 ^ 31 ≤ lerp a b fr ∧ lerp a b fr < 2 ^ 31 := by
  rw [lerp_one_multiplier]
  rcases le_total 0 (b - a) with h | h
  · have := lerp_step_bounds (b - a) fr h h0 h1
    omega
  · have := lerp_step_bounds_neg (b - a) fr h h0 h1
    omega

end Sys2Proof.Machine
end

