-- ==== Sys2Proof/Laws/State.lean ====
section
/-! SUPPORT. One lemma per field per update of State, true by rfl, so that no later proof unfolds a record update. -/

namespace Sys2Proof.Machine

@[simp] theorem State.withDl_cfg (s : State) (u : RingBuf) : (s.withDl u).cfg = s.cfg := rfl
@[simp] theorem State.withDl_dl (s : State) (u : RingBuf) : (s.withDl u).dl = u := rfl
@[simp] theorem State.withDl_lut (s : State) (u : RingBuf) : (s.withDl u).lut = s.lut := rfl
@[simp] theorem State.withDl_sigBase (s : State) (u : RingBuf) : (s.withDl u).sigBase = s.sigBase := rfl
@[simp] theorem State.withDl_chCount (s : State) (u : RingBuf) : (s.withDl u).chCount = s.chCount := rfl
@[simp] theorem State.withDl_dataLen (s : State) (u : RingBuf) : (s.withDl u).dataLen = s.dataLen := rfl
@[simp] theorem State.withDl_status (s : State) (u : RingBuf) : (s.withDl u).status = s.status := rfl
@[simp] theorem State.withDl_faultCh (s : State) (u : RingBuf) : (s.withDl u).faultCh = s.faultCh := rfl
@[simp] theorem State.withDl_faultIdx (s : State) (u : RingBuf) : (s.withDl u).faultIdx = s.faultIdx := rfl
@[simp] theorem State.withDl_cp (s : State) (u : RingBuf) : (s.withDl u).cp = s.cp := rfl
@[simp] theorem State.withDl_sig (s : State) (u : RingBuf) : (s.withDl u).sig = s.sig := rfl
@[simp] theorem State.withDl_inputs (s : State) (u : RingBuf) : (s.withDl u).inputs = s.inputs := rfl
@[simp] theorem State.withDl_responses (s : State) (u : RingBuf) : (s.withDl u).responses = s.responses := rfl

@[simp] theorem State.withLut_cfg (s : State) (u : RingBuf) : (s.withLut u).cfg = s.cfg := rfl
@[simp] theorem State.withLut_dl (s : State) (u : RingBuf) : (s.withLut u).dl = s.dl := rfl
@[simp] theorem State.withLut_lut (s : State) (u : RingBuf) : (s.withLut u).lut = u := rfl
@[simp] theorem State.withLut_sigBase (s : State) (u : RingBuf) : (s.withLut u).sigBase = s.sigBase := rfl
@[simp] theorem State.withLut_chCount (s : State) (u : RingBuf) : (s.withLut u).chCount = s.chCount := rfl
@[simp] theorem State.withLut_dataLen (s : State) (u : RingBuf) : (s.withLut u).dataLen = s.dataLen := rfl
@[simp] theorem State.withLut_status (s : State) (u : RingBuf) : (s.withLut u).status = s.status := rfl
@[simp] theorem State.withLut_faultCh (s : State) (u : RingBuf) : (s.withLut u).faultCh = s.faultCh := rfl
@[simp] theorem State.withLut_faultIdx (s : State) (u : RingBuf) : (s.withLut u).faultIdx = s.faultIdx := rfl
@[simp] theorem State.withLut_cp (s : State) (u : RingBuf) : (s.withLut u).cp = s.cp := rfl
@[simp] theorem State.withLut_sig (s : State) (u : RingBuf) : (s.withLut u).sig = s.sig := rfl
@[simp] theorem State.withLut_inputs (s : State) (u : RingBuf) : (s.withLut u).inputs = s.inputs := rfl
@[simp] theorem State.withLut_responses (s : State) (u : RingBuf) : (s.withLut u).responses = s.responses := rfl

@[simp] theorem State.withSig_cfg (s : State) (m : SigMem) : (s.withSig m).cfg = s.cfg := rfl
@[simp] theorem State.withSig_dl (s : State) (m : SigMem) : (s.withSig m).dl = s.dl := rfl
@[simp] theorem State.withSig_lut (s : State) (m : SigMem) : (s.withSig m).lut = s.lut := rfl
@[simp] theorem State.withSig_sigBase (s : State) (m : SigMem) : (s.withSig m).sigBase = s.sigBase := rfl
@[simp] theorem State.withSig_chCount (s : State) (m : SigMem) : (s.withSig m).chCount = s.chCount := rfl
@[simp] theorem State.withSig_dataLen (s : State) (m : SigMem) : (s.withSig m).dataLen = s.dataLen := rfl
@[simp] theorem State.withSig_status (s : State) (m : SigMem) : (s.withSig m).status = s.status := rfl
@[simp] theorem State.withSig_faultCh (s : State) (m : SigMem) : (s.withSig m).faultCh = s.faultCh := rfl
@[simp] theorem State.withSig_faultIdx (s : State) (m : SigMem) : (s.withSig m).faultIdx = s.faultIdx := rfl
@[simp] theorem State.withSig_cp (s : State) (m : SigMem) : (s.withSig m).cp = s.cp := rfl
@[simp] theorem State.withSig_sig (s : State) (m : SigMem) : (s.withSig m).sig = m := rfl
@[simp] theorem State.withSig_inputs (s : State) (m : SigMem) : (s.withSig m).inputs = s.inputs := rfl
@[simp] theorem State.withSig_responses (s : State) (m : SigMem) : (s.withSig m).responses = s.responses := rfl

@[simp] theorem State.respond_cfg (s : State) (rc : Rc) (val : Word) : (s.respond rc val).cfg = s.cfg := rfl
@[simp] theorem State.respond_dl (s : State) (rc : Rc) (val : Word) : (s.respond rc val).dl = s.dl := rfl
@[simp] theorem State.respond_lut (s : State) (rc : Rc) (val : Word) : (s.respond rc val).lut = s.lut := rfl
@[simp] theorem State.respond_sigBase (s : State) (rc : Rc) (val : Word) : (s.respond rc val).sigBase = s.sigBase :=
    rfl
@[simp] theorem State.respond_chCount (s : State) (rc : Rc) (val : Word) : (s.respond rc val).chCount = s.chCount :=
    rfl
@[simp] theorem State.respond_dataLen (s : State) (rc : Rc) (val : Word) : (s.respond rc val).dataLen = s.dataLen :=
    rfl
@[simp] theorem State.respond_status (s : State) (rc : Rc) (val : Word) : (s.respond rc val).status = s.status := rfl
@[simp] theorem State.respond_faultCh (s : State) (rc : Rc) (val : Word) : (s.respond rc val).faultCh = s.faultCh :=
    rfl
@[simp] theorem State.respond_faultIdx (s : State) (rc : Rc) (val : Word) : (s.respond rc val).faultIdx = s.faultIdx :=
    rfl
@[simp] theorem State.respond_cp (s : State) (rc : Rc) (val : Word) : (s.respond rc val).cp = s.cp := rfl
@[simp] theorem State.respond_sig (s : State) (rc : Rc) (val : Word) : (s.respond rc val).sig = s.sig := rfl
@[simp] theorem State.respond_inputs (s : State) (rc : Rc) (val : Word) : (s.respond rc val).inputs = s.inputs := rfl
@[simp] theorem State.respond_responses (s : State) (rc : Rc) (val : Word) : (s.respond rc val).responses = s.responses ++ [responseWord rc val] :=
    rfl

@[simp] theorem State.respondOk_cfg (s : State) (val : Word) : (s.respondOk val).cfg = s.cfg := rfl
@[simp] theorem State.respondOk_dl (s : State) (val : Word) : (s.respondOk val).dl = s.dl := rfl
@[simp] theorem State.respondOk_lut (s : State) (val : Word) : (s.respondOk val).lut = s.lut := rfl
@[simp] theorem State.respondOk_sigBase (s : State) (val : Word) : (s.respondOk val).sigBase = s.sigBase := rfl
@[simp] theorem State.respondOk_chCount (s : State) (val : Word) : (s.respondOk val).chCount = s.chCount := rfl
@[simp] theorem State.respondOk_dataLen (s : State) (val : Word) : (s.respondOk val).dataLen = s.dataLen := rfl
@[simp] theorem State.respondOk_status (s : State) (val : Word) : (s.respondOk val).status = s.status := rfl
@[simp] theorem State.respondOk_faultCh (s : State) (val : Word) : (s.respondOk val).faultCh = s.faultCh := rfl
@[simp] theorem State.respondOk_faultIdx (s : State) (val : Word) : (s.respondOk val).faultIdx = s.faultIdx := rfl
@[simp] theorem State.respondOk_cp (s : State) (val : Word) : (s.respondOk val).cp = s.cp := rfl
@[simp] theorem State.respondOk_sig (s : State) (val : Word) : (s.respondOk val).sig = s.sig := rfl
@[simp] theorem State.respondOk_inputs (s : State) (val : Word) : (s.respondOk val).inputs = s.inputs := rfl
@[simp] theorem State.respondOk_responses (s : State) (val : Word) : (s.respondOk val).responses = s.responses ++ [responseWord .ok val] :=
    rfl

@[simp] theorem State.respondHalted_cfg (s : State) : s.respondHalted.cfg = s.cfg := rfl
@[simp] theorem State.respondHalted_dl (s : State) : s.respondHalted.dl = s.dl := rfl
@[simp] theorem State.respondHalted_lut (s : State) : s.respondHalted.lut = s.lut := rfl
@[simp] theorem State.respondHalted_sigBase (s : State) : s.respondHalted.sigBase = s.sigBase := rfl
@[simp] theorem State.respondHalted_chCount (s : State) : s.respondHalted.chCount = s.chCount := rfl
@[simp] theorem State.respondHalted_dataLen (s : State) : s.respondHalted.dataLen = s.dataLen := rfl
@[simp] theorem State.respondHalted_status (s : State) : s.respondHalted.status = s.status := rfl
@[simp] theorem State.respondHalted_faultCh (s : State) : s.respondHalted.faultCh = s.faultCh := rfl
@[simp] theorem State.respondHalted_faultIdx (s : State) : s.respondHalted.faultIdx = s.faultIdx := rfl
@[simp] theorem State.respondHalted_cp (s : State) : s.respondHalted.cp = s.cp := rfl
@[simp] theorem State.respondHalted_sig (s : State) : s.respondHalted.sig = s.sig := rfl
@[simp] theorem State.respondHalted_inputs (s : State) : s.respondHalted.inputs = s.inputs := rfl
@[simp] theorem State.respondHalted_responses (s : State) : s.respondHalted.responses = s.responses ++ [responseWord .halted s.status] :=
    rfl

@[simp] theorem State.raise_cfg (s : State) (f : Cause) (ch idx : Nat) : (s.raise f ch idx).cfg = s.cfg := rfl
@[simp] theorem State.raise_dl (s : State) (f : Cause) (ch idx : Nat) : (s.raise f ch idx).dl = s.dl := rfl
@[simp] theorem State.raise_lut (s : State) (f : Cause) (ch idx : Nat) : (s.raise f ch idx).lut = s.lut := rfl
@[simp] theorem State.raise_sigBase (s : State) (f : Cause) (ch idx : Nat) : (s.raise f ch idx).sigBase = s.sigBase :=
    rfl
@[simp] theorem State.raise_chCount (s : State) (f : Cause) (ch idx : Nat) : (s.raise f ch idx).chCount = s.chCount :=
    rfl
@[simp] theorem State.raise_dataLen (s : State) (f : Cause) (ch idx : Nat) : (s.raise f ch idx).dataLen = s.dataLen :=
    rfl
@[simp] theorem State.raise_status (s : State) (f : Cause) (ch idx : Nat) : (s.raise f ch idx).status = haltStatus f :=
    rfl
@[simp] theorem State.raise_faultCh (s : State) (f : Cause) (ch idx : Nat) : (s.raise f ch idx).faultCh = word32 ch :=
    rfl
@[simp] theorem State.raise_faultIdx (s : State) (f : Cause) (ch idx : Nat) : (s.raise f ch idx).faultIdx = word32 idx :=
    rfl
@[simp] theorem State.raise_cp (s : State) (f : Cause) (ch idx : Nat) : (s.raise f ch idx).cp = s.cp := rfl
@[simp] theorem State.raise_sig (s : State) (f : Cause) (ch idx : Nat) : (s.raise f ch idx).sig = s.sig := rfl
@[simp] theorem State.raise_inputs (s : State) (f : Cause) (ch idx : Nat) : (s.raise f ch idx).inputs = s.inputs :=
    rfl
@[simp] theorem State.raise_responses (s : State) (f : Cause) (ch idx : Nat) : (s.raise f ch idx).responses = s.responses ++ [responseWord (.fault f) 0] :=
    rfl

@[simp] theorem State.advance_cfg (s : State) : s.advance.cfg = s.cfg := rfl
@[simp] theorem State.advance_dl (s : State) : s.advance.dl = s.dl := rfl
@[simp] theorem State.advance_lut (s : State) : s.advance.lut = s.lut := rfl
@[simp] theorem State.advance_sigBase (s : State) : s.advance.sigBase = s.sigBase := rfl
@[simp] theorem State.advance_chCount (s : State) : s.advance.chCount = s.chCount := rfl
@[simp] theorem State.advance_dataLen (s : State) : s.advance.dataLen = s.dataLen := rfl
@[simp] theorem State.advance_status (s : State) : s.advance.status = s.status := rfl
@[simp] theorem State.advance_faultCh (s : State) : s.advance.faultCh = s.faultCh := rfl
@[simp] theorem State.advance_faultIdx (s : State) : s.advance.faultIdx = s.faultIdx := rfl
@[simp] theorem State.advance_cp (s : State) : s.advance.cp = s.cp + 1 := rfl
@[simp] theorem State.advance_sig (s : State) : s.advance.sig = s.sig := rfl
@[simp] theorem State.advance_inputs (s : State) : s.advance.inputs = s.inputs := rfl
@[simp] theorem State.advance_responses (s : State) : s.advance.responses = s.responses := rfl

@[simp] theorem State.withWork_cfg (s : State) (w : Work) : (s.withWork w).cfg = s.cfg := rfl
@[simp] theorem State.withWork_dl (s : State) (w : Work) : (s.withWork w).dl = w.dl := rfl
@[simp] theorem State.withWork_lut (s : State) (w : Work) : (s.withWork w).lut = s.lut := rfl
@[simp] theorem State.withWork_sigBase (s : State) (w : Work) : (s.withWork w).sigBase = s.sigBase := rfl
@[simp] theorem State.withWork_chCount (s : State) (w : Work) : (s.withWork w).chCount = s.chCount := rfl
@[simp] theorem State.withWork_dataLen (s : State) (w : Work) : (s.withWork w).dataLen = s.dataLen := rfl
@[simp] theorem State.withWork_status (s : State) (w : Work) : (s.withWork w).status = s.status := rfl
@[simp] theorem State.withWork_faultCh (s : State) (w : Work) : (s.withWork w).faultCh = s.faultCh := rfl
@[simp] theorem State.withWork_faultIdx (s : State) (w : Work) : (s.withWork w).faultIdx = s.faultIdx := rfl
@[simp] theorem State.withWork_cp (s : State) (w : Work) : (s.withWork w).cp = s.cp := rfl
@[simp] theorem State.withWork_sig (s : State) (w : Work) : (s.withWork w).sig = w.sig := rfl
@[simp] theorem State.withWork_inputs (s : State) (w : Work) : (s.withWork w).inputs = s.inputs := rfl
@[simp] theorem State.withWork_responses (s : State) (w : Work) : (s.withWork w).responses = s.responses := rfl

@[simp] theorem State.dequeued_cfg (s : State) (rest : List HostInput) : (s.dequeued rest).cfg = s.cfg := rfl
@[simp] theorem State.dequeued_dl (s : State) (rest : List HostInput) : (s.dequeued rest).dl = s.dl := rfl
@[simp] theorem State.dequeued_lut (s : State) (rest : List HostInput) : (s.dequeued rest).lut = s.lut := rfl
@[simp] theorem State.dequeued_sigBase (s : State) (rest : List HostInput) : (s.dequeued rest).sigBase = s.sigBase :=
    rfl
@[simp] theorem State.dequeued_chCount (s : State) (rest : List HostInput) : (s.dequeued rest).chCount = s.chCount :=
    rfl
@[simp] theorem State.dequeued_dataLen (s : State) (rest : List HostInput) : (s.dequeued rest).dataLen = s.dataLen :=
    rfl
@[simp] theorem State.dequeued_status (s : State) (rest : List HostInput) : (s.dequeued rest).status = s.status := rfl
@[simp] theorem State.dequeued_faultCh (s : State) (rest : List HostInput) : (s.dequeued rest).faultCh = s.faultCh :=
    rfl
@[simp] theorem State.dequeued_faultIdx (s : State) (rest : List HostInput) : (s.dequeued rest).faultIdx = s.faultIdx :=
    rfl
@[simp] theorem State.dequeued_cp (s : State) (rest : List HostInput) : (s.dequeued rest).cp = s.cp := rfl
@[simp] theorem State.dequeued_sig (s : State) (rest : List HostInput) : (s.dequeued rest).sig = s.sig := rfl
@[simp] theorem State.dequeued_inputs (s : State) (rest : List HostInput) : (s.dequeued rest).inputs = rest := rfl
@[simp] theorem State.dequeued_responses (s : State) (rest : List HostInput) : (s.dequeued rest).responses = s.responses :=
    rfl

@[simp] theorem State.hardwareReset_cfg (s : State) : s.hardwareReset.cfg = s.cfg := rfl
@[simp] theorem State.hardwareReset_dl (s : State) : s.hardwareReset.dl = RingBuf.new s.cfg.b := rfl
@[simp] theorem State.hardwareReset_lut (s : State) : s.hardwareReset.lut = oscFill s.cfg := rfl
@[simp] theorem State.hardwareReset_sigBase (s : State) : s.hardwareReset.sigBase = 0 := rfl
@[simp] theorem State.hardwareReset_chCount (s : State) : s.hardwareReset.chCount = 0 := rfl
@[simp] theorem State.hardwareReset_dataLen (s : State) : s.hardwareReset.dataLen = 0 := rfl
@[simp] theorem State.hardwareReset_status (s : State) : s.hardwareReset.status = 0 := rfl
@[simp] theorem State.hardwareReset_faultCh (s : State) : s.hardwareReset.faultCh = 0 := rfl
@[simp] theorem State.hardwareReset_faultIdx (s : State) : s.hardwareReset.faultIdx = 0 := rfl
@[simp] theorem State.hardwareReset_cp (s : State) : s.hardwareReset.cp = 0 := rfl
@[simp] theorem State.hardwareReset_sig (s : State) : s.hardwareReset.sig = s.sig := rfl
@[simp] theorem State.hardwareReset_inputs (s : State) : s.hardwareReset.inputs = s.inputs := rfl
@[simp] theorem State.hardwareReset_responses (s : State) : s.hardwareReset.responses = s.responses := rfl

@[simp] theorem State.resetOf_cfg (c : Cfg) (m : SigMem) : (State.resetOf c m).cfg = c := rfl
@[simp] theorem State.resetOf_dl (c : Cfg) (m : SigMem) : (State.resetOf c m).dl = RingBuf.new c.b := rfl
@[simp] theorem State.resetOf_lut (c : Cfg) (m : SigMem) : (State.resetOf c m).lut = oscFill c := rfl
@[simp] theorem State.resetOf_sigBase (c : Cfg) (m : SigMem) : (State.resetOf c m).sigBase = 0 := rfl
@[simp] theorem State.resetOf_chCount (c : Cfg) (m : SigMem) : (State.resetOf c m).chCount = 0 := rfl
@[simp] theorem State.resetOf_dataLen (c : Cfg) (m : SigMem) : (State.resetOf c m).dataLen = 0 := rfl
@[simp] theorem State.resetOf_status (c : Cfg) (m : SigMem) : (State.resetOf c m).status = 0 := rfl
@[simp] theorem State.resetOf_faultCh (c : Cfg) (m : SigMem) : (State.resetOf c m).faultCh = 0 := rfl
@[simp] theorem State.resetOf_faultIdx (c : Cfg) (m : SigMem) : (State.resetOf c m).faultIdx = 0 := rfl
@[simp] theorem State.resetOf_cp (c : Cfg) (m : SigMem) : (State.resetOf c m).cp = 0 := rfl
@[simp] theorem State.resetOf_sig (c : Cfg) (m : SigMem) : (State.resetOf c m).sig = m := rfl
@[simp] theorem State.resetOf_inputs (c : Cfg) (m : SigMem) : (State.resetOf c m).inputs = [] := rfl
@[simp] theorem State.resetOf_responses (c : Cfg) (m : SigMem) : (State.resetOf c m).responses = [] := rfl

end Sys2Proof.Machine
end

