-- ==== Sys2Proof/Laws/Ops.lean ====
section
/-! SUPPORT. What the shared operations can do, said once: the response word, fault entry, and the envelope. -/

namespace Sys2Proof.Machine

theorem haltBit_haltStatus (f : Cause) : haltBit (haltStatus f) = true := by cases f <;> decide

theorem causeField_haltStatus (f : Cause) : causeField (haltStatus f) = f.code := by cases f <;> decide

theorem statusLegal_haltStatus (f : Cause) : statusLegal (haltStatus f) = true := by cases f <;> decide

theorem statusLegal_iff (w : Word) : statusLegal w = true ↔ w = 0 ∨ ∃ f, w = haltStatus f := by
  simp only [statusLegal, allCauses, Bool.or_eq_true, beq_iff_eq, List.map_cons, List.map_nil,
    List.contains_iff_mem, List.mem_cons, List.not_mem_nil, or_false]
  constructor
  · rintro (h | h | h | h | h | h)
    · exact .inl h
    all_goals exact .inr ⟨_, h⟩
  · rintro (h | ⟨f, h⟩)
    · exact .inl h
    · cases f <;> simp [h]

/-- A block that is not halted and whose STATUS is legal has STATUS 0 (R32). -/
theorem status_zero_of_running {w : Word} (hl : statusLegal w = true) (hr : haltBit w = false) : w = 0 := by
  rcases (statusLegal_iff w).mp hl with h | ⟨f, h⟩
  · exact h
  · rw [h, haltBit_haltStatus] at hr
    cases hr

@[simp] theorem endCommand_next (s : State) : endCommand (.next s) = .next s.advance := rfl
@[simp] theorem endCommand_fault (r : Fault) : endCommand (.fault r) = .fault r := rfl
@[simp] theorem endCommand_refused (r : Refusal) : endCommand (.refused r) = .refused r := rfl

theorem runCommandBody_running {s : State} (h : s.halted = false) (body : State → Result) :
    runCommandBody s body = endCommand (body s) := by
  simp [runCommandBody, h]

theorem runCommandBody_halted {s : State} (h : s.halted = true) (body : State → Result) :
    runCommandBody s body = .next s.respondHalted.advance := by
  simp [runCommandBody, h]

theorem illegalCommand_running {s : State} (h : s.halted = false) :
    illegalCommand s = .next (s.raise .illegalCmd 0 0).advance := by
  simp [illegalCommand, runCommandBody_running h]

theorem illegalCommand_halted {s : State} (h : s.halted = true) :
    illegalCommand s = .next s.respondHalted.advance :=
  runCommandBody_halted h _

/-- If a command of the common envelope answers a next state, either the block was halted and answered HALTED, or its
body answered and the command pointer advanced (R189). -/
theorem runCommandBody_next {s t : State} {body : State → Result} (h : runCommandBody s body = .next t) :
    (s.halted = true ∧ t = s.respondHalted.advance) ∨
    (s.halted = false ∧ ∃ u, body s = .next u ∧ t = u.advance) := by
  cases hs : s.halted
  · rw [runCommandBody_running hs] at h
    right
    refine ⟨rfl, ?_⟩
    cases hb : body s with
    | next u =>
      rw [hb, endCommand_next] at h
      exact ⟨u, rfl, (Host.Outcome.next.inj h).symm⟩
    | fault r => rw [hb, endCommand_fault] at h; cases h
    | refused r => rw [hb, endCommand_refused] at h; cases h
  · rw [runCommandBody_halted hs] at h
    exact .inl ⟨rfl, (Host.Outcome.next.inj h).symm⟩

/-- If the host's write answers a next state, the word exists and it alone is stored (R67, R53). -/
theorem State.hostWrite_next {s t : State} {a : Nat} {v : Word} (h : s.hostWrite a v = .next t) :
    a < s.cfg.sigWords ∧ t = s.withSig (s.sig.write a v) := by
  unfold State.hostWrite memWrite at h
  by_cases ha : a < s.cfg.sigWords
  · simp only [if_pos ha] at h
    exact ⟨ha, (Host.Outcome.next.inj h).symm⟩
  · simp only [if_neg ha] at h
    cases h

/-- Which register the writable ones are, and what a write of one gives (R177). -/
theorem State.writeReg_some {s t : State} {x : Reg} {v : Word} (h : s.writeReg x v = some t) :
    (x = .sigBase ∧ t = { s with sigBase := v }) ∨ (x = .chCount ∧ t = { s with chCount := v }) ∨
    (x = .dataLen ∧ t = { s with dataLen := v }) := by
  cases x <;> simp [State.writeReg] at h <;> simp [h]

theorem regOf_number (x : Reg) : regOf x.number = some x := by cases x <;> decide

theorem regOf_some {r : RegNum} {x : Reg} (h : regOf r = some x) : x.number = r := by
  have := List.find?_some h
  simpa using this

end Sys2Proof.Machine
end

