-- ==== Sys2Proof/Laws/RingBuf.lean ====
section
/-! SUPPORT. The ring buffer: the fields after each micro-operation, the cursor invariant (R23), and what a slot holds
after a list of pushes (R122, R123). -/

namespace Sys2Proof.Machine

@[simp] theorem RingBuf.push_rd (u : RingBuf) (v : Word) : (u.push v).rd = u.rd := rfl
@[simp] theorem RingBuf.push_wr (u : RingBuf) (v : Word) : (u.push v).wr = (u.wr + 1) % u.cap := rfl
@[simp] theorem RingBuf.push_mem (u : RingBuf) (v : Word) : (u.push v).mem = u.mem.set u.wr v := rfl
@[simp] theorem RingBuf.push_cap (u : RingBuf) (v : Word) : (u.push v).cap = u.cap := by simp [RingBuf.cap]
@[simp] theorem RingBuf.pop_rd (u : RingBuf) : u.pop.rd = (u.rd + 1) % u.cap := rfl
@[simp] theorem RingBuf.pop_wr (u : RingBuf) : u.pop.wr = u.wr := rfl
@[simp] theorem RingBuf.pop_mem (u : RingBuf) : u.pop.mem = u.mem := rfl
@[simp] theorem RingBuf.pop_cap (u : RingBuf) : u.pop.cap = u.cap := rfl
@[simp] theorem RingBuf.zeroed_rd (u : RingBuf) : u.zeroed.rd = 0 := rfl
@[simp] theorem RingBuf.zeroed_wr (u : RingBuf) : u.zeroed.wr = 0 := rfl
@[simp] theorem RingBuf.zeroed_cap (u : RingBuf) : u.zeroed.cap = u.cap := by simp [RingBuf.cap, RingBuf.zeroed]
@[simp] theorem RingBuf.new_cap (n : Nat) : (RingBuf.new n).cap = n := by simp [RingBuf.cap, RingBuf.new]

/-- `rbreset` gives the state after construction (R115). -/
theorem RingBuf.zeroed_eq_new (u : RingBuf) : u.zeroed = RingBuf.new u.cap := by
  simp [RingBuf.zeroed, RingBuf.new, RingBuf.cap, List.map_const']

theorem RingBuf.Shaped.cap_eq {u : RingBuf} {n : Nat} (h : u.Shaped n) : u.cap = n := h.length

theorem RingBuf.Shaped.pos {u : RingBuf} {n : Nat} (h : u.Shaped n) : 0 < n := by
  have := h.rd_lt
  omega

theorem RingBuf.shaped_new {n : Nat} (h : 0 < n) : (RingBuf.new n).Shaped n :=
  ⟨by simp [RingBuf.new], h, h⟩

theorem RingBuf.Shaped.push {u : RingBuf} {n : Nat} (h : u.Shaped n) (v : Word) : (u.push v).Shaped n :=
  ⟨by simp [h.length], h.rd_lt, by rw [RingBuf.push_wr, h.cap_eq]; exact Nat.mod_lt _ h.pos⟩

theorem RingBuf.Shaped.pop {u : RingBuf} {n : Nat} (h : u.Shaped n) : u.pop.Shaped n :=
  ⟨h.length, by rw [RingBuf.pop_rd, h.cap_eq]; exact Nat.mod_lt _ h.pos, h.wr_lt⟩

theorem RingBuf.Shaped.zeroed {u : RingBuf} {n : Nat} (h : u.Shaped n) : u.zeroed.Shaped n := by
  rw [RingBuf.zeroed_eq_new, h.cap_eq]
  exact RingBuf.shaped_new h.pos

theorem RingBuf.shaped_oscFill {c : Cfg} (h : 0 < c.p) : (oscFill c).Shaped c.p :=
  ⟨by simp [oscFill], h, h⟩

/-- What `getf` answers at an offset that is not negative (R116). -/
theorem RingBuf.getf_of_nonneg {u : RingBuf} {fo : Int} (h : 0 ≤ fo) :
    u.getf fo = some (word32 (lerp (sext32 (u.get (fo / 65536).toNat)) (sext32 (u.get ((fo / 65536).toNat + 1)))
      (fo % 65536))) := by
  simp only [RingBuf.getf, if_neg (not_lt.mpr h)]
  rfl

theorem RingBuf.getf_of_neg {u : RingBuf} {fo : Int} (h : fo < 0) : u.getf fo = none := by
  simp [RingBuf.getf, h]

theorem RingBuf.getf_eq_none_iff {u : RingBuf} {fo : Int} : u.getf fo = none ↔ fo < 0 := by
  constructor
  · intro h
    by_contra hn
    rw [RingBuf.getf_of_nonneg (not_lt.mp hn)] at h
    exact absurd h (by simp)
  · exact RingBuf.getf_of_neg

/-- A list of pushes, the head first. -/
def RingBuf.pushAll (u : RingBuf) (l : List Word) : RingBuf := l.foldl RingBuf.push u

@[simp] theorem RingBuf.pushAll_nil (u : RingBuf) : u.pushAll [] = u := rfl

theorem RingBuf.pushAll_cons (u : RingBuf) (v : Word) (l : List Word) :
    u.pushAll (v :: l) = (u.push v).pushAll l := rfl

theorem RingBuf.pushAll_concat (u : RingBuf) (l : List Word) (v : Word) :
    u.pushAll (l ++ [v]) = (u.pushAll l).push v := by simp [RingBuf.pushAll]

theorem RingBuf.pushAll_append (u : RingBuf) (l l' : List Word) :
    u.pushAll (l ++ l') = (u.pushAll l).pushAll l' := by simp [RingBuf.pushAll]

@[simp] theorem RingBuf.pushAll_rd (u : RingBuf) (l : List Word) : (u.pushAll l).rd = u.rd := by
  induction l generalizing u with
  | nil => rfl
  | cons v l ih => rw [RingBuf.pushAll_cons, ih, RingBuf.push_rd]

@[simp] theorem RingBuf.pushAll_cap (u : RingBuf) (l : List Word) : (u.pushAll l).cap = u.cap := by
  induction l generalizing u with
  | nil => rfl
  | cons v l ih => rw [RingBuf.pushAll_cons, ih, RingBuf.push_cap]

theorem RingBuf.Shaped.pushAll {u : RingBuf} {n : Nat} (h : u.Shaped n) (l : List Word) :
    (u.pushAll l).Shaped n := by
  induction l generalizing u with
  | nil => exact h
  | cons v l ih => exact ih (h.push v)

/-- The write cursor after a list of pushes (R122). -/
theorem RingBuf.pushAll_wr {u : RingBuf} {n : Nat} (h : u.Shaped n) (l : List Word) :
    (u.pushAll l).wr = (u.wr + l.length) % n := by
  induction l generalizing u with
  | nil => simp [Nat.mod_eq_of_lt h.wr_lt]
  | cons v l ih =>
    rw [RingBuf.pushAll_cons, ih (h.push v), RingBuf.push_wr, h.cap_eq]
    simp only [List.length_cons, Nat.mod_add_mod]
    congr 1
    omega

theorem mod_eq_iff_of_close {n a b : Nat} (hab : a < b) (hb : b < a + n) : a % n ≠ b % n := by
  intro h
  have hn : 0 < n := by omega
  have h1 : (b - a) % n = 0 := Nat.sub_mod_eq_zero_of_mod_eq h.symm
  rw [Nat.mod_eq_of_lt (by omega)] at h1
  omega

/-- A slot after a push: the pushed word at the write cursor, every other slot as before (R112). -/
theorem RingBuf.Shaped.slot_push {u : RingBuf} {n : Nat} (h : u.Shaped n) (v : Word) (i : Nat) :
    (u.push v).slot i = if i = u.wr then v else u.slot i := by
  have hl := h.length
  have hw := h.wr_lt
  simp only [RingBuf.slot, RingBuf.push_mem, List.getD_eq_getElem?_getD, List.getElem?_set]
  split_ifs with h1 h2 h3 h4
  · rfl
  · omega
  · omega
  · omega
  · omega
  · rfl

/-- The content law for a list of pushes (R123): the word pushed `p`-th stands in its slot as long as fewer than a
capacity of words came after it. -/
theorem RingBuf.slot_pushAll {u : RingBuf} {n : Nat} (h : u.Shaped n) (l : List Word) (p : Nat)
    (hp : p < l.length) (hq : l.length - p ≤ n) :
    (u.pushAll l).slot ((u.wr + p) % n) = l.getD p 0 := by
  induction l using List.reverseRecOn with
  | nil => simp at hp
  | append_singleton l v ih =>
    rw [RingBuf.pushAll_concat, (h.pushAll l).slot_push, RingBuf.pushAll_wr h]
    simp only [List.length_append, List.length_singleton] at hp hq
    by_cases hpl : p = l.length
    · subst hpl
      simp
    · rw [if_neg (mod_eq_iff_of_close (by omega) (by omega)), ih (by omega) (by omega)]
      simp [List.getD_eq_getElem?_getD, List.getElem?_append_left (show p < l.length by omega)]

/-- Slots that a list of pushes does not reach keep what they held. -/
theorem RingBuf.slot_pushAll_unreached {u : RingBuf} {n : Nat} (h : u.Shaped n) (l : List Word) (i : Nat)
    (hi : ∀ p, p < l.length → i ≠ (u.wr + p) % n) : (u.pushAll l).slot i = u.slot i := by
  induction l using List.reverseRecOn with
  | nil => rfl
  | append_singleton l v ih =>
    rw [RingBuf.pushAll_concat, (h.pushAll l).slot_push, RingBuf.pushAll_wr h,
      if_neg (hi l.length (by simp))]
    exact ih (fun p hp => hi p (by simp; omega))

end Sys2Proof.Machine
end

