-- ==== Sys2Proof/Laws/SigMem.lean ====
section
/-! SUPPORT. Signal memory: a read after a write, every other word left alone, and the canonical form kept
(20_memory.md R52, R53). -/

namespace Sys2Proof.Machine

@[simp] theorem SigMem.read_nil (a : Nat) : SigMem.read [] a = SigMem.unlisted := rfl

theorem SigMem.read_cons (k : Nat) (x : Word) (m : SigMem) (a : Nat) :
    SigMem.read ((k, x) :: m) a = if k = a then x else SigMem.read m a := rfl

theorem SigMem.wfFrom_cons (lo k : Nat) (x : Word) (m : SigMem) :
    SigMem.wfFrom lo ((k, x) :: m) = true ↔
      lo ≤ k ∧ x ≠ SigMem.unlisted ∧ SigMem.wfFrom (k + 1) m = true := by
  simp [SigMem.wfFrom, and_assoc]

theorem SigMem.wfFrom_mono {lo lo' : Nat} (h : lo' ≤ lo) {m : SigMem} (hm : m.wfFrom lo = true) :
    m.wfFrom lo' = true := by
  cases m with
  | nil => rfl
  | cons c m =>
    obtain ⟨k, x⟩ := c
    rw [SigMem.wfFrom_cons] at hm ⊢
    exact ⟨by omega, hm.2⟩

/-- Below the least listed address every word reads as unlisted. -/
theorem SigMem.read_below {lo : Nat} {m : SigMem} (hm : m.wfFrom lo = true) {a : Nat} (ha : a < lo) :
    m.read a = SigMem.unlisted := by
  induction m generalizing lo with
  | nil => rfl
  | cons c m ih =>
    obtain ⟨k, x⟩ := c
    rw [SigMem.wfFrom_cons] at hm
    rw [SigMem.read_cons, if_neg (by omega)]
    exact ih hm.2.2 (by omega)

/-- A read of the word just written, in a canonical memory. -/
theorem SigMem.read_write_same {lo : Nat} {m : SigMem} (hm : m.wfFrom lo = true) (a : Nat) (v : Word) :
    (m.write a v).read a = v := by
  induction m generalizing lo with
  | nil => by_cases hv : v = SigMem.unlisted <;> simp [SigMem.write, SigMem.read, hv]
  | cons c m ih =>
    obtain ⟨k, x⟩ := c
    rw [SigMem.wfFrom_cons] at hm
    simp only [SigMem.write]
    split_ifs with h1 h2 h2 h3
    · rw [SigMem.read_cons, if_neg (by omega), SigMem.read_below hm.2.2 (by omega), h2]
    · simp [SigMem.read]
    · rw [SigMem.read_below hm.2.2 (by omega), h3]
    · simp [SigMem.read]
    · rw [SigMem.read_cons, if_neg (by omega)]
      exact ih hm.2.2

/-- A write leaves every other word alone, in any memory. -/
theorem SigMem.read_write_other (m : SigMem) {a b : Nat} (h : b ≠ a) (v : Word) :
    (m.write a v).read b = m.read b := by
  induction m with
  | nil => by_cases hv : v = SigMem.unlisted <;> simp [SigMem.write, SigMem.read, hv, h.symm]
  | cons c m ih =>
    obtain ⟨k, x⟩ := c
    simp only [SigMem.write]
    split_ifs with h1 h2 h2 h3
    · rfl
    · simp [SigMem.read, h.symm]
    · rw [SigMem.read_cons, if_neg (by omega)]
    · rw [SigMem.read_cons, if_neg (by omega), SigMem.read_cons, if_neg (by omega)]
    · rw [SigMem.read_cons, SigMem.read_cons, ih]

theorem SigMem.wfFrom_write {lo : Nat} {m : SigMem} (hm : m.wfFrom lo = true) {a : Nat} (ha : lo ≤ a)
    (v : Word) : (m.write a v).wfFrom lo = true := by
  induction m generalizing lo with
  | nil => by_cases hv : v = SigMem.unlisted <;> simp [SigMem.write, SigMem.wfFrom, hv, ha]
  | cons c m ih =>
    obtain ⟨k, x⟩ := c
    have hc := hm
    rw [SigMem.wfFrom_cons] at hc
    simp only [SigMem.write]
    split_ifs with h1 h2 h2 h3
    · exact hm
    · rw [SigMem.wfFrom_cons, SigMem.wfFrom_cons]
      exact ⟨ha, h2, by omega, hc.2⟩
    · exact SigMem.wfFrom_mono (by omega) hc.2.2
    · rw [SigMem.wfFrom_cons]
      exact ⟨ha, h3, by subst h2; exact hc.2.2⟩
    · rw [SigMem.wfFrom_cons]
      exact ⟨hc.1, hc.2.1, ih hc.2.2 (by omega)⟩

/-- Every write keeps the canonical form. -/
theorem SigMem.wf_write {m : SigMem} (hm : m.wf = true) (a : Nat) (v : Word) : (m.write a v).wf = true :=
  SigMem.wfFrom_write hm (Nat.zero_le a) v

theorem SigMem.read_write {m : SigMem} (hm : m.wf = true) (a b : Nat) (v : Word) :
    (m.write a v).read b = if b = a then v else m.read b := by
  split_ifs with h
  · rw [h]; exact SigMem.read_write_same hm a v
  · exact SigMem.read_write_other m h v

theorem SigMem.inRange_cons (n k : Nat) (x : Word) (m : SigMem) :
    SigMem.inRange n ((k, x) :: m) = true ↔ k < n ∧ SigMem.inRange n m = true := by
  simp [SigMem.inRange]

/-- A write at an address that exists keeps every listed address in range. -/
theorem SigMem.inRange_write {n : Nat} {m : SigMem} (hm : m.inRange n = true) {a : Nat} (ha : a < n) (v : Word) :
    (m.write a v).inRange n = true := by
  induction m with
  | nil => by_cases hv : v = SigMem.unlisted <;> simp [SigMem.write, SigMem.inRange, hv, ha]
  | cons c m ih =>
    obtain ⟨k, x⟩ := c
    have hc := hm
    rw [SigMem.inRange_cons] at hc
    simp only [SigMem.write]
    split_ifs with h1 h2 h2 h3
    · exact hm
    · rw [SigMem.inRange_cons, SigMem.inRange_cons]; exact ⟨ha, hc⟩
    · exact hc.2
    · rw [SigMem.inRange_cons]; exact ⟨ha, hc.2⟩
    · rw [SigMem.inRange_cons]; exact ⟨hc.1, ih hc.2⟩

/-- Equal contents are equal data: two canonical memories that read alike are the same list. -/
theorem SigMem.eq_of_read_eq {lo : Nat} {m m' : SigMem} (h : m.wfFrom lo = true) (h' : m'.wfFrom lo = true)
    (hr : ∀ a, m.read a = m'.read a) : m = m' := by
  induction m generalizing lo m' with
  | nil =>
    cases m' with
    | nil => rfl
    | cons c m' =>
      obtain ⟨k, x⟩ := c
      rw [SigMem.wfFrom_cons] at h'
      have := hr k
      simp [SigMem.read] at this
      exact absurd this.symm h'.2.1
  | cons c m ih =>
    obtain ⟨k, x⟩ := c
    have hc := h
    rw [SigMem.wfFrom_cons] at hc
    cases m' with
    | nil =>
      have := hr k
      simp [SigMem.read] at this
      exact absurd this hc.2.1
    | cons c' m' =>
      obtain ⟨k', x'⟩ := c'
      have hc' := h'
      rw [SigMem.wfFrom_cons] at hc'
      have hk : k = k' := by
        rcases lt_trichotomy k k' with hlt | heq | hgt
        · have := hr k
          rw [SigMem.read_cons, if_pos rfl, SigMem.read_cons, if_neg (by omega),
            SigMem.read_below hc'.2.2 (by omega)] at this
          exact absurd this hc.2.1
        · exact heq
        · have := hr k'
          rw [SigMem.read_cons, if_neg (by omega), SigMem.read_below hc.2.2 (by omega), SigMem.read_cons,
            if_pos rfl] at this
          exact absurd this.symm hc'.2.1
      subst hk
      have hx : x = x' := by
        have := hr k
        simpa [SigMem.read] using this
      subst hx
      congr 1
      refine ih hc.2.2 hc'.2.2 (fun a => ?_)
      by_cases ha : k = a
      · subst ha
        rw [SigMem.read_below hc.2.2 (by omega), SigMem.read_below hc'.2.2 (by omega)]
      · have := hr a
        simpa [SigMem.read, ha] using this

theorem memRead_of_lt {c : Cfg} {m : SigMem} {a : Nat} (h : a < c.sigWords) : memRead c m a = some (m.read a) := by
  simp [memRead, h]

theorem memWrite_of_lt {c : Cfg} {m : SigMem} {a : Nat} (h : a < c.sigWords) (v : Word) :
    memWrite c m a v = some (m.write a v) := by
  simp [memWrite, h]

theorem memRead_none {c : Cfg} {m : SigMem} {a : Nat} (h : ¬a < c.sigWords) : memRead c m a = none := by
  simp [memRead, h]

theorem memWrite_none {c : Cfg} {m : SigMem} {a : Nat} (h : ¬a < c.sigWords) (v : Word) :
    memWrite c m a v = none := by
  simp [memWrite, h]

/-- Everything a successful `MemWrite` does (R53). -/
theorem memWrite_some {c : Cfg} {m m' : SigMem} {a : Nat} {v : Word} (h : memWrite c m a v = some m') :
    a < c.sigWords ∧ m' = m.write a v := by
  unfold memWrite at h
  split_ifs at h with ha
  exact ⟨ha, (Option.some.inj h).symm⟩

end Sys2Proof.Machine
end

