-- ==== Sys2Proof/Laws/Vibrato.lean ====
section
/-! SUPPORT. The vibrato sequencer, said once: the run of R149 as closed forms. `tape` is the list of words a channel
pushes (43_vibrato.md R158), `lineAt` the delay line before a main-pass step, `sigAfter` signal memory after some of
them, and `chanStart` what channel `c` starts from. The lemmas say that the sequencer is exactly these, and where it
stops when an offset is negative (R165). -/

namespace Sys2Proof.Machine

theorem cfg_b_eq (c : Cfg) : c.b = c.d + c.w + 10 := rfl

theorem cfg_b_ge (c : Cfg) : 10 ≤ c.b := by
  rw [cfg_b_eq]
  omega

theorem primeCount_eq (c : Cfg) : c.primeCount = c.b - 1 := rfl

/-- The tape of a channel (R158): the word of its `p`-th push. -/
def Job.tape (j : Job) (c : Nat) (m : SigMem) (p : Nat) : Word :=
  if p + 2 ≤ j.cfg.b then m.read (j.addr c (j.len - 1 - p))
  else if p + 2 ≤ j.len then m.read (j.addr c (j.len - 2 - p))
  else 0

/-- The first `q` words of the tape. -/
def Job.tapeList (j : Job) (c : Nat) (m : SigMem) (q : Nat) : List Word := (List.range q).map (j.tape c m)

/-- The delay line before main-pass step `k` of a channel that started with the line `u`. -/
def Job.lineAt (j : Job) (c : Nat) (u : RingBuf) (m : SigMem) (k : Nat) : RingBuf :=
  { u.pushAll (j.tapeList c m (j.cfg.b - 1 + k)) with rd := (u.rd + k) % j.cfg.b }

/-- The word the main pass writes at index `n` when its offset is not negative. -/
def Job.outAt (j : Job) (c : Nat) (u : RingBuf) (m : SigMem) (n : Nat) : Word :=
  ((j.lineAt c u m (j.len - 1 - n)).getf (j.delayAt n)).getD 0

/-- Signal memory after `k` main-pass steps of the channel. -/
def Job.sigAfter (j : Job) (c : Nat) (u : RingBuf) (m : SigMem) : Nat → SigMem
  | 0 => m
  | k + 1 => (j.sigAfter c u m k).write (j.addr c (j.len - 1 - k)) (j.outAt c u m (j.len - 1 - k))

/-- The accesses of main-pass step `k`, in order (R156). -/
def Job.stepAccesses (j : Job) (c : Nat) (u : RingBuf) (m : SigMem) (k : Nat) : List Access :=
  .write (j.addr c (j.len - 1 - k)) (j.outAt c u m (j.len - 1 - k)) ::
    (if j.cfg.b ≤ j.len - 1 - k then
      [.read (j.addr c (j.len - 1 - k - j.cfg.b)) (m.read (j.addr c (j.len - 1 - k - j.cfg.b)))] else [])

/-- The first `q` accesses of priming, in order (R150). -/
def Job.primeAccesses (j : Job) (c : Nat) (m : SigMem) (q : Nat) : List Access :=
  (List.range q).map (fun p => .read (j.addr c (j.len - 1 - p)) (m.read (j.addr c (j.len - 1 - p))))

/-- The accesses of a channel up to main-pass step `k`, in order. -/
def Job.accessesTo (j : Job) (c : Nat) (u : RingBuf) (m : SigMem) (k : Nat) : List Access :=
  j.primeAccesses c m (j.cfg.b - 1) ++ (List.range k).flatMap (j.stepAccesses c u m)

/-- What the sequencer holds before main-pass step `k` of the channel. -/
def Job.workAt (j : Job) (c : Nat) (u : RingBuf) (m : SigMem) (log : List Access) (k : Nat) : Work :=
  { dl := j.lineAt c u m k
    sig := j.sigAfter c u m k
    log := (j.accessesTo c u m k).reverse ++ log }

/-- Channel `c` of the job lies in signal memory and is long enough to prime from (R148). -/
structure Job.Fits (j : Job) (c : Nat) : Prop where
  long : j.cfg.b - 1 ≤ j.len
  inMemory : j.base + (c + 1) * j.len ≤ j.cfg.sigWords

theorem Job.Fits.addr_lt {j : Job} {c : Nat} (h : j.Fits c) {n : Nat} (hn : n < j.len) :
    j.addr c n < j.cfg.sigWords := by
  have := h.inMemory
  simp only [Job.addr]
  rw [Nat.add_mul, Nat.one_mul] at this
  omega

theorem Job.Fits.len_pos {j : Job} {c : Nat} (h : j.Fits c) : 0 < j.len := by
  have := h.long
  have := cfg_b_ge j.cfg
  omega

theorem Job.tapeList_succ (j : Job) (c : Nat) (m : SigMem) (q : Nat) :
    j.tapeList c m (q + 1) = j.tapeList c m q ++ [j.tape c m q] := by
  simp [Job.tapeList, List.range_succ]

@[simp] theorem Job.tapeList_length (j : Job) (c : Nat) (m : SigMem) (q : Nat) :
    (j.tapeList c m q).length = q := by simp [Job.tapeList]

theorem Job.tapeList_getD (j : Job) (c : Nat) (m : SigMem) {q p : Nat} (h : p < q) :
    (j.tapeList c m q).getD p 0 = j.tape c m p := by
  simp [Job.tapeList, List.getD_eq_getElem?_getD, h]

/-- Priming from round `q` on (R150). -/
theorem primeFrom_run {j : Job} {c : Nat} (hf : j.Fits c) (u : RingBuf) (m : SigMem) (log : List Access)
    (k q : Nat) (hq : q + k = j.cfg.b - 1) :
    primeFrom j c k (j.len - 1 - q)
        { dl := u.pushAll (j.tapeList c m q), sig := m, log := (j.primeAccesses c m q).reverse ++ log } =
      .run { dl := u.pushAll (j.tapeList c m (j.cfg.b - 1)), sig := m
             log := (j.primeAccesses c m (j.cfg.b - 1)).reverse ++ log } := by
  induction k generalizing q with
  | zero =>
    have : q = j.cfg.b - 1 := by omega
    subst this
    rfl
  | succ k ih =>
    have hb := cfg_b_ge j.cfg
    have hl := hf.long
    have hlt : j.addr c (j.len - 1 - q) < j.cfg.sigWords := hf.addr_lt (by omega)
    have ht : j.tape c m q = m.read (j.addr c (j.len - 1 - q)) := by simp [Job.tape, show q + 2 ≤ j.cfg.b by omega]
    simp only [primeFrom, pushSample, memRead_of_lt hlt, Seq.andThen]
    rw [show j.len - 1 - q - 1 = j.len - 1 - (q + 1) by omega, ← ih (q + 1) (by omega), Job.tapeList_succ,
      RingBuf.pushAll_concat, ht]
    congr 2
    simp [Job.primeAccesses, List.range_succ]

/-- The delay line's shape before every main-pass step (R23). -/
theorem Job.lineAt_shaped (j : Job) (c : Nat) {u : RingBuf} (hu : u.Shaped j.cfg.b) (m : SigMem) (k : Nat) :
    (j.lineAt c u m k).Shaped j.cfg.b :=
  ⟨(hu.pushAll _).length, Nat.mod_lt _ hu.pos, (hu.pushAll _).wr_lt⟩

theorem Job.lineAt_succ (j : Job) (c : Nat) {u : RingBuf} (hu : u.Shaped j.cfg.b) (m : SigMem) (k : Nat) :
    j.lineAt c u m (k + 1) = (j.lineAt c u m k).pop.push (j.tape c m (j.cfg.b - 1 + k)) := by
  have h1 : (j.lineAt c u m k).cap = j.cfg.b := (j.lineAt_shaped c hu m k).cap_eq
  have h2 : (u.pushAll (j.tapeList c m (j.cfg.b - 1 + k))).cap = j.cfg.b := (hu.pushAll _).cap_eq
  simp only [Job.lineAt, ← Nat.add_assoc, Job.tapeList_succ, RingBuf.pushAll_concat]
  simp only [RingBuf.push, RingBuf.pop, RingBuf.cap] at h1 h2 ⊢
  simp only [h2, Nat.mod_add_mod]

theorem Job.lineAt_zero (j : Job) (c : Nat) {u : RingBuf} (hu : u.Shaped j.cfg.b) (m : SigMem) :
    j.lineAt c u m 0 = u.pushAll (j.tapeList c m (j.cfg.b - 1)) := by
  have : (u.rd + 0) % j.cfg.b = (u.pushAll (j.tapeList c m (j.cfg.b - 1))).rd := by
    rw [RingBuf.pushAll_rd, Nat.add_zero, Nat.mod_eq_of_lt hu.rd_lt]
  simp only [Job.lineAt, Nat.add_zero] at this ⊢
  rw [this]

/-- Addresses of one channel differ when their indices do. -/
theorem Job.addr_inj {j : Job} {c n n' : Nat} (h : j.addr c n = j.addr c n') : n = n' := by
  simp only [Job.addr] at h
  omega

/-- A word the main pass has not written yet still holds what it held (R66). -/
theorem Job.sigAfter_read_other (j : Job) (c : Nat) (u : RingBuf) (m : SigMem) (k a : Nat)
    (h : ∀ i, i < k → a ≠ j.addr c (j.len - 1 - i)) : (j.sigAfter c u m k).read a = m.read a := by
  induction k with
  | zero => rfl
  | succ k ih =>
    rw [Job.sigAfter, SigMem.read_write_other _ (h k (by omega))]
    exact ih (fun i hi => h i (by omega))

theorem Job.sigAfter_wf (j : Job) (c : Nat) (u : RingBuf) {m : SigMem} (hm : m.wf = true) (k : Nat) :
    (j.sigAfter c u m k).wf = true := by
  induction k with
  | zero => exact hm
  | succ k ih => exact SigMem.wf_write ih _ _

theorem Job.sigAfter_inRange {j : Job} {c : Nat} (hf : j.Fits c) (u : RingBuf) {m : SigMem}
    (hm : m.inRange j.cfg.sigWords = true) (k : Nat) :
    (j.sigAfter c u m k).inRange j.cfg.sigWords = true := by
  induction k with
  | zero => exact hm
  | succ k ih =>
    refine SigMem.inRange_write ih (hf.addr_lt ?_) _
    have := hf.len_pos
    omega

/-- A word the main pass has written holds its output. -/
theorem Job.sigAfter_read_written (j : Job) (c : Nat) (u : RingBuf) {m : SigMem} (hm : m.wf = true) {k i : Nat}
    (hk : k ≤ j.len) (hi : i < k) :
    (j.sigAfter c u m k).read (j.addr c (j.len - 1 - i)) = j.outAt c u m (j.len - 1 - i) := by
  induction k with
  | zero => omega
  | succ k ih =>
    rw [Job.sigAfter, SigMem.read_write (j.sigAfter_wf c u hm k)]
    by_cases h : i = k
    · subst h
      simp
    · rw [if_neg (fun he => h (by have := Job.addr_inj he; omega))]
      exact ih (by omega) (by omega)

/-- One main-pass step whose offset is not negative (R149, R156). -/
theorem mainStep_run {j : Job} {c : Nat} (hf : j.Fits c) {u : RingBuf} (hu : u.Shaped j.cfg.b) (m : SigMem)
    (log : List Access) {k : Nat} (hk : k < j.len) (hd : 0 ≤ j.delayAt (j.len - 1 - k)) :
    mainStep j c (j.len - 1 - k) (j.workAt c u m log k) = .run (j.workAt c u m log (k + 1)) := by
  have hb := cfg_b_ge j.cfg
  have hw : j.addr c (j.len - 1 - k) < j.cfg.sigWords := hf.addr_lt (by omega)
  have ho : (j.lineAt c u m k).getf (j.delayAt (j.len - 1 - k)) = some (j.outAt c u m (j.len - 1 - k)) := by
    rw [Job.outAt, show j.len - 1 - (j.len - 1 - k) = k by omega, RingBuf.getf_of_nonneg hd]
    rfl
  simp only [mainStep, Job.workAt, ho, writeAndPop, memWrite_of_lt hw, Seq.andThen, feed]
  split_ifs with hfeed
  · have hr : j.addr c (j.len - 1 - k - j.cfg.b) < j.cfg.sigWords := hf.addr_lt (by omega)
    have hne : j.addr c (j.len - 1 - k - j.cfg.b) ≠ j.addr c (j.len - 1 - k) := by
      intro he
      have := Job.addr_inj he
      omega
    have horig : ((j.sigAfter c u m k).write (j.addr c (j.len - 1 - k)) (j.outAt c u m (j.len - 1 - k))).read
        (j.addr c (j.len - 1 - k - j.cfg.b)) = m.read (j.addr c (j.len - 1 - k - j.cfg.b)) := by
      rw [SigMem.read_write_other _ hne]
      refine j.sigAfter_read_other c u m k _ (fun i hi he => ?_)
      have := Job.addr_inj he
      omega
    have ht : j.tape c m (j.cfg.b - 1 + k) = m.read (j.addr c (j.len - 1 - k - j.cfg.b)) := by
      rw [Job.tape, if_neg (by omega), if_pos (by omega)]
      congr 2
      omega
    simp only [pushSample, memRead_of_lt hr, horig]
    rw [j.lineAt_succ c hu, ht]
    congr 2
    simp [Job.accessesTo, List.range_succ, List.flatMap_append, Job.stepAccesses, hfeed]
  · have ht : j.tape c m (j.cfg.b - 1 + k) = 0 := by
      rw [Job.tape, if_neg (by omega), if_neg (by omega)]
    rw [j.lineAt_succ c hu, ht]
    congr 2
    simp [Job.accessesTo, List.range_succ, List.flatMap_append, Job.stepAccesses, hfeed]

/-- The main pass from step `k` on reaches any later step before which no offset is negative. -/
theorem mainPass_reaches {j : Job} {c : Nat} (hf : j.Fits c) {u : RingBuf} (hu : u.Shaped j.cfg.b) (m : SigMem)
    (log : List Access) {k k' : Nat} (hkk : k ≤ k') (hk' : k' ≤ j.len)
    (hd : ∀ i, k ≤ i → i < k' → 0 ≤ j.delayAt (j.len - 1 - i)) :
    mainPass j c (j.len - k) (j.workAt c u m log k) = mainPass j c (j.len - k') (j.workAt c u m log k') := by
  induction k', hkk using Nat.le_induction with
  | base => rfl
  | succ k' hkk ih =>
    rw [ih (by omega) (fun i h1 h2 => hd i h1 (by omega)),
      show j.len - k' = (j.len - 1 - k') + 1 by omega, mainPass,
      mainStep_run hf hu m log (by omega) (hd k' hkk (by omega))]
    simp only [Seq.andThen]
    congr 1
    omega

/-- A whole main pass without a negative offset. -/
theorem mainPass_run {j : Job} {c : Nat} (hf : j.Fits c) {u : RingBuf} (hu : u.Shaped j.cfg.b) (m : SigMem)
    (log : List Access) (hd : ∀ n, n < j.len → 0 ≤ j.delayAt n) :
    mainPass j c j.len (j.workAt c u m log 0) = .run (j.workAt c u m log j.len) := by
  have h := mainPass_reaches hf hu m log (Nat.zero_le j.len) le_rfl (fun i _ h2 => hd _ (by omega))
  rw [Nat.sub_zero] at h
  rw [h, Nat.sub_self, mainPass]

/-- The main pass raises NEG_OFFSET at the highest index whose offset is negative, with everything above it done
(R165, R190). -/
theorem mainPass_neg {j : Job} {c : Nat} (hf : j.Fits c) {u : RingBuf} (hu : u.Shaped j.cfg.b) (m : SigMem)
    (log : List Access) {n : Nat} (hn : n < j.len) (hneg : j.delayAt n < 0)
    (hd : ∀ i, n < i → i < j.len → 0 ≤ j.delayAt i) :
    mainPass j c j.len (j.workAt c u m log 0) = .neg (j.workAt c u m log (j.len - 1 - n)) c n := by
  have h := mainPass_reaches hf hu m log (Nat.zero_le (j.len - 1 - n)) (by omega)
    (fun i _ h2 => hd _ (by omega) (by omega))
  rw [Nat.sub_zero] at h
  have hs : mainStep j c n (j.workAt c u m log (j.len - 1 - n)) = .neg (j.workAt c u m log (j.len - 1 - n)) c n := by
    simp only [mainStep, RingBuf.getf_of_neg hneg]
  rw [h, show j.len - (j.len - 1 - n) = n + 1 by omega, mainPass, hs]
  rfl

/-- Priming brings a channel to its first main-pass step (R150). -/
theorem runChannel_primed {j : Job} {c : Nat} (hf : j.Fits c) {u : RingBuf} (hu : u.Shaped j.cfg.b) (m : SigMem)
    (log : List Access) :
    runChannel j c { dl := u, sig := m, log := log } = mainPass j c j.len (j.workAt c u m log 0) := by
  have h := primeFrom_run hf u m log (j.cfg.b - 1) 0 (by omega)
  simp only [Nat.sub_zero] at h
  have h0 : ({ dl := u.pushAll (j.tapeList c m 0), sig := m, log := (j.primeAccesses c m 0).reverse ++ log } : Work)
      = { dl := u, sig := m, log := log } := by simp [Job.tapeList, Job.primeAccesses]
  rw [h0] at h
  rw [runChannel, primeCount_eq, h]
  simp only [Seq.andThen, Job.workAt, j.lineAt_zero c hu, Job.sigAfter, Job.accessesTo]
  simp

/-- What channel `c` starts from, when the channels before it ran to their end. -/
def Job.chanStart (j : Job) (u : RingBuf) (m : SigMem) : Nat → Work
  | 0 => { dl := u, sig := m, log := [] }
  | c + 1 =>
    let w := j.chanStart u m c
    j.workAt c w.dl w.sig w.log j.len

theorem Job.chanStart_shaped (j : Job) {u : RingBuf} (hu : u.Shaped j.cfg.b) (m : SigMem) (c : Nat) :
    (j.chanStart u m c).dl.Shaped j.cfg.b := by
  induction c with
  | zero => exact hu
  | succ c ih => exact j.lineAt_shaped c ih _ _

theorem Job.chanStart_wf (j : Job) (u : RingBuf) {m : SigMem} (hm : m.wf = true) (c : Nat) :
    (j.chanStart u m c).sig.wf = true := by
  induction c with
  | zero => exact hm
  | succ c ih => exact j.sigAfter_wf c _ ih _

theorem Job.chanStart_inRange {j : Job} {c : Nat} (hf : ∀ i, i < c → j.Fits i) (u : RingBuf) {m : SigMem}
    (hm : m.inRange j.cfg.sigWords = true) : (j.chanStart u m c).sig.inRange j.cfg.sigWords = true := by
  induction c with
  | zero => exact hm
  | succ c ih => exact Job.sigAfter_inRange (hf c (by omega)) _ (ih (fun i hi => hf i (by omega))) _

/-- The channels run one after the other, each from what the one before left (R149, R163). -/
theorem runChannels_run {j : Job} {u : RingBuf} (hu : u.Shaped j.cfg.b) (m : SigMem)
    (hd : ∀ n, n < j.len → 0 ≤ j.delayAt n) (k c : Nat) (hf : ∀ i, i < c + k → j.Fits i) :
    runChannels j k c (j.chanStart u m c) = .run (j.chanStart u m (c + k)) := by
  induction k generalizing c with
  | zero => rfl
  | succ k ih =>
    have hs := j.chanStart_shaped hu m c
    rw [runChannels, show j.chanStart u m c = { dl := (j.chanStart u m c).dl, sig := (j.chanStart u m c).sig
                                                log := (j.chanStart u m c).log } from rfl,
      runChannel_primed (hf c (by omega)) hs, mainPass_run (hf c (by omega)) hs _ _ hd]
    simp only [Seq.andThen]
    have := ih (c + 1) (fun i hi => hf i (by omega))
    rw [show c + (k + 1) = c + 1 + k by omega, ← this]
    rfl

/-- The sequencer runs to its end when no offset is negative. -/
theorem vibprocess_run {j : Job} {u : RingBuf} (hu : u.Shaped j.cfg.b) (m : SigMem) {chans : Nat}
    (hd : ∀ n, n < j.len → 0 ≤ j.delayAt n) (hf : ∀ i, i < chans → j.Fits i) :
    vibprocess j chans u m = .run (j.chanStart u m chans) := by
  have := runChannels_run hu m hd chans 0 (by simpa using hf)
  simpa [vibprocess, Job.chanStart] using this

/-- The sequencer raises NEG_OFFSET in its first channel, at the highest index whose offset is negative: the offsets
do not depend on the channel (R152, R165, R190). -/
theorem vibprocess_neg {j : Job} {u : RingBuf} (hu : u.Shaped j.cfg.b) (m : SigMem) {chans n : Nat}
    (hc : 0 < chans) (hf : j.Fits 0) (hn : n < j.len) (hneg : j.delayAt n < 0)
    (hd : ∀ i, n < i → i < j.len → 0 ≤ j.delayAt i) :
    vibprocess j chans u m = .neg (j.workAt 0 u m [] (j.len - 1 - n)) 0 n := by
  obtain ⟨k, rfl⟩ : ∃ k, chans = k + 1 := ⟨chans - 1, by omega⟩
  rw [vibprocess, runChannels, runChannel_primed hf hu, mainPass_neg hf hu m [] hn hneg hd]
  rfl

/-- Either no offset of the range is negative or there is a highest index whose offset is. -/
theorem exists_highest_neg (f : Nat → Int) (n : Nat) :
    (∀ i, i < n → 0 ≤ f i) ∨ ∃ k, k < n ∧ f k < 0 ∧ ∀ i, k < i → i < n → 0 ≤ f i := by
  induction n with
  | zero => exact .inl (fun i hi => absurd hi (by omega))
  | succ n ih =>
    by_cases h : f n < 0
    · exact .inr ⟨n, by omega, h, fun i h1 h2 => absurd h2 (by omega)⟩
    · rcases ih with ih | ⟨k, hk, hneg, hhi⟩
      · exact .inl (fun i hi => by
          rcases Nat.lt_succ_iff_lt_or_eq.mp hi with h1 | h1
          · exact ih i h1
          · subst h1; exact not_lt.mp h)
      · exact .inr ⟨k, by omega, hneg, fun i h1 h2 => by
          rcases Nat.lt_succ_iff_lt_or_eq.mp h2 with h3 | h3
          · exact hhi i h1 h3
          · subst h3; exact not_lt.mp h⟩

end Sys2Proof.Machine
end

