-- ==== Sys2Proof/Laws/VibratoRuns.lean ====
section
/-! SUPPORT. What a run of the sequencer leaves: the word an offset reaches (43_vibrato.md R158, R160), the cursors and
slots at the end (R164), signal memory by channel (R66), and the accesses made (R156). -/

namespace Sys2Proof.Machine

/-- The slot an offset from the read cursor reaches before main-pass step `k` (R158). -/
theorem Job.lineAt_get_slot (j : Job) (c : Nat) {u : RingBuf} (hu : u.Shaped j.cfg.b) (m : SigMem) {lag : Nat}
    (hlag : u.rd = (u.wr + lag) % j.cfg.b) (k o : Nat) :
    (j.lineAt c u m k).get o =
      (u.pushAll (j.tapeList c m (j.cfg.b - 1 + k))).slot ((u.wr + (lag + k + o)) % j.cfg.b) := by
  rw [RingBuf.get, (j.lineAt_shaped c hu m k).cap_eq]
  show (u.pushAll _).slot (((u.rd + k) % j.cfg.b + o) % j.cfg.b) = _
  rw [Nat.mod_add_mod, hlag, Nat.add_assoc, Nat.mod_add_mod]
  congr 2
  omega

/-- An offset reaches the tape position last pushed to its slot (R158, R217). -/
theorem Job.lineAt_get_pushed (j : Job) (c : Nat) {u : RingBuf} (hu : u.Shaped j.cfg.b) (m : SigMem) {lag : Nat}
    (hlag : u.rd = (u.wr + lag) % j.cfg.b) {k o p : Nat} (hp : p < j.cfg.b - 1 + k) (hlast : k ≤ p + 1)
    (hmod : p % j.cfg.b = (lag + k + o) % j.cfg.b) :
    (j.lineAt c u m k).get o = j.tape c m p := by
  have hb := cfg_b_ge j.cfg
  rw [j.lineAt_get_slot c hu m hlag, Nat.add_mod, ← hmod, ← Nat.add_mod,
    RingBuf.slot_pushAll hu _ p (by simp; omega) (by simp; omega), Job.tapeList_getD _ _ _ hp]

/-- An offset that reaches a slot no tape position so far was pushed to finds what the channel found (R158, R217). -/
theorem Job.lineAt_get_unpushed (j : Job) (c : Nat) {u : RingBuf} (hu : u.Shaped j.cfg.b) (m : SigMem) {lag : Nat}
    (hlag : u.rd = (u.wr + lag) % j.cfg.b) {k o : Nat}
    (hnone : ∀ p, p < j.cfg.b - 1 + k → p % j.cfg.b ≠ (lag + k + o) % j.cfg.b) :
    (j.lineAt c u m k).get o = u.slot ((u.wr + (lag + k + o)) % j.cfg.b) := by
  rw [j.lineAt_get_slot c hu m hlag]
  refine RingBuf.slot_pushAll_unreached hu _ _ (fun p hp he => ?_)
  exact hnone p (by simpa using hp) (Nat.ModEq.add_left_cancel' u.wr he.symm)

/-- A valid offset reaches tape position `lag + k + o` (R158). -/
theorem Job.lineAt_get (j : Job) (c : Nat) {u : RingBuf} (hu : u.Shaped j.cfg.b) (m : SigMem) {lag : Nat}
    (hlag : u.rd = (u.wr + lag) % j.cfg.b) (k o : Nat) (ho : lag + o + 2 ≤ j.cfg.b) :
    (j.lineAt c u m k).get o = j.tape c m (lag + k + o) :=
  j.lineAt_get_pushed c hu m hlag (by omega) (by omega) rfl

/-- The word written at index `n` while both taps are valid (R160). -/
theorem Job.outAt_eq (j : Job) (c : Nat) {u : RingBuf} (hu : u.Shaped j.cfg.b) (m : SigMem) {lag n : Nat}
    (hlag : u.rd = (u.wr + lag) % j.cfg.b) (hd : 0 ≤ j.delayAt n)
    (hv : lag + ((j.delayAt n / 65536).toNat + 1) + 2 ≤ j.cfg.b) :
    j.outAt c u m n = word32 (lerp
      (sext32 (j.tape c m (lag + (j.len - 1 - n) + (j.delayAt n / 65536).toNat)))
      (sext32 (j.tape c m (lag + (j.len - 1 - n) + ((j.delayAt n / 65536).toNat + 1))))
      (j.delayAt n % 65536)) := by
  rw [Job.outAt, RingBuf.getf_of_nonneg hd, Option.getD_some, j.lineAt_get c hu m hlag _ _ (by omega),
    j.lineAt_get c hu m hlag _ _ (by omega)]

/-- The tape depends on the channel's own words only. -/
theorem Job.tape_congr (j : Job) (c : Nat) {m m' : SigMem} (hl : 0 < j.len)
    (h : ∀ n, n < j.len → m.read (j.addr c n) = m'.read (j.addr c n)) (p : Nat) : j.tape c m p = j.tape c m' p := by
  simp only [Job.tape]
  split_ifs
  · exact h _ (by omega)
  · exact h _ (by omega)
  · rfl

theorem Job.outAt_congr (j : Job) (c : Nat) (u : RingBuf) {m m' : SigMem} (hl : 0 < j.len)
    (h : ∀ n, n < j.len → m.read (j.addr c n) = m'.read (j.addr c n)) (n : Nat) :
    j.outAt c u m n = j.outAt c u m' n := by
  have ht : ∀ q, j.tapeList c m q = j.tapeList c m' q := fun q => by
    simp only [Job.tapeList]
    exact List.map_congr_left (fun p _ => j.tape_congr c hl h p)
  simp only [Job.outAt, Job.lineAt, ht]

/-- The delay line before a step depends on the channel's own words only. -/
theorem Job.lineAt_congr (j : Job) (c : Nat) (u : RingBuf) {m m' : SigMem} (hl : 0 < j.len)
    (h : ∀ n, n < j.len → m.read (j.addr c n) = m'.read (j.addr c n)) (k : Nat) :
    j.lineAt c u m k = j.lineAt c u m' k := by
  have ht : ∀ q, j.tapeList c m q = j.tapeList c m' q := fun q => by
    simp only [Job.tapeList]
    exact List.map_congr_left (fun p _ => j.tape_congr c hl h p)
  simp only [Job.lineAt, ht]

/-- Addresses of different channels differ (R66). -/
theorem Job.addr_ne_of_channel (j : Job) {c c' n n' : Nat} (hc : c < c') (hn : n < j.len) :
    j.addr c n ≠ j.addr c' n' := by
  have : (c + 1) * j.len ≤ c' * j.len := Nat.mul_le_mul_right _ hc
  rw [Nat.add_mul, Nat.one_mul] at this
  simp only [Job.addr]
  omega

/-- A word outside the channels already run is untouched (R58, R66). -/
theorem Job.chanStart_read_other (j : Job) (u : RingBuf) (m : SigMem) (c a : Nat)
    (h : ∀ i n, i < c → n < j.len → a ≠ j.addr i n) : (j.chanStart u m c).sig.read a = m.read a := by
  induction c with
  | zero => rfl
  | succ c ih =>
    rw [← ih (fun i n hi hn => h i n (by omega) hn)]
    exact j.sigAfter_read_other c _ _ _ _ (fun i hi => h c _ (by omega) (by omega))

/-- A channel starts from its original words (R66). -/
theorem Job.chanStart_read_later (j : Job) (u : RingBuf) (m : SigMem) {c c' n : Nat} (hc : c ≤ c') :
    (j.chanStart u m c).sig.read (j.addr c' n) = m.read (j.addr c' n) :=
  j.chanStart_read_other u m c _ (fun _ _ hi hn' => (j.addr_ne_of_channel (by omega) hn').symm)

/-- A channel already run holds its output. -/
theorem Job.chanStart_read_done (j : Job) (u : RingBuf) {m : SigMem} (hm : m.wf = true) {c i n : Nat} (hi : i < c)
    (hn : n < j.len) :
    (j.chanStart u m c).sig.read (j.addr i n) = j.outAt i (j.chanStart u m i).dl m n := by
  induction c with
  | zero => omega
  | succ c ih =>
    show (j.sigAfter c (j.chanStart u m c).dl (j.chanStart u m c).sig j.len).read (j.addr i n) = _
    by_cases h : i = c
    · subst h
      have := j.sigAfter_read_written i (j.chanStart u m i).dl (j.chanStart_wf u hm i) le_rfl
        (show j.len - 1 - n < j.len by omega)
      rw [show j.len - 1 - (j.len - 1 - n) = n by omega] at this
      rw [this]
      exact j.outAt_congr i _ (by omega) (fun n' _ => j.chanStart_read_later u m le_rfl) n
    · rw [j.sigAfter_read_other c _ _ _ _ (fun i' hi' => j.addr_ne_of_channel (by omega) hn)]
      exact ih (by omega)

/-- The read cursor a channel starts from (R164). -/
theorem Job.chanStart_rd (j : Job) {u : RingBuf} (hu : u.Shaped j.cfg.b) (m : SigMem) (c : Nat) :
    (j.chanStart u m c).dl.rd = (u.rd + c * j.len) % j.cfg.b := by
  induction c with
  | zero => simp [Job.chanStart, Nat.mod_eq_of_lt hu.rd_lt]
  | succ c ih =>
    show ((j.chanStart u m c).dl.rd + j.len) % j.cfg.b = _
    rw [ih, Nat.mod_add_mod, Nat.add_mul, Nat.one_mul, Nat.add_assoc]

/-- The write cursor a channel starts from (R164). -/
theorem Job.chanStart_wr (j : Job) {u : RingBuf} (hu : u.Shaped j.cfg.b) (m : SigMem) (c : Nat) :
    (j.chanStart u m c).dl.wr = (u.wr + c * (j.cfg.b - 1 + j.len)) % j.cfg.b := by
  induction c with
  | zero => simp [Job.chanStart, Nat.mod_eq_of_lt hu.wr_lt]
  | succ c ih =>
    show ((j.chanStart u m c).dl.pushAll _).wr = _
    rw [RingBuf.pushAll_wr (j.chanStart_shaped hu m c), ih, Job.tapeList_length, Nat.mod_add_mod, Nat.add_mul,
      Nat.one_mul, Nat.add_assoc]

/-- Each channel run adds 1 to the lag (R158, R163). -/
theorem Job.chanStart_lag (j : Job) {u : RingBuf} (hu : u.Shaped j.cfg.b) (m : SigMem) {lag : Nat}
    (hlag : u.rd = (u.wr + lag) % j.cfg.b) (c : Nat) :
    (j.chanStart u m c).dl.rd = ((j.chanStart u m c).dl.wr + (lag + c) % j.cfg.b) % j.cfg.b := by
  have hb := cfg_b_ge j.cfg
  rw [j.chanStart_rd hu, j.chanStart_wr hu, Nat.mod_add_mod, Nat.add_mod_mod, hlag, Nat.mod_add_mod]
  have h1 : c * (j.cfg.b - 1 + j.len) + c = c * j.cfg.b + c * j.len := by
    obtain ⟨b', hb'⟩ : ∃ b', j.cfg.b = b' + 1 := ⟨j.cfg.b - 1, by omega⟩
    rw [hb', Nat.add_sub_cancel]
    ring
  have h2 : u.wr + c * (j.cfg.b - 1 + j.len) + (lag + c) = u.wr + lag + c * j.len + c * j.cfg.b := by omega
  rw [h2, Nat.add_mul_mod_self_right]

/-- The tape past the signal's beginning is silence (R158, R153). -/
theorem Job.tape_silent (j : Job) (c : Nat) (m : SigMem) {p : Nat} (h1 : j.cfg.b < p + 2) (h2 : j.len < p + 2) :
    j.tape c m p = 0 := by
  rw [Job.tape, if_neg (by omega), if_neg (by omega)]

/-- The slots after a channel of at least `B` samples are all zero (R164). -/
theorem Job.lineAt_end_slots (j : Job) (c : Nat) {u : RingBuf} (hu : u.Shaped j.cfg.b) (m : SigMem)
    (hl : j.cfg.b ≤ j.len) (i : Nat) : (j.lineAt c u m j.len).slot i = 0 := by
  have hb := cfg_b_ge j.cfg
  have hs := j.lineAt_shaped c hu m j.len
  by_cases hi : i < j.cfg.b
  · -- the slot is that of one of the last B pushes
    let p := j.len - 1 + (i + j.cfg.b - (u.wr + (j.len - 1)) % j.cfg.b) % j.cfg.b
    have hlt : (i + j.cfg.b - (u.wr + (j.len - 1)) % j.cfg.b) % j.cfg.b < j.cfg.b := Nat.mod_lt _ (by omega)
    have hp : (u.wr + p) % j.cfg.b = i := by
      have hm : (u.wr + (j.len - 1)) % j.cfg.b < j.cfg.b := Nat.mod_lt _ (by omega)
      show (u.wr + (j.len - 1 + (i + j.cfg.b - (u.wr + (j.len - 1)) % j.cfg.b) % j.cfg.b)) % j.cfg.b = i
      rw [← Nat.add_assoc, Nat.add_mod_mod, ← Nat.mod_add_mod,
        show (u.wr + (j.len - 1)) % j.cfg.b + (i + j.cfg.b - (u.wr + (j.len - 1)) % j.cfg.b) = i + j.cfg.b by omega,
        Nat.add_mod_right, Nat.mod_eq_of_lt hi]
    show (u.pushAll (j.tapeList c m (j.cfg.b - 1 + j.len))).slot i = 0
    rw [← hp, RingBuf.slot_pushAll hu _ p (by simp; omega) (by simp; omega), Job.tapeList_getD _ _ _ (by omega)]
    exact j.tape_silent c m (by omega) (by omega)
  · rw [RingBuf.slot, List.getD_eq_default _ _ (by rw [hs.length]; omega)]

/-- The slot before the write cursor after a channel holds the channel's last push, which is silence (R164). -/
theorem Job.lineAt_end_last (j : Job) (c : Nat) {u : RingBuf} (hu : u.Shaped j.cfg.b) (m : SigMem) (hl : 0 < j.len) :
    (j.lineAt c u m j.len).slot (((j.lineAt c u m j.len).wr + (j.cfg.b - 1)) % j.cfg.b) = 0 := by
  have hb := cfg_b_ge j.cfg
  have hwr : (j.lineAt c u m j.len).wr = (u.wr + (j.cfg.b - 1 + j.len)) % j.cfg.b := by
    show (u.pushAll _).wr = _
    rw [RingBuf.pushAll_wr hu, Job.tapeList_length]
  rw [hwr, Nat.mod_add_mod, show u.wr + (j.cfg.b - 1 + j.len) + (j.cfg.b - 1) =
    u.wr + (j.cfg.b - 2 + j.len) + j.cfg.b by omega, Nat.add_mod_right]
  show (u.pushAll (j.tapeList c m (j.cfg.b - 1 + j.len))).slot _ = 0
  rw [RingBuf.slot_pushAll hu _ _ (by simp; omega) (by simp; omega), Job.tapeList_getD _ _ _ (by omega)]
  exact j.tape_silent c m (by omega) (by omega)

/-- A list whose slots are all zero is the list of zeros. -/
theorem RingBuf.mem_eq_replicate {u : RingBuf} {n : Nat} (h : u.mem.length = n) (hz : ∀ i, u.slot i = 0) :
    u.mem = List.replicate n 0 := by
  apply List.ext_getElem
  · simp [h]
  · intro i h1 h2
    have := hz i
    rw [RingBuf.slot, List.getD_eq_getElem _ _ h1] at this
    simp [this]

/-- The chronological accesses of the channels before channel `c`. -/
def Job.accessesBefore (j : Job) (u : RingBuf) (m : SigMem) (c : Nat) : List Access :=
  (j.chanStart u m c).log.reverse

theorem Job.accessesBefore_succ (j : Job) (u : RingBuf) (m : SigMem) (c : Nat) :
    j.accessesBefore u m (c + 1) =
      j.accessesBefore u m c ++ j.accessesTo c (j.chanStart u m c).dl (j.chanStart u m c).sig j.len := by
  simp [Job.accessesBefore, Job.chanStart, Job.workAt]

end Sys2Proof.Machine
end

