-- ==== Sys2Proof/Laws/Commands.lean ====
section
/-! SUPPORT. What each command can do, said once: on a halted block, on a running block, and for all commands
together. The sequencer never forms an address that does not exist (R51), so every command answers a next state. -/

namespace Sys2Proof.Machine

theorem word32_natCast (n : Nat) : word32 (n : Int) = BitVec.ofNat 32 n := by simp [word32]

theorem haltStatus_eq (f : Cause) : haltStatus f = 0#16 ++ f.code ++ 0x01#8 := by cases f <;> decide

/-- Fault entry and the advance, in the terms of `State.faulted` (R187). -/
theorem State.raise_advance (s : State) (f : Cause) (ch idx : Nat) :
    (s.raise f ch idx).advance = s.faulted f.code ch idx := by
  simp only [State.raise, State.advance, State.respond, State.faulted, word32_natCast, haltStatus_eq]
  rfl

theorem State.respondOk_advance (s : State) (v : Word) : (s.respondOk v).advance = s.answered 0x00 v := rfl

theorem State.respondHalted_advance (s : State) : s.respondHalted.advance = s.answered 0xFF s.status := rfl

theorem Seq.andThen_ne_absent {q : Seq} {f : Work → Seq} (hq : ∀ a, q ≠ .absent a) (hf : ∀ w a, f w ≠ .absent a)
    (a : Nat) : q.andThen f ≠ .absent a := by
  cases q with
  | run w => exact hf w a
  | neg w c n => simp [Seq.andThen]
  | absent b => exact absurd rfl (hq b)

theorem pushSample_ne_absent {j : Job} {c n : Nat} (w : Work) (h : j.addr c n < j.cfg.sigWords) (a : Nat) :
    pushSample j c n w ≠ .absent a := by
  simp [pushSample, memRead_of_lt h]

theorem primeFrom_ne_absent {j : Job} {c : Nat} (hf : j.Fits c) (k n : Nat) (hn : n < j.len) (w : Work) (a : Nat) :
    primeFrom j c k n w ≠ .absent a := by
  induction k generalizing n w a with
  | zero => simp [primeFrom]
  | succ k ih =>
    exact Seq.andThen_ne_absent (fun b => pushSample_ne_absent w (hf.addr_lt hn) b)
      (fun w' b => ih (n - 1) (by omega) w' b) a

theorem mainStep_ne_absent {j : Job} {c : Nat} (hf : j.Fits c) (n : Nat) (hn : n < j.len) (w : Work) (a : Nat) :
    mainStep j c n w ≠ .absent a := by
  unfold mainStep
  split
  · refine Seq.andThen_ne_absent (fun b => ?_) (fun w' b => ?_) a
    · simp [writeAndPop, memWrite_of_lt (hf.addr_lt hn)]
    · unfold feed
      split_ifs
      · exact pushSample_ne_absent w' (hf.addr_lt (by omega)) b
      · simp
  · simp

theorem mainPass_ne_absent {j : Job} {c : Nat} (hf : j.Fits c) (n : Nat) (hn : n ≤ j.len) (w : Work) (a : Nat) :
    mainPass j c n w ≠ .absent a := by
  induction n generalizing w a with
  | zero => simp [mainPass]
  | succ n ih =>
    exact Seq.andThen_ne_absent (fun b => mainStep_ne_absent hf n (by omega) w b)
      (fun w' b => ih (by omega) w' b) a

theorem runChannels_ne_absent {j : Job} (k c : Nat) (hf : ∀ i, i < c + k → j.Fits i) (w : Work) (a : Nat) :
    runChannels j k c w ≠ .absent a := by
  induction k generalizing c w a with
  | zero => simp [runChannels]
  | succ k ih =>
    have h := hf c (by omega)
    have hl := h.len_pos
    refine Seq.andThen_ne_absent (fun b => ?_) (fun w' b => ih (c + 1) (fun i hi => hf i (by omega)) w' b) a
    exact Seq.andThen_ne_absent (fun b => primeFrom_ne_absent h _ _ (by omega) w b)
      (fun w' b => mainPass_ne_absent h _ le_rfl w' b) b

/-- The channels of a VIB.PROCESS that passes the checks lie in signal memory (R148, R51). -/
theorem State.CanProcess.fits {s : State} (h : s.CanProcess) (c : Nat) (hc : c < s.chCount.toNat) : s.job.Fits c := by
  refine ⟨h.long, ?_⟩
  have := h.inMemory
  have h2 : (c + 1) * s.dataLen.toNat ≤ s.chCount.toNat * s.dataLen.toNat := Nat.mul_le_mul_right _ hc
  show s.sigBase.toNat + (c + 1) * s.dataLen.toNat ≤ s.cfg.sigWords
  omega

theorem State.CanProcess.len_pos {s : State} (h : s.CanProcess) : 0 < s.dataLen.toNat := by
  have := h.long
  have := cfg_b_ge s.cfg
  omega

/-- No VIB.PROCESS that passes the checks forms an address that does not exist (R51). -/
theorem State.CanProcess.sequence_ne_absent {s : State} (h : s.CanProcess) (a : Nat) : s.sequence ≠ .absent a :=
  runChannels_ne_absent _ 0 (fun i hi => h.fits i (by simpa [zext32] using hi)) _ a

/-- The body of VIB.PROCESS when the checks pass (R148). -/
theorem State.CanProcess.body {s : State} (h : s.CanProcess) : vibProcessBody s = s.finishSeq s.sequence := by
  have h1 := h.channels
  have h2 := h.len_pos
  have h3 := h.long
  have h4 := h.inMemory
  unfold vibProcessBody
  rw [if_neg (by simp only [zext32]; omega), if_neg (by simp only [zext32, primeCount_eq]; omega),
    if_neg (by simp only [zext32]; omega)]

/-- What the body of VIB.PROCESS can answer (R148, R190). -/
theorem vibProcessBody_cases {s : State} (hr : s.halted = false) :
    vibProcessBody s = .next (s.respondOk 0) ∨ vibProcessBody s = .next (s.raise .shortSignal 0 0) ∨
    vibProcessBody s = .next (s.raise .badRange 0 0) ∨
    (s.CanProcess ∧ ∃ w, s.sequence = .run w ∧ vibProcessBody s = .next ((s.withWork w).respondOk 0)) ∨
    (s.CanProcess ∧ ∃ w c n, s.sequence = .neg w c n ∧
      vibProcessBody s = .next ((s.withWork w).raise .negOffset c n)) := by
  by_cases h1 : zext32 s.chCount = 0 ∨ zext32 s.dataLen = 0
  · exact .inl (by unfold vibProcessBody; rw [if_pos h1])
  by_cases h2 : zext32 s.dataLen < s.cfg.primeCount
  · exact .inr (.inl (by unfold vibProcessBody; rw [if_neg h1, if_pos h2]))
  by_cases h3 : s.cfg.sigWords < zext32 s.sigBase + zext32 s.chCount * zext32 s.dataLen
  · exact .inr (.inr (.inl (by unfold vibProcessBody; rw [if_neg h1, if_neg h2, if_pos h3])))
  have hc : s.CanProcess := by
    simp only [zext32, primeCount_eq] at h1 h2 h3
    exact ⟨hr, by omega, by omega, by omega⟩
  refine .inr (.inr (.inr ?_))
  rw [hc.body]
  cases hs : s.sequence with
  | run w => exact .inl ⟨hc, w, rfl, rfl⟩
  | neg w c n => exact .inr ⟨hc, w, c, n, rfl, rfl⟩
  | absent a => exact absurd hs (hc.sequence_ne_absent a)

/-! On a running block. -/

section Running

variable {s : State} (h : s.halted = false)
include h

theorem exec_wrreg_running (r : RegNum) (v : Word) :
    exec (.wrreg r v) s = .next (match (regOf r).bind (fun x => s.writeReg x v) with
      | some t => (t.respondOk 0).advance
      | none => (s.raise .badReg 0 0).advance) := by
  simp only [exec, execWrreg]
  rw [runCommandBody_running h]
  simp only [sampleOperand]
  cases (regOf r).bind (fun x => s.writeReg x v) <;> rfl

theorem exec_rbPush_running (v : Word) :
    exec (.rbPush .dl v) s = .next ((s.withDl (s.dl.push v)).respondOk 0).advance := by
  simp only [exec, execRbPush]
  rw [runCommandBody_running h]
  rfl

theorem exec_rbPop_running : exec (.rbPop .dl) s = .next ((s.withDl s.dl.pop).respondOk s.dl.popped).advance := by
  simp only [exec, execRbPop]
  rw [runCommandBody_running h]
  rfl

theorem exec_rbGet_running (u : RbUnit) (o : Word) :
    exec (.rbGet u o) s = .next (s.respondOk ((s.unit u).get o.toNat)).advance := by
  simp only [exec, execRbGet]
  rw [runCommandBody_running h]
  rfl

theorem exec_rbGetf_running (u : RbUnit) (f : Word) :
    exec (.rbGetf u f) s = .next (match (s.unit u).getf f.toInt with
      | some v => (s.respondOk v).advance
      | none => (s.raise .negOffset 0 0).advance) := by
  simp only [exec, execRbGetf]
  rw [runCommandBody_running h]
  show endCommand (match (s.unit u).getf f.toInt with
      | some v => .next (s.respondOk v)
      | none => .next (s.raise .negOffset 0 0)) = _
  cases (s.unit u).getf f.toInt <;> rfl

theorem exec_rbReset_running : exec (.rbReset .dl) s = .next ((s.withDl s.dl.zeroed).respondOk 0).advance := by
  simp only [exec, execRbReset]
  rw [runCommandBody_running h]
  rfl

theorem exec_oscSample_running (k : Word) :
    exec (.oscSample k) s = .next (s.respondOk (sampleAt s.cfg s.lut k.toNat)).advance := by
  simp only [exec, execOscSample]
  rw [runCommandBody_running h]
  rfl

theorem exec_oscReset_running : exec .oscReset s = .next ((s.withLut (oscFill s.cfg)).respondOk 0).advance := by
  simp only [exec, execOscReset]
  rw [runCommandBody_running h]
  rfl

theorem exec_vibReset_running :
    exec .vibReset s = .next (((s.withDl s.dl.zeroed).withLut (oscFill s.cfg)).respondOk 0).advance := by
  simp only [exec, execVibReset]
  rw [runCommandBody_running h]
  rfl

theorem exec_vibProcess_running : exec .vibProcess s = endCommand (vibProcessBody s) := by
  simp only [exec, execVibProcess]
  rw [runCommandBody_running h]

/-- A mutating ring command on `lut` raises ILLEGAL_CMD (R80). -/
theorem exec_illFormed_running {i : Instr} (hi : i.wellFormed = false) :
    exec i s = .next (s.raise .illegalCmd 0 0).advance := by
  have h' := illegalCommand_running h
  cases i with
  | rbPush u v =>
    cases u
    · cases hi
    · exact h'
  | rbPop u =>
    cases u
    · cases hi
    · exact h'
  | rbReset u =>
    cases u
    · cases hi
    · exact h'
  | _ => cases hi

end Running

theorem exec_nop (s : State) : exec .nop s = .next (s.respondOk 0).advance := rfl

theorem exec_rdreg (s : State) (r : RegNum) :
    exec (.rdreg r) s = .next (match regOf r with
      | some x => (s.respondOk (s.readReg x)).advance
      | none => if s.halted then s.respondHalted.advance else (s.raise .badReg 0 0).advance) := by
  show endCommand (match regOf r with
    | some x => .next (s.respondOk (s.readReg x))
    | none => .next (if s.halted then s.respondHalted else s.raise .badReg 0 0)) = _
  cases regOf r with
  | some x => rfl
  | none => cases s.halted <;> rfl

/-- A halted block answers HALTED to every command but NOP and RDREG (R188, R189). -/
theorem exec_halted {s : State} (h : s.halted = true) (i : Instr) (h1 : i ≠ .nop) (h2 : ∀ r, i ≠ .rdreg r) :
    exec i s = .next s.respondHalted.advance := by
  cases i with
  | nop => exact absurd rfl h1
  | rdreg r => exact absurd rfl (h2 r)
  | wrreg r v => simp only [exec, execWrreg]; exact runCommandBody_halted h _
  | rbPush u v => cases u <;> simp only [exec, execRbPush, illegalCommand] <;> exact runCommandBody_halted h _
  | rbPop u => cases u <;> simp only [exec, execRbPop, illegalCommand] <;> exact runCommandBody_halted h _
  | rbGet u o => simp only [exec, execRbGet]; exact runCommandBody_halted h _
  | rbGetf u f => simp only [exec, execRbGetf]; exact runCommandBody_halted h _
  | rbReset u => cases u <;> simp only [exec, execRbReset, illegalCommand] <;> exact runCommandBody_halted h _
  | oscSample k => simp only [exec, execOscSample]; exact runCommandBody_halted h _
  | oscReset => simp only [exec, execOscReset]; exact runCommandBody_halted h _
  | vibProcess => simp only [exec, execVibProcess]; exact runCommandBody_halted h _
  | vibReset => simp only [exec, execVibReset]; exact runCommandBody_halted h _

/-- Everything a command can do to the state before the advance: answer OK, answer HALTED on a halted block, or on a
running one raise a fault or change what the command changes and answer OK. -/
inductive Effect (s : State) : Instr → State → Prop where
  | ok (i : Instr) (v : Word) : Effect s i (s.respondOk v)
  | halted (i : Instr) : s.halted = true → Effect s i s.respondHalted
  | raise (i : Instr) (f : Cause) : s.halted = false → Effect s i (s.raise f 0 0)
  | sigBase (v : Word) : s.halted = false → Effect s (.wrreg 0x01#8 v) (State.respondOk { s with sigBase := v } 0)
  | chCount (v : Word) : s.halted = false → Effect s (.wrreg 0x02#8 v) (State.respondOk { s with chCount := v } 0)
  | dataLen (v : Word) : s.halted = false → Effect s (.wrreg 0x03#8 v) (State.respondOk { s with dataLen := v } 0)
  | push (v : Word) : s.halted = false → Effect s (.rbPush .dl v) ((s.withDl (s.dl.push v)).respondOk 0)
  | pop : s.halted = false → Effect s (.rbPop .dl) ((s.withDl s.dl.pop).respondOk s.dl.popped)
  | zero : s.halted = false → Effect s (.rbReset .dl) ((s.withDl s.dl.zeroed).respondOk 0)
  | fill : s.halted = false → Effect s .oscReset ((s.withLut (oscFill s.cfg)).respondOk 0)
  | zeroFill : s.halted = false →
      Effect s .vibReset (((s.withDl s.dl.zeroed).withLut (oscFill s.cfg)).respondOk 0)
  | process (w : Work) : s.CanProcess → s.sequence = .run w → Effect s .vibProcess ((s.withWork w).respondOk 0)
  | processNeg (w : Work) (c n : Nat) : s.CanProcess → s.sequence = .neg w c n →
      Effect s .vibProcess ((s.withWork w).raise .negOffset c n)

/-- Every command answers a next state, and the state is that of one of the effects with `cp` advanced. -/
theorem exec_effect (i : Instr) (s : State) : ∃ u, Effect s i u ∧ exec i s = .next u.advance := by
  cases hs : s.halted
  · cases i with
    | nop => exact ⟨_, .ok _ 0, rfl⟩
    | rdreg r =>
      rw [exec_rdreg]
      cases regOf r with
      | some x => exact ⟨_, .ok _ _, rfl⟩
      | none => exact ⟨_, .raise _ .badReg hs, by simp [hs]⟩
    | wrreg r v =>
      rw [exec_wrreg_running hs]
      cases hw : (regOf r).bind (fun x => s.writeReg x v) with
      | none => exact ⟨_, .raise _ .badReg hs, rfl⟩
      | some t =>
        obtain ⟨x, hx, hxw⟩ := Option.bind_eq_some_iff.mp hw
        have hr := regOf_some hx
        rcases State.writeReg_some hxw with ⟨rfl, rfl⟩ | ⟨rfl, rfl⟩ | ⟨rfl, rfl⟩ <;> subst hr
        · exact ⟨_, .sigBase v hs, rfl⟩
        · exact ⟨_, .chCount v hs, rfl⟩
        · exact ⟨_, .dataLen v hs, rfl⟩
    | rbPush u v =>
      cases u
      · exact ⟨_, .push v hs, exec_rbPush_running hs v⟩
      · exact ⟨_, .raise _ .illegalCmd hs, exec_illFormed_running hs rfl⟩
    | rbPop u =>
      cases u
      · exact ⟨_, .pop hs, exec_rbPop_running hs⟩
      · exact ⟨_, .raise _ .illegalCmd hs, exec_illFormed_running hs rfl⟩
    | rbGet u o => exact ⟨_, .ok _ _, exec_rbGet_running hs u o⟩
    | rbGetf u f =>
      rw [exec_rbGetf_running hs]
      cases (s.unit u).getf f.toInt with
      | some v => exact ⟨_, .ok _ _, rfl⟩
      | none => exact ⟨_, .raise _ .negOffset hs, rfl⟩
    | rbReset u =>
      cases u
      · exact ⟨_, .zero hs, exec_rbReset_running hs⟩
      · exact ⟨_, .raise _ .illegalCmd hs, exec_illFormed_running hs rfl⟩
    | oscSample k => exact ⟨_, .ok _ _, exec_oscSample_running hs k⟩
    | oscReset => exact ⟨_, .fill hs, exec_oscReset_running hs⟩
    | vibProcess =>
      rw [exec_vibProcess_running hs]
      rcases vibProcessBody_cases hs with h | h | h | ⟨hc, w, hw, h⟩ | ⟨hc, w, c, n, hw, h⟩ <;> rw [h]
      · exact ⟨_, .ok _ _, rfl⟩
      · exact ⟨_, .raise _ _ hs, rfl⟩
      · exact ⟨_, .raise _ _ hs, rfl⟩
      · exact ⟨_, .process w hc hw, rfl⟩
      · exact ⟨_, .processNeg w c n hc hw, rfl⟩
    | vibReset => exact ⟨_, .zeroFill hs, exec_vibReset_running hs⟩
  · by_cases h1 : i = .nop
    · subst h1
      exact ⟨_, .ok _ 0, rfl⟩
    by_cases h2 : ∃ r, i = .rdreg r
    · obtain ⟨r, rfl⟩ := h2
      rw [exec_rdreg]
      cases regOf r with
      | some x => exact ⟨_, .ok _ _, rfl⟩
      | none => exact ⟨_, .halted _ hs, by simp [hs]⟩
    · exact ⟨_, .halted _ hs, exec_halted hs i h1 (fun r hr => h2 ⟨r, hr⟩)⟩

/-- If a command answers a next state, that state is one of the effects with `cp` advanced. -/
theorem exec_next {i : Instr} {s t : State} (h : exec i s = .next t) : ∃ u, Effect s i u ∧ t = u.advance := by
  obtain ⟨u, hu, he⟩ := exec_effect i s
  rw [he] at h
  exact ⟨u, hu, (Host.Outcome.next.inj h).symm⟩

/-- A word that selects no command, on a running block (R78). -/
theorem runWord_illegal {cw : Word64} {e : Illegal} {s : State} (hd : decode cw = .error e) (hr : s.halted = false) :
    runWord cw s = .next (s.raise .illegalCmd 0 0).advance := by
  simp only [runWord, hd, illegalCommand_running hr]

/-- A word the decoder gives no command for, as a running block takes it (R78). -/
theorem raisesIllegalCmd_of_error {cw : Word64} {e : Illegal} (hd : decode cw = .error e) : RaisesIllegalCmd cw := by
  refine ⟨by simp [NoCommand, hd, Except.toOption], fun s rest hi hr => ?_⟩
  have hs : Sys2Proof.Machine.step s = runWord cw (s.dequeued rest) := by simp only [step, hi, takeInput]
  rw [hs, runWord_illegal hd (s := s.dequeued rest) hr, State.raise_advance]
  rfl

/-- A word that selects no command, on a halted block (R189). -/
theorem runWord_illegal_halted {cw : Word64} {e : Illegal} {s : State} (hd : decode cw = .error e)
    (hr : s.halted = true) : runWord cw s = .next s.respondHalted.advance := by
  simp only [runWord, hd, illegalCommand_halted hr]

/-- Every command word answers a next state: a command's effect, a fault, or HALTED (R189). -/
theorem runWord_effect (cw : Word64) (s : State) : ∃ i u, Effect s i u ∧ runWord cw s = .next u.advance := by
  cases hd : decode cw with
  | ok i =>
    obtain ⟨u, hu, he⟩ := exec_effect i s
    exact ⟨i, u, hu, by simp only [runWord, hd, he]⟩
  | error e =>
    cases hs : s.halted
    · exact ⟨.nop, _, .raise _ .illegalCmd hs, runWord_illegal hd hs⟩
    · exact ⟨.nop, _, .halted _ hs, runWord_illegal_halted hd hs⟩

/-- What a step can do: idle, a command word's effect, RST, or the host's write of a word that exists. -/
theorem step_next {s t : State} (h : step s = .next t) :
    (s.inputs = [] ∧ t = s) ∨
    (∃ cw rest i u, s.inputs = .command cw :: rest ∧ Effect (s.dequeued rest) i u ∧ t = u.advance) ∨
    (∃ rest, s.inputs = .rst :: rest ∧ t = (s.dequeued rest).hardwareReset) ∨
    (∃ a v rest, s.inputs = .memWrite a v :: rest ∧ a < s.cfg.sigWords ∧
      t = (s.dequeued rest).withSig (s.sig.write a v)) := by
  unfold step at h
  split at h
  · next hi => exact .inl ⟨hi, (Host.Outcome.next.inj h).symm⟩
  · next e rest hi =>
    cases e with
    | command cw =>
      obtain ⟨i, u, hu, he⟩ := runWord_effect cw (s.dequeued rest)
      simp only [takeInput, he] at h
      exact .inr (.inl ⟨cw, rest, i, u, hi, hu, (Host.Outcome.next.inj h).symm⟩)
    | rst => exact .inr (.inr (.inl ⟨rest, hi, (Host.Outcome.next.inj h).symm⟩))
    | memWrite a v =>
      obtain ⟨ha, ht⟩ := State.hostWrite_next h
      exact .inr (.inr (.inr ⟨a, v, rest, hi, ha, ht⟩))

end Sys2Proof.Machine
end

