-- ==== Sys2Proof/Laws/Claims.lean ====
section
/-! SUPPORT. The bridge from the model's definitions to the words of the claims (Sys2Proof/Safety.lean): the clauses of
a well-formed configuration, the table's entries, the offsets, the lag, the taps, and a ring buffer after a sequence of
pushes and pops. -/

namespace Sys2Proof.Machine

/-! The configuration and the oscillator's table. -/

theorem Cfg.ok_period {c : Cfg} (h : c.ok = true) : 1 ≤ c.p := by
  simp only [Cfg.ok, Bool.and_eq_true, decide_eq_true_eq, List.all_eq_true] at h
  exact h.1.1.1.1.1.1.1.2

theorem Cfg.ok_rom_length {c : Cfg} (h : c.ok = true) : c.sinRom.length = c.p := by
  simp only [Cfg.ok, Bool.and_eq_true, decide_eq_true_eq, List.all_eq_true] at h
  exact h.1.1.1.1.2

theorem Cfg.ok_amp {c : Cfg} (h : c.ok = true) : |c.amp| ≤ 2 ^ 31 - 1 := by
  simp only [Cfg.ok, Bool.and_eq_true, decide_eq_true_eq, List.all_eq_true] at h
  exact abs_le.mpr ⟨h.1.1.2, h.1.2⟩

/-- An entry of the unit table lies in `[-65536, 65536]` (R11, R131). -/
theorem Cfg.ok_sin {c : Cfg} (h : c.ok = true) (k : Nat) : |c.sin (k % c.p)| ≤ 65536 := by
  have hp := Cfg.ok_period h
  have hl := Cfg.ok_rom_length h
  have hk : k % c.p < c.sinRom.length := by
    rw [hl]
    exact Nat.mod_lt _ (by omega)
  simp only [Cfg.ok, Bool.and_eq_true, decide_eq_true_eq, List.all_eq_true] at h
  rw [Cfg.sin, List.getD_eq_getElem _ _ hk]
  exact abs_le.mpr (h.1.1.1.2 _ (List.getElem_mem hk))

/-- A factor in `[-65536, 65536]` does not make a product larger (R93). -/
theorem abs_fxmul_le (a b : Int) (ha : |a| ≤ 65536) : |fxmul a b| ≤ |b| := by
  rw [fxmul_eq]
  have h : |a * b| ≤ 65536 * |b| := by
    rw [abs_mul]
    exact mul_le_mul_of_nonneg_right ha (abs_nonneg b)
  have := abs_le.mp h
  rw [abs_le]
  constructor <;> omega

/-- A sample of the filled table is its entry (R135). -/
theorem sampleAt_oscFill {c : Cfg} (h : 1 ≤ c.p) (k : Nat) : sampleAt c (oscFill c) k = oscEntry c (k % c.p) := by
  have := RingBuf.shaped_oscFill (c := c) (by omega)
  rw [sampleAt, RingBuf.get, this.cap_eq]
  simp [oscFill, RingBuf.slot, List.getD_eq_getElem?_getD, Nat.mod_lt _ (show 0 < c.p by omega)]

/-- A table entry does not wrap in a word (R93). -/
theorem sext32_oscEntry {c : Cfg} (h : c.ok = true) (k : Nat) :
    sext32 (oscEntry c (k % c.p)) = fxmul (c.sin (k % c.p)) c.amp := by
  have := abs_le.mp ((abs_fxmul_le _ c.amp (Cfg.ok_sin h k)).trans (Cfg.ok_amp h))
  exact sext32_word32 _ (by omega) (by omega)

/-! Ring buffers. -/

/-- A slot inside the storage, as a list element. -/
theorem RingBuf.getElem?_eq_slot {u : RingBuf} {n i : Nat} (hl : u.mem.length = n) (hi : i < n) :
    u.mem[i]? = some (u.slot i) := by
  simp [RingBuf.slot, List.getD_eq_getElem?_getD, List.getElem?_eq_getElem (hl ▸ hi)]

theorem RingBuf.Shaped.applyAll {u : RingBuf} {n : Nat} (h : u.Shaped n) (ops : List RingOp) :
    (u.applyAll ops).Shaped n := by
  induction ops generalizing u with
  | nil => exact h
  | cons o ops ih =>
    cases o with
    | push v => exact ih (h.push v)
    | pop => exact ih h.pop

/-- Pushes do not read the read cursor. -/
theorem RingBuf.pushAll_pop (u : RingBuf) (l : List Word) :
    u.pop.pushAll l = { u.pushAll l with rd := (u.rd + 1) % u.cap } := by
  induction l using List.reverseRecOn with
  | nil => rfl
  | append_singleton l v ih => rw [RingBuf.pushAll_concat, RingBuf.pushAll_concat, ih]; rfl

/-- A sequence of pushes and pops is its pushes, with the read cursor advanced by its pops. -/
theorem RingBuf.Shaped.applyAll_eq {u : RingBuf} {n : Nat} (h : u.Shaped n) (ops : List RingOp) :
    u.applyAll ops = { u.pushAll (pushedWords ops) with rd := (u.rd + popCount ops) % n } := by
  induction ops generalizing u with
  | nil => simp [RingBuf.applyAll, popCount, pushedWords, Nat.mod_eq_of_lt h.rd_lt]
  | cons o ops ih =>
    cases o with
    | push v => exact ih (h.push v)
    | pop =>
      refine (ih h.pop).trans ?_
      rw [RingBuf.pushAll_pop, RingBuf.pop_rd, h.cap_eq, Nat.mod_add_mod]
      simp only [popCount, pushedWords]
      congr 2
      omega

/-! VIB.PROCESS in the terms of Safety. -/

/-- The offset the sequencer forms is that of R152 with the entry of R24. -/
theorem State.job_delayAt {s : State} (h : s.Inv) (n : Nat) : s.job.delayAt n = s.delayAt n := by
  simp only [Job.delayAt, State.job, Job.modulation, State.delayAt, shl_sixteen]
  rw [h.lut_filled, sampleAt_oscFill (Cfg.ok_period h.cfg_ok)]
  rfl

theorem State.job_addr (s : State) (c n : Nat) : s.job.addr c n = s.addrOf c n := rfl

/-- The read cursor stands `lag` slots after the write cursor (R158). -/
theorem State.Inv.rd_eq {s : State} (h : s.Inv) : s.dl.rd = (s.dl.wr + s.lag) % s.cfg.b := by
  have h1 := h.dl_shaped.rd_lt
  have hb := cfg_b_ge s.cfg
  have hnn : 0 ≤ ((s.dl.rd - s.dl.wr : Int) % s.cfg.b) := Int.emod_nonneg _ (by omega)
  have : ((s.dl.rd : Nat) : Int) = ((s.dl.wr + s.lag) % s.cfg.b : Nat) := by
    rw [Int.natCast_emod]
    push_cast
    rw [State.lag, Int.toNat_of_nonneg hnn, Int.add_emod_emod, add_sub_cancel,
      Int.emod_eq_of_lt (by omega) (by omega)]
  exact_mod_cast this

/-- The lag is the only distance below the capacity that does this. -/
theorem lag_unique {b rd wr lag : Nat} (h : rd = (wr + lag) % b) (hl : lag < b) :
    ((rd - wr : Int) % b).toNat = lag := by
  have : ((rd - wr : Int) % b) = lag := by
    rw [h]
    push_cast
    rw [Int.emod_sub_emod, add_sub_cancel_left, Int.emod_eq_of_lt (by omega) (by omega)]
  omega

theorem State.tap_of_primed {s : State} {c lag n j : Nat}
    (h : lag + (s.dataLen.toNat - 1 - n) + j ≤ s.cfg.b - 2) : s.tap c lag n j = s.xz c ((n : Int) - j - lag) :=
  if_pos h

theorem State.tap_of_fed {s : State} {c lag n j : Nat} (h : ¬lag + (s.dataLen.toNat - 1 - n) + j ≤ s.cfg.b - 2) :
    s.tap c lag n j = s.xz c ((n : Int) - j - lag - 1) :=
  if_neg h

theorem State.xz_of_neg {s : State} {c : Nat} {j : Int} (h : j < 0) : s.xz c j = 0 := if_pos h

theorem State.xz_of_eq {s : State} {c : Nat} {j : Int} {k : Nat} (h : j = k) :
    s.xz c j = sext32 (s.word (s.addrOf c k)) := by
  rw [State.xz, if_neg (by omega), h]
  rfl

theorem State.tape_of_primed {s : State} {c : Nat} {p : Int} (h : p ≤ (s.cfg.b : Int) - 2) :
    s.tape c p = s.xz c ((s.dataLen.toNat : Int) - 1 - p) :=
  if_pos h

theorem State.tape_of_fed {s : State} {c : Nat} {p : Int} (h : ¬p ≤ (s.cfg.b : Int) - 2) :
    s.tape c p = s.xz c ((s.dataLen.toNat : Int) - 2 - p) :=
  if_neg h

/-- The tape of Safety is the list of words the sequencer pushes (R158). -/
theorem State.CanProcess.job_tape {s : State} (hc : s.CanProcess) (c p : Nat) :
    sext32 (s.job.tape c s.sig p) = s.tape c p := by
  have hb := cfg_b_ge s.cfg
  have hl := hc.long
  have e1 : s.job.cfg.b = s.cfg.b := rfl
  have e2 : s.job.len = s.dataLen.toNat := rfl
  unfold Job.tape
  rw [e1, e2]
  by_cases h1 : p + 2 ≤ s.cfg.b
  · rw [if_pos h1, State.tape_of_primed (by omega), State.xz_of_eq (k := s.dataLen.toNat - 1 - p) (by omega)]
    rfl
  · rw [if_neg h1, State.tape_of_fed (by omega)]
    by_cases h2 : p + 2 ≤ s.dataLen.toNat
    · rw [if_pos h2, State.xz_of_eq (k := s.dataLen.toNat - 2 - p) (by omega)]
      rfl
    · rw [if_neg h2, State.xz_of_neg (by omega)]
      rfl

/-- The tape position a valid offset reaches holds the tap of R160. -/
theorem State.tape_eq_tap (s : State) (c lag j : Nat) {n : Nat} (hn : n < s.dataLen.toNat) :
    s.tape c ((lag + (s.dataLen.toNat - 1 - n) + j : Nat) : Int) = s.tap c lag n j := by
  have hb := cfg_b_ge s.cfg
  by_cases h : lag + (s.dataLen.toNat - 1 - n) + j ≤ s.cfg.b - 2
  · rw [State.tape_of_primed (by omega), State.tap_of_primed h]
    congr 1
    omega
  · rw [State.tape_of_fed (by omega), State.tap_of_fed h]
    congr 1
    omega

/-- The position an offset reaches is one of the pushes so far, is congruent to it, and no later push went there; it is
missing only before main-pass step 0, at the offset that reaches the slot before the write cursor. -/
theorem State.lastPush_spec (s : State) (lag j : Nat) {n : Nat} (hn : n < s.dataLen.toNat) :
    let k := s.dataLen.toNat - 1 - n
    (∃ p : Nat, s.lastPush lag n j = p ∧ p < s.cfg.b - 1 + k ∧ k ≤ p + 1 ∧ p % s.cfg.b = (lag + k + j) % s.cfg.b) ∨
    (s.lastPush lag n j < 0 ∧ k = 0 ∧ (lag + k + j) % s.cfg.b = s.cfg.b - 1) := by
  intro k
  have hb := cfg_b_ge s.cfg
  have hk : ((s.dataLen.toNat : Int) - 1 - n) = (k : Nat) := by omega
  simp only [State.lastPush, hk]
  clear_value k
  generalize hr : ((s.cfg.b : Int) - 2 + k - (lag + k + j)) % s.cfg.b = r
  have h0 : 0 ≤ r := hr ▸ Int.emod_nonneg _ (by omega)
  have h1 : r < s.cfg.b := hr ▸ Int.emod_lt_of_pos _ (by omega)
  have hmod : ((s.cfg.b : Int) - 2 + k - r) % s.cfg.b = (lag + k + j) % s.cfg.b := by
    rw [← hr, Int.sub_emod_emod, sub_sub_cancel]
  by_cases hp : 0 ≤ (s.cfg.b : Int) - 2 + k - r
  · obtain ⟨p, hp'⟩ := Int.eq_ofNat_of_zero_le hp
    rw [hp'] at hmod ⊢
    exact .inl ⟨p, rfl, by omega, by omega, by exact_mod_cast hmod⟩
  · have hk0 : k = 0 := by omega
    have hm : (-1 + s.cfg.b : Int) % s.cfg.b = (lag + k + j) % s.cfg.b := by
      rw [← hmod, Int.add_emod_right]
      congr 1
      omega
    rw [Int.emod_eq_of_lt (by omega) (by omega)] at hm
    exact .inr ⟨by omega, hk0, by zify; omega⟩

/-- Where the read is valid, an offset reaches the tap of R160. -/
theorem State.reached_eq_tap (s : State) (c : Nat) {lag n j : Nat} (hn : n < s.dataLen.toNat)
    (hv : lag + j ≤ s.cfg.b - 2) : s.reached c lag n j = s.tap c lag n j := by
  have hb := cfg_b_ge s.cfg
  have hp : s.lastPush lag n j = ((lag + (s.dataLen.toNat - 1 - n) + j : Nat) : Int) := by
    simp only [State.lastPush]
    rw [Int.emod_eq_of_lt (by omega) (by omega)]
    omega
  rw [State.reached, hp, if_pos (by omega), State.tape_eq_tap _ _ _ _ hn]

/-- The slot before the write cursor as a channel finds it (R164, R217). -/
theorem State.CanProcess.startSlot_eq {s : State} (hc : s.CanProcess) (hi : s.Inv) (c : Nat) :
    sext32 ((s.job.chanStart s.dl s.sig c).dl.slot
      (((s.job.chanStart s.dl s.sig c).dl.wr + (s.cfg.b - 1)) % s.cfg.b)) = s.startSlot c := by
  cases c with
  | zero => rfl
  | succ c =>
    have hl : 0 < s.job.len := by
      have := cfg_b_ge s.cfg
      have := hc.long
      show 0 < s.dataLen.toNat
      omega
    exact congrArg sext32
      (s.job.lineAt_end_last c (s.job.chanStart_shaped hi.dl_shaped s.sig c) (s.job.chanStart s.dl s.sig c).sig hl)

/-- Before the step at index `n` of channel `c`, offset `j` from the read cursor reaches what Safety says, valid or not
(R158, R217). -/
theorem State.CanProcess.get_eq_reached {s : State} (hc : s.CanProcess) (hi : s.Inv) (c j : Nat) {lag n : Nat}
    (hlag : lag = (s.lag + c) % s.cfg.b) (hn : n < s.dataLen.toNat) :
    sext32 ((s.job.lineAt c (s.job.chanStart s.dl s.sig c).dl s.sig (s.dataLen.toNat - 1 - n)).get j) =
      s.reached c lag n j := by
  have hu := s.job.chanStart_shaped hi.dl_shaped s.sig c
  have hl : _ = _ := s.job.chanStart_lag hi.dl_shaped s.sig hi.rd_eq c
  rw [show (s.lag + c) % s.job.cfg.b = lag from hlag.symm] at hl
  rw [State.reached]
  rcases s.lastPush_spec lag j hn with ⟨p, he, h1, h2, h3⟩ | ⟨hneg, hk, hm⟩
  · rw [s.job.lineAt_get_pushed c hu s.sig hl h1 h2 h3, he, if_pos (by omega), hc.job_tape]
  · have hb := cfg_b_ge s.cfg
    have hnone : ∀ p, p < s.cfg.b - 1 + (s.dataLen.toNat - 1 - n) →
        p % s.cfg.b ≠ (lag + (s.dataLen.toNat - 1 - n) + j) % s.cfg.b := by
      intro p hp
      rw [hm, Nat.mod_eq_of_lt (by omega)]
      omega
    rw [s.job.lineAt_get_unpushed c hu s.sig hl hnone, if_neg (by omega), ← hc.startSlot_eq hi c,
      ← Nat.add_mod_mod _ (lag + (s.dataLen.toNat - 1 - n) + j)]
    exact congrArg (fun x => sext32 ((s.job.chanStart s.dl s.sig c).dl.slot
      (((s.job.chanStart s.dl s.sig c).dl.wr + x) % s.cfg.b))) hm

/-- What the sequencer answers in a state that passes the checks: its whole run, or NEG_OFFSET in channel 0. -/
theorem State.CanProcess.sequence_cases {s : State} (hc : s.CanProcess) (hi : s.Inv) :
    ((∀ n, n < s.dataLen.toNat → 0 ≤ s.delayAt n) ∧
      s.sequence = .run (s.job.chanStart s.dl s.sig s.chCount.toNat)) ∨
    ∃ n, n < s.dataLen.toNat ∧ s.delayAt n < 0 ∧ (∀ k, n < k → k < s.dataLen.toNat → 0 ≤ s.delayAt k) ∧
      s.sequence = .neg (s.job.workAt 0 s.dl s.sig [] (s.dataLen.toNat - 1 - n)) 0 n := by
  rcases exists_highest_neg s.delayAt s.dataLen.toNat with hd | ⟨n, hn, hneg, hhi⟩
  · refine .inl ⟨hd, vibprocess_run hi.dl_shaped s.sig (fun n hn => ?_) (fun c h => hc.fits c h)⟩
    rw [State.job_delayAt hi]
    exact hd n hn
  · refine .inr ⟨n, hn, hneg, hhi, vibprocess_neg hi.dl_shaped s.sig hc.channels (hc.fits 0 hc.channels) hn ?_ ?_⟩
    · rw [State.job_delayAt hi]
      exact hneg
    · intro k h1 h2
      rw [State.job_delayAt hi]
      exact hhi k h1 h2

end Sys2Proof.Machine
end

