-- ==== Sys2Proof/Laws/Decode.lean ====
section
/-! SUPPORT. A command word and its four fields (30_encoding.md R70), and what each mask of the opcode map asks of the
fields (R75, R76). -/

namespace Sys2Proof

/-- A word is its four fields (R70). -/
theorem word_eq_fields (cw : Word64) : cw = opcOf cw ++ selOf cw ++ zeroOf cw ++ opndOf cw := by
  apply BitVec.eq_of_getLsbD_eq
  intro i hi
  simp only [opcOf, selOf, zeroOf, opndOf, BitVec.getLsbD_append, BitVec.getLsbD_extractLsb']
  by_cases h1 : i < 32
  · simp [h1]
  · by_cases h2 : i < 48
    · simp [h1, show i - 32 < 16 by omega, show 32 + (i - 32) = i by omega]
    · by_cases h3 : i < 56
      · simp [h1, show ¬(i - 32 < 16) by omega, show i - 32 - 16 < 8 by omega,
          show 48 + (i - 32 - 16) = i by omega]
      · simp [h1, show ¬(i - 32 < 16) by omega, show ¬(i - 32 - 16 < 8) by omega,
          show i - 32 - 16 - 8 < 8 by omega, show 56 + (i - 32 - 16 - 8) = i by omega]

theorem opcOf_append (o s : BitVec 8) (z : BitVec 16) (v : Word) : opcOf (o ++ s ++ z ++ v) = o := by
  apply BitVec.eq_of_getLsbD_eq
  intro i hi
  simp only [opcOf, BitVec.getLsbD_append, BitVec.getLsbD_extractLsb']
  simp [hi, show ¬(56 + i < 32) by omega, show ¬(56 + i - 32 < 16) by omega,
    show ¬(56 + i - 32 - 16 < 8) by omega, show 56 + i - 32 - 16 - 8 = i by omega]

theorem selOf_append (o s : BitVec 8) (z : BitVec 16) (v : Word) : selOf (o ++ s ++ z ++ v) = s := by
  apply BitVec.eq_of_getLsbD_eq
  intro i hi
  simp only [selOf, BitVec.getLsbD_append, BitVec.getLsbD_extractLsb']
  simp [hi, show ¬(48 + i < 32) by omega, show ¬(48 + i - 32 < 16) by omega,
    show 48 + i - 32 - 16 = i by omega]

theorem zeroOf_append (o s : BitVec 8) (z : BitVec 16) (v : Word) : zeroOf (o ++ s ++ z ++ v) = z := by
  apply BitVec.eq_of_getLsbD_eq
  intro i hi
  simp only [zeroOf, BitVec.getLsbD_append, BitVec.getLsbD_extractLsb']
  simp [hi, show ¬(32 + i < 32) by omega, show 32 + i - 32 = i by omega]

theorem opndOf_append (o s : BitVec 8) (z : BitVec 16) (v : Word) : opndOf (o ++ s ++ z ++ v) = v := by
  apply BitVec.eq_of_getLsbD_eq
  intro i hi
  simp only [opndOf, BitVec.getLsbD_append, BitVec.getLsbD_extractLsb']
  simp [hi]

/-- Two words with the same fields are the same word. -/
theorem fields_ext {a b : Word64} (h1 : opcOf a = opcOf b) (h2 : selOf a = selOf b) (h3 : zeroOf a = zeroOf b)
    (h4 : opndOf a = opndOf b) : a = b := by
  rw [word_eq_fields a, word_eq_fields b, h1, h2, h3, h4]

@[simp] theorem opcOf_packWord (o s : BitVec 8) (v : Word) : opcOf (packWord o s v) = o := opcOf_append o s 0 v
@[simp] theorem selOf_packWord (o s : BitVec 8) (v : Word) : selOf (packWord o s v) = s := selOf_append o s 0 v
@[simp] theorem zeroOf_packWord (o s : BitVec 8) (v : Word) : zeroOf (packWord o s v) = 0 := zeroOf_append o s 0 v
@[simp] theorem opndOf_packWord (o s : BitVec 8) (v : Word) : opndOf (packWord o s v) = v := opndOf_append o s 0 v

theorem and_fields (a b : Word64) :
    a &&& b = (opcOf a &&& opcOf b) ++ (selOf a &&& selOf b) ++ (zeroOf a &&& zeroOf b) ++ (opndOf a &&& opndOf b) := by
  conv_lhs => rw [word_eq_fields a, word_eq_fields b]
  rw [BitVec.and_append, BitVec.and_append, BitVec.and_append]

/-- What a mask with the fields `mo`, `ms`, `mz`, `mv` asks of a word, field by field (R75). -/
theorem and_eq_iff_fields (cw mask value : Word64) :
    cw &&& mask = value ↔
      opcOf cw &&& opcOf mask = opcOf value ∧ selOf cw &&& selOf mask = selOf value ∧
      zeroOf cw &&& zeroOf mask = zeroOf value ∧ opndOf cw &&& opndOf mask = opndOf value := by
  constructor
  · intro h
    rw [← h, and_fields, opcOf_append, selOf_append, zeroOf_append, opndOf_append]
    exact ⟨rfl, rfl, rfl, rfl⟩
  · rintro ⟨h1, h2, h3, h4⟩
    rw [and_fields, h1, h2, h3, h4, ← word_eq_fields]

theorem unitOf_eq_selOf (cw : Word64) : unitOf cw = if (selOf cw).getLsbD 0 then .lut else .dl := by
  simp [unitOf, selOf]

/-- The mask 0xFF keeps a field, the mask 0 asks nothing of it. -/
theorem and_byte_ones (a : BitVec 8) : a &&& 0xFF#8 = a := by
  have : (0xFF#8) = BitVec.allOnes 8 := by decide
  rw [this, BitVec.and_allOnes]

theorem and_half_ones (a : BitVec 16) : a &&& 0xFFFF#16 = a := by
  have : (0xFFFF#16) = BitVec.allOnes 16 := by decide
  rw [this, BitVec.and_allOnes]

theorem and_word_ones (a : Word) : a &&& 0xFFFFFFFF#32 = a := by
  have : (0xFFFFFFFF#32) = BitVec.allOnes 32 := by decide
  rw [this, BitVec.and_allOnes]

/-- The unit mask 0xFE of RB.GET and RB.GETF: the seven high bits of `SEL` are zero (R72). -/
theorem and_unit_mask_iff (a : BitVec 8) : a &&& 0xFE#8 = 0#8 ↔ a = 0x00#8 ∨ a = 0x01#8 := by
  revert a
  decide

/-- A row whose mask is 0xFFFFFFFF_FFFFFFFF: every field is fixed (R76). -/
theorem row_all_fixed (cw : Word64) (o : BitVec 8) :
    cw &&& 0xFFFFFFFFFFFFFFFF#64 = packWord o 0 0 ↔ opcOf cw = o ∧ selOf cw = 0 ∧ zeroOf cw = 0 ∧ opndOf cw = 0 := by
  rw [and_eq_iff_fields, show opcOf 0xFFFFFFFFFFFFFFFF#64 = 0xFF#8 by decide,
    show selOf 0xFFFFFFFFFFFFFFFF#64 = 0xFF#8 by decide, show zeroOf 0xFFFFFFFFFFFFFFFF#64 = 0xFFFF#16 by decide,
    show opndOf 0xFFFFFFFFFFFFFFFF#64 = 0xFFFFFFFF#32 by decide, and_byte_ones, and_byte_ones, and_half_ones,
    and_word_ones]
  simp

/-- The row of RDREG: `SEL` is free (R76). -/
theorem row_sel_free (cw : Word64) (o : BitVec 8) :
    cw &&& 0xFF00FFFFFFFFFFFF#64 = packWord o 0 0 ↔ opcOf cw = o ∧ zeroOf cw = 0 ∧ opndOf cw = 0 := by
  rw [and_eq_iff_fields, show opcOf 0xFF00FFFFFFFFFFFF#64 = 0xFF#8 by decide,
    show selOf 0xFF00FFFFFFFFFFFF#64 = 0x00#8 by decide, show zeroOf 0xFF00FFFFFFFFFFFF#64 = 0xFFFF#16 by decide,
    show opndOf 0xFF00FFFFFFFFFFFF#64 = 0xFFFFFFFF#32 by decide, and_byte_ones, and_half_ones, and_word_ones]
  simp

/-- The row of WRREG: `SEL` and `OPND` are free (R76). -/
theorem row_sel_opnd_free (cw : Word64) (o : BitVec 8) :
    cw &&& 0xFF00FFFF00000000#64 = packWord o 0 0 ↔ opcOf cw = o ∧ zeroOf cw = 0 := by
  rw [and_eq_iff_fields, show opcOf 0xFF00FFFF00000000#64 = 0xFF#8 by decide,
    show selOf 0xFF00FFFF00000000#64 = 0x00#8 by decide, show zeroOf 0xFF00FFFF00000000#64 = 0xFFFF#16 by decide,
    show opndOf 0xFF00FFFF00000000#64 = 0x00000000#32 by decide, and_byte_ones, and_half_ones]
  simp

/-- A row whose operand is free: RB.PUSH and OSC.SAMPLE (R76). -/
theorem row_opnd_free (cw : Word64) (o : BitVec 8) :
    cw &&& 0xFFFFFFFF00000000#64 = packWord o 0 0 ↔ opcOf cw = o ∧ selOf cw = 0 ∧ zeroOf cw = 0 := by
  rw [and_eq_iff_fields, show opcOf 0xFFFFFFFF00000000#64 = 0xFF#8 by decide,
    show selOf 0xFFFFFFFF00000000#64 = 0xFF#8 by decide, show zeroOf 0xFFFFFFFF00000000#64 = 0xFFFF#16 by decide,
    show opndOf 0xFFFFFFFF00000000#64 = 0x00000000#32 by decide, and_byte_ones, and_byte_ones, and_half_ones]
  simp

/-- A row whose unit bit and operand are free: RB.GET and RB.GETF (R76). -/
theorem row_unit_opnd_free (cw : Word64) (o : BitVec 8) :
    cw &&& 0xFFFEFFFF00000000#64 = packWord o 0 0 ↔
      opcOf cw = o ∧ (selOf cw = 0x00#8 ∨ selOf cw = 0x01#8) ∧ zeroOf cw = 0 := by
  rw [and_eq_iff_fields, show opcOf 0xFFFEFFFF00000000#64 = 0xFF#8 by decide,
    show selOf 0xFFFEFFFF00000000#64 = 0xFE#8 by decide, show zeroOf 0xFFFEFFFF00000000#64 = 0xFFFF#16 by decide,
    show opndOf 0xFFFEFFFF00000000#64 = 0x00000000#32 by decide, and_byte_ones, and_half_ones]
  simp [and_unit_mask_iff]

theorem find?_cons_ite {α : Type} (q : α → Bool) (a : α) (l : List α) :
    (a :: l).find? q = if q a = true then some a else l.find? q := by
  cases h : q a <;> simp [h]

/-- The row tests of the opcode map, in its order, in terms of the fields (R75, R76). -/
theorem find_row (cw : Word64) :
    opcodeMap.find? (rowMatches cw) =
      if opcOf cw = 0x00#8 ∧ selOf cw = 0 ∧ zeroOf cw = 0 ∧ opndOf cw = 0 then opcodeMap[0]?
      else if opcOf cw = 0x01#8 ∧ zeroOf cw = 0 ∧ opndOf cw = 0 then opcodeMap[1]?
      else if opcOf cw = 0x02#8 ∧ zeroOf cw = 0 then opcodeMap[2]?
      else if opcOf cw = 0x10#8 ∧ selOf cw = 0 ∧ zeroOf cw = 0 then opcodeMap[3]?
      else if opcOf cw = 0x11#8 ∧ selOf cw = 0 ∧ zeroOf cw = 0 ∧ opndOf cw = 0 then opcodeMap[4]?
      else if opcOf cw = 0x12#8 ∧ (selOf cw = 0x00#8 ∨ selOf cw = 0x01#8) ∧ zeroOf cw = 0 then opcodeMap[5]?
      else if opcOf cw = 0x13#8 ∧ (selOf cw = 0x00#8 ∨ selOf cw = 0x01#8) ∧ zeroOf cw = 0 then opcodeMap[6]?
      else if opcOf cw = 0x14#8 ∧ selOf cw = 0 ∧ zeroOf cw = 0 ∧ opndOf cw = 0 then opcodeMap[7]?
      else if opcOf cw = 0x20#8 ∧ selOf cw = 0 ∧ zeroOf cw = 0 then opcodeMap[8]?
      else if opcOf cw = 0x21#8 ∧ selOf cw = 0 ∧ zeroOf cw = 0 ∧ opndOf cw = 0 then opcodeMap[9]?
      else if opcOf cw = 0x30#8 ∧ selOf cw = 0 ∧ zeroOf cw = 0 ∧ opndOf cw = 0 then opcodeMap[10]?
      else if opcOf cw = 0x31#8 ∧ selOf cw = 0 ∧ zeroOf cw = 0 ∧ opndOf cw = 0 then opcodeMap[11]?
      else none := by
  simp only [← row_all_fixed, ← row_sel_free, ← row_sel_opnd_free, ← row_opnd_free, ← row_unit_opnd_free,
    show packWord 0x00#8 0 0 = 0x0000000000000000#64 by decide,
    show packWord 0x01#8 0 0 = 0x0100000000000000#64 by decide,
    show packWord 0x02#8 0 0 = 0x0200000000000000#64 by decide,
    show packWord 0x10#8 0 0 = 0x1000000000000000#64 by decide,
    show packWord 0x11#8 0 0 = 0x1100000000000000#64 by decide,
    show packWord 0x12#8 0 0 = 0x1200000000000000#64 by decide,
    show packWord 0x13#8 0 0 = 0x1300000000000000#64 by decide,
    show packWord 0x14#8 0 0 = 0x1400000000000000#64 by decide,
    show packWord 0x20#8 0 0 = 0x2000000000000000#64 by decide,
    show packWord 0x21#8 0 0 = 0x2100000000000000#64 by decide,
    show packWord 0x30#8 0 0 = 0x3000000000000000#64 by decide,
    show packWord 0x31#8 0 0 = 0x3100000000000000#64 by decide]
  conv_lhs => simp only [opcodeMap, find?_cons_ite, rowMatches, beq_iff_eq, List.find?_nil]
  rfl

/-- The decoder's answer for the row found. -/
def rowResult (cw : Word64) (o : Option (Word64 × Word64 × (Word64 → Instr))) : Except Illegal Instr :=
  match o with
  | some row => .ok (row.2.2 cw)
  | none => .error (illegalReason cw)

/-- The decoder in terms of the four fields, in the order of the opcode map (R75, R76). -/
theorem decode_eq (cw : Word64) : decode cw =
      if opcOf cw = 0x00#8 ∧ selOf cw = 0 ∧ zeroOf cw = 0 ∧ opndOf cw = 0 then .ok .nop
      else if opcOf cw = 0x01#8 ∧ zeroOf cw = 0 ∧ opndOf cw = 0 then .ok (.rdreg (selOf cw))
      else if opcOf cw = 0x02#8 ∧ zeroOf cw = 0 then .ok (.wrreg (selOf cw) (opndOf cw))
      else if opcOf cw = 0x10#8 ∧ selOf cw = 0 ∧ zeroOf cw = 0 then .ok (.rbPush .dl (opndOf cw))
      else if opcOf cw = 0x11#8 ∧ selOf cw = 0 ∧ zeroOf cw = 0 ∧ opndOf cw = 0 then .ok (.rbPop .dl)
      else if opcOf cw = 0x12#8 ∧ (selOf cw = 0x00#8 ∨ selOf cw = 0x01#8) ∧ zeroOf cw = 0 then
        .ok (.rbGet (unitOf cw) (opndOf cw))
      else if opcOf cw = 0x13#8 ∧ (selOf cw = 0x00#8 ∨ selOf cw = 0x01#8) ∧ zeroOf cw = 0 then
        .ok (.rbGetf (unitOf cw) (opndOf cw))
      else if opcOf cw = 0x14#8 ∧ selOf cw = 0 ∧ zeroOf cw = 0 ∧ opndOf cw = 0 then .ok (.rbReset .dl)
      else if opcOf cw = 0x20#8 ∧ selOf cw = 0 ∧ zeroOf cw = 0 then .ok (.oscSample (opndOf cw))
      else if opcOf cw = 0x21#8 ∧ selOf cw = 0 ∧ zeroOf cw = 0 ∧ opndOf cw = 0 then .ok .oscReset
      else if opcOf cw = 0x30#8 ∧ selOf cw = 0 ∧ zeroOf cw = 0 ∧ opndOf cw = 0 then .ok .vibProcess
      else if opcOf cw = 0x31#8 ∧ selOf cw = 0 ∧ zeroOf cw = 0 ∧ opndOf cw = 0 then .ok .vibReset
      else .error (illegalReason cw) := by
  have h : decode cw = rowResult cw (opcodeMap.find? (rowMatches cw)) := rfl
  rw [h, find_row]
  simp only [apply_ite (rowResult cw)]
  rfl

/-- One test of the chain above, taken apart. -/
theorem ite_ok_iff {c : Prop} [Decidable c] {a i : Instr} {e : Except Illegal Instr} :
    (if c then .ok a else e) = .ok i ↔ (c ∧ a = i) ∨ (¬c ∧ e = .ok i) := by
  by_cases h : c <;> simp [h]

end Sys2Proof
end

