-- ==== Sys2Proof/Laws/PerInstr.lean ====
section
/-! SUPPORT. Statements about every instruction as syntax, one lemma per constructor. `ReservedBits`: the command word
carries the row's operation code, its `ZERO` field is zero, and a command that takes no operand leaves `OPND` zero
(30_encoding.md R70, R71, R76). -/

namespace Sys2Proof.Laws.ReservedBits

/-- The fixed fields of the command word of `i`. -/
def Statement (i : Instr) : Prop :=
  opcOf (encode i) = opcodeOf i ∧ zeroOf (encode i) = 0 ∧
    (operandOpcodes.contains (opcodeOf i) = false → opndOf (encode i) = 0)

theorem nop : Statement .nop := by
  unfold Statement
  decide

theorem rdreg (r : RegNum) : Statement (.rdreg r) := by simp [Statement, encode, opcodeOf]

theorem wrreg (r : RegNum) (v : Word) : Statement (.wrreg r v) := by
  simp [Statement, encode, opcodeOf, operandOpcodes]

theorem rbPush (u : RbUnit) (v : Word) : Statement (.rbPush u v) := by
  simp [Statement, encode, opcodeOf, operandOpcodes]

theorem rbPop (u : RbUnit) : Statement (.rbPop u) := by simp [Statement, encode, opcodeOf]

theorem rbGet (u : RbUnit) (o : Word) : Statement (.rbGet u o) := by
  simp [Statement, encode, opcodeOf, operandOpcodes]

theorem rbGetf (u : RbUnit) (f : Word) : Statement (.rbGetf u f) := by
  simp [Statement, encode, opcodeOf, operandOpcodes]

theorem rbReset (u : RbUnit) : Statement (.rbReset u) := by simp [Statement, encode, opcodeOf]

theorem oscSample (k : Word) : Statement (.oscSample k) := by
  simp [Statement, encode, opcodeOf, operandOpcodes]

theorem oscReset : Statement .oscReset := by
  unfold Statement
  decide

theorem vibProcess : Statement .vibProcess := by
  unfold Statement
  decide

theorem vibReset : Statement .vibReset := by
  unfold Statement
  decide

end Sys2Proof.Laws.ReservedBits
end

