-- ==== Sys2Proof/Tests/Slice0.lean ====
section
/-! SUPPORT. Tests of single steps and words, each expected value from spec/95_test_vectors.md or worked out by hand
from the rule named, and for every obligation with hypotheses a witness that meets them. -/

namespace Sys2Proof.Tests

open Sys2Proof Sys2Proof.Machine

/-- A block after reset with a configuration, a signal memory, the three argument registers and inputs waiting. -/
def block (c : Cfg) (m : SigMem) (base ch len : Word) (ins : List HostInput) : State :=
  { State.resetOf c m with sigBase := base, chCount := ch, dataLen := len, inputs := ins }

/-- `CFG_A` after reset with one command word waiting. -/
def waiting (cw : Word64) : State := block Config.cfgA [] 0 0 0 [.command cw]

/-- `CFG_A` halted by ILLEGAL_CMD, with one command word waiting. -/
def stopped (cw : Word64) : State := { waiting cw with status := 0x00000101#32 }

/-- The ramp of program P1: `x[n] = (n + 1) * 65536`. -/
def ramp (n : Nat) : SigMem := (List.range n).map (fun k => (k, BitVec.ofNat 32 ((k + 1) * 65536)))

/-- The state of a next state. -/
def after (r : Result) : Option State :=
  match r with
  | .next t => some t
  | .fault _ => none
  | .refused _ => none

/-- The responses, STATUS and `cp` of a next state. -/
def seen (r : Result) : Option (List Word64 × Word × Nat) :=
  (after r).map (fun t => (t.responses, t.status, t.cp))

/-- `CFG_A` with every slot of the delay line filled by pushes of 1.0 to 14.0, as program P3 leaves it before command
36: `rd = 13`, `wr = 1`, slot 0 holding 15.0. -/
def p3Line : RingBuf :=
  { mem := [0x000F0000#32, 0x00020000#32, 0x00030000#32, 0x00040000#32, 0x00050000#32, 0x00060000#32, 0x00070000#32,
      0x00080000#32, 0x00090000#32, 0x000A0000#32, 0x000B0000#32, 0x000C0000#32, 0x000D0000#32, 0x000E0000#32]
    rd := 13, wr := 1 }

/-- `CFG_A` with that delay line and one command word waiting. -/
def p3 (cw : Word64) : State := { waiting cw with dl := p3Line }

/-! WellFormed: the unit check of R80. -/

theorem test_wellFormed_push_lut : (Instr.rbPush .lut 5).wellFormed = false := by decide
theorem test_wellFormed_pop_lut : (Instr.rbPop .lut).wellFormed = false := by decide
theorem test_wellFormed_reset_lut : (Instr.rbReset .lut).wellFormed = false := by decide
theorem test_wellFormed_push_dl : (Instr.rbPush .dl 5).wellFormed = true := by decide

/-! Decoding: the words of V4, V5 and P3, written out there from the encoding. -/

theorem test_decode_nop : decode 0x0000000000000000#64 = .ok .nop := by decide
theorem test_decode_rdreg : decode 0x0108000000000000#64 = .ok (.rdreg 0x08#8) := by decide
theorem test_decode_rdreg_reserved : decode 0x01FF000000000000#64 = .ok (.rdreg 0xFF#8) := by decide
theorem test_decode_wrreg : decode 0x0203000000000014#64 = .ok (.wrreg 0x03#8 20#32) := by decide
theorem test_decode_rbPush : decode 0x1000000000010000#64 = .ok (.rbPush .dl 0x00010000#32) := by decide
theorem test_decode_rbPop : decode 0x1100000000000000#64 = .ok (.rbPop .dl) := by decide
theorem test_decode_rbGet_dl : decode 0x120000000000000E#64 = .ok (.rbGet .dl 14#32) := by decide
theorem test_decode_rbGet_lut : decode 0x1201000000000006#64 = .ok (.rbGet .lut 6#32) := by decide
theorem test_decode_rbGetf_dl : decode 0x1300000000004000#64 = .ok (.rbGetf .dl 0x00004000#32) := by decide
theorem test_decode_rbGetf_lut : decode 0x1301000000098000#64 = .ok (.rbGetf .lut 0x00098000#32) := by decide
theorem test_decode_rbReset : decode 0x1400000000000000#64 = .ok (.rbReset .dl) := by decide
theorem test_decode_oscSample : decode 0x2000000000000002#64 = .ok (.oscSample 2#32) := by decide
theorem test_decode_oscReset : decode 0x2100000000000000#64 = .ok .oscReset := by decide
theorem test_decode_vibProcess : decode 0x3000000000000000#64 = .ok .vibProcess := by decide
theorem test_decode_vibReset : decode 0x3100000000000000#64 = .ok .vibReset := by decide

/-- The illegal words of V4, with the case of R78 each falls under. -/
theorem test_decode_illegal :
    decode 0xFFFFFFFFFFFFFFFF#64 = .error .reservedOpcode ∧ decode 0x4000000000000000#64 = .error .reservedOpcode ∧
    decode 0x0300000000000000#64 = .error .reservedOpcode ∧ decode 0x0000000100000000#64 = .error .nonzeroZero ∧
    decode 0x0001000000000000#64 = .error .badSelect ∧ decode 0x0000000000000001#64 = .error .nonzeroOperand ∧
    decode 0x0100000000000001#64 = .error .nonzeroOperand ∧ decode 0x0108000100000000#64 = .error .nonzeroZero := by
  decide

theorem test_decode_illegal_units :
    decode 0x1001000000000005#64 = .error .badSelect ∧ decode 0x1101000000000000#64 = .error .badSelect ∧
    decode 0x1401000000000000#64 = .error .badSelect ∧ decode 0x1202000000000000#64 = .error .badSelect ∧
    decode 0x2001000000000000#64 = .error .badSelect ∧ decode 0x3000000000000001#64 = .error .nonzeroOperand ∧
    decode 0x3100000080000000#64 = .error .nonzeroOperand := by
  decide

/-- The encoder gives the words of V4. -/
theorem test_encode :
    encode (.wrreg 0x03#8 20#32) = 0x0203000000000014#64 ∧
    encode (.rbGetf .lut 0x00098000#32) = 0x1301000000098000#64 ∧ encode .vibReset = 0x3100000000000000#64 := by
  decide

theorem test_decodeTableWord : decodeTableWord 64 0x0108000000000000 = some (.rdreg 0x08#8) := by decide

theorem test_withFetchWord :
    after (step (State.reset.withFetchWord 64 0x0108000000000000)) =
      some { State.reset with responses := [0x0000000041534532#64], cp := 1 } := by decide

/-! One step of each command. -/

/-- V5. -/
theorem test_nop : seen (step (waiting 0)) = some ([0#64], 0#32, 1) := by decide

/-- P4, command 12: a halted block executes NOP. -/
theorem test_nop_halted : seen (step (stopped 0)) = some ([0#64], 0x00000101#32, 1) := by decide

/-- V5: BUF_LEN of `CFG_A`. -/
theorem test_rdreg : seen (step (waiting 0x0109000000000000#64)) = some ([0x000000000000000E#64], 0#32, 1) := by decide

/-- V9.3. -/
theorem test_rdreg_reserved :
    seen (step (waiting 0x010F000000000000#64)) = some ([0x0200000000000000#64], 0x00000201#32, 1) := by decide

/-- V5: accepted, checked only by VIB.PROCESS. -/
theorem test_wrreg :
    (after (step (waiting 0x02010000FFFFFFFF#64))).map (fun t => (t.sigBase, t.responses)) =
      some (0xFFFFFFFF#32, [0#64]) := by decide

/-- V9.1. -/
theorem test_wrreg_readOnly :
    seen (step (waiting 0x0200000000000001#64)) = some ([0x0200000000000000#64], 0x00000201#32, 1) := by decide

/-- P3, command 19: the push into a full buffer overwrites the oldest word. -/
theorem test_rbPush :
    (after (step { p3 0x1000000000100000#64 with dl := { p3Line with wr := 13 } })).map
      (fun t => (t.dl.slot 13, t.dl.wr, t.dl.rd)) = some (0x00100000#32, 0, 13) := by decide

/-- V9.11. -/
theorem test_rbPush_lut :
    seen (step (waiting 0x1001000000000005#64)) = some ([0x0100000000000000#64], 0x00000101#32, 1) := by decide

/-- P3, commands 0 and 1: a pop of a slot never pushed returns its zero and still advances. -/
theorem test_rbPop_empty :
    (after (step (waiting 0x1100000000000000#64))).map (fun t => (t.responses, t.dl.rd)) = some ([0#64], 1) := by decide

/-- The read cursor wraps from the last slot (R113). -/
theorem test_rbPop_wrap :
    (after (step (p3 0x1100000000000000#64))).map (fun t => (t.responses, t.dl.rd, t.dl.slot 13)) =
      some ([0x00000000000E0000#64], 0, 0x000E0000#32) := by decide

/-- P3, command 38: the largest offset. -/
theorem test_rbGet : seen (step (p3 0x12000000FFFFFFFF#64)) = some ([0x0000000000030000#64], 0#32, 1) := by decide

/-- P3, command 44. -/
theorem test_rbGet_lut : seen (step (p3 0x1201000000000006#64)) = some ([0x00000000FFFF0000#64], 0#32, 1) := by decide

/-- P3, command 39: slot 13 and slot 0, across the end of the storage. -/
theorem test_rbGetf : seen (step (p3 0x1300000000008000#64)) = some ([0x00000000000E8000#64], 0#32, 1) := by decide

/-- V9.10. -/
theorem test_rbGetf_negative :
    seen (step (waiting 0x1300000080000000#64)) = some ([0x0300000000000000#64], 0x00000301#32, 1) := by decide

/-- P3, commands 46 to 49. -/
theorem test_rbReset :
    (after (step (p3 0x1400000000000000#64))).map (fun t => t.dl) = some (RingBuf.new 14) := by decide

/-- V7: the largest index, `4294967295 mod 10 = 5`. -/
theorem test_oscSample :
    seen (step (waiting 0x20000000FFFFFFFF#64)) = some ([0x00000000FFFF4AFB#64], 0#32, 1) := by decide

/-- V7: `CFG_A2`, index 5. -/
theorem test_oscSample_double :
    seen (step (block Config.cfgA2 [] 0 0 0 [.command 0x2000000000000005#64])) =
      some ([0x00000000FFFE95F6#64], 0#32, 1) := by decide

/-- Section 0 of the vectors: the table of `CFG_A2`, filled over an emptied one. -/
theorem test_oscReset :
    (after (step { block Config.cfgA2 [] 0 0 0 [.command 0x2100000000000000#64] with lut := RingBuf.new 10 })).map
      (fun t => t.lut) =
    some { mem := [0x00000000#32, 0x00016A0A#32, 0x00020000#32, 0x00016A0A#32, 0x00000000#32, 0xFFFE95F6#32,
             0xFFFE0000#32, 0xFFFE95F6#32, 0x00000000#32, 0x00016A0A#32], rd := 0, wr := 0 } := by decide

/-- Program P6, command 4: `L = B - 1`, `CFG_A0`, the region ending at the end of memory. -/
theorem test_vibProcess :
    (after (step (block Config.cfgA0 ((List.range 13).map (fun k => (51 + k, BitVec.ofNat 32 ((k + 1) * 65536)))) 51 1 13
      [.command 0x3000000000000000#64]))).map (fun t => ([t.dl.rd, t.dl.wr],
        [t.dl.slot 12, t.word 51, t.word 52, t.word 53, t.word 63])) =
      some ([13, 12], [0x00010000#32, 0#32, 0#32, 0x00010000#32, 0x000B0000#32]) := by decide +kernel

/-- Program P4, command 3: NEG_OFFSET in the middle, `CFG_A2`. -/
theorem test_vibProcess_negOffset :
    (after (step (block Config.cfgA2 (ramp 14) 0 1 14 [.command 0x3000000000000000#64]))).map
      (fun t => ([t.dl.rd, t.dl.wr], [t.status, t.faultIdx, t.word 7, t.word 8, t.word 13])) =
      some ([6, 5], [0x00000301#32, 7#32, 0x00080000#32, 0x00070000#32, 0x00092BEC#32]) := by decide +kernel

/-- A delay line of zeros but for the word 7 in the slot before the write cursor, with the lag `lag`. -/
def staleLine (lag : Nat) : RingBuf := { mem := List.replicate 13 0 ++ [7], rd := lag, wr := 0 }

/-- R158, R217, by hand, `CFG_A0` (offset 2 everywhere), lag 11: index 15 reads the slot not pushed yet, index 14 wraps to
tape position 0, `x[15]`. -/
theorem test_vibProcess_stale :
    (after (exec .vibProcess { block Config.cfgA0 (ramp 16) 0 1 16 [] with dl := staleLine 11 })).map
      (fun t => [t.word 15, t.word 14]) = some [7#32, 0x00100000#32] := by decide +kernel

/-- R155, P5 commands 8 and 9. -/
theorem test_vibReset :
    (after (step (p3 0x3100000000000000#64))).map (fun t => (t.dl, t.responses)) =
      some (RingBuf.new 14, [0#64]) := by decide

/-- P4, command 9: a halted block refuses VIB.RESET with STATUS. -/
theorem test_vibReset_halted :
    (after (step { stopped 0x3100000000000000#64 with dl := p3Line })).map (fun t => (t.dl, t.responses)) =
      some (p3Line, [0xFF00000000000101#64]) := by decide

/-! Faults of the checks (V9.5, V9.6, V9.9) and the host's inputs. -/

theorem test_shortSignal :
    seen (step (block Config.cfgA [] 0 1 12 [.command 0x3000000000000000#64])) =
      some ([0x0400000000000000#64], 0x00000401#32, 1) := by decide

theorem test_badRange :
    seen (step (block Config.cfgA [] 52 1 13 [.command 0x3000000000000000#64])) =
      some ([0x0500000000000000#64], 0x00000501#32, 1) := by decide

theorem test_badRange_exact :
    seen (step (block Config.cfgA [] 0xFFFFFFFF 0xFFFFFFFF 0xFFFFFFFF [.command 0x3000000000000000#64])) =
      some ([0x0500000000000000#64], 0x00000501#32, 1) := by decide

theorem test_rst :
    after (step { stopped 0 with dl := p3Line, cp := 9, inputs := [.rst] }) = some State.reset := by decide

theorem test_hostWrite :
    (after (step (block Config.cfgA [] 0 0 0 [.memWrite 63 7]))).map (fun t => t.sig) = some [(63, 7#32)] := by decide

/-! Arithmetic: V1, V2, V3 and the assembler of R82, R83. -/

theorem test_fxmul : fxmul (-46341) 32768 = -23170 ∧ fxmul (-1) 32768 = 0 ∧ fxmul 257 49152 = 193 := by decide

theorem test_lerp :
    lerp 0 (-1) 0x8000 = 0 ∧ lerp 1048576 983040 0x95F6 = 1010186 ∧
    lerp (-2147483648) 2147483647 0xFFFF = 2147418111 := by decide

theorem test_qWord : qWord (1 / 10) = 0x0000199A#32 ∧ qWord (-1 / 2) = 0xFFFF8000#32 := by decide +kernel

theorem test_assemble :
    assemble "RB.GETF lut, q(9.5)\nRDREG STATUS ; note".toList =
      some [0x1301000000098000#64, 0x0100000000000000#64] := by decide +kernel

theorem test_assemble_rejects : assemble "RB.PUSH lut, 5".toList = none := by decide +kernel

/-! Witnesses: for every obligation with hypotheses, a concrete state and operands that meet all of them. -/

/-- Every block after reset with any arguments and inputs meets the invariant. -/
theorem block_inv (c : Cfg) (m : SigMem) (base ch len : Word) (ins : List HostInput) (h1 : c.ok = true)
    (h2 : m.wf = true) (h3 : m.inRange c.sigWords = true) : (block c m base ch len ins).Inv :=
  ⟨h1, RingBuf.shaped_new (by have := cfg_b_ge c; show 0 < c.b; omega), rfl, by show statusLegal 0 = true; decide,
    fun _ => ⟨rfl, rfl⟩, h2, h3⟩

/-- Program P1's block: one channel of 16 samples, `CFG_A`, `L >= B`. -/
def p1 : State := block Config.cfgA (ramp 16) 0 1 16 [.command 0x3000000000000000#64]

/-- A block of `L = B - 1` samples. -/
def shortest : State := block Config.cfgA (ramp 13) 0 1 13 []

/-- Program P4's block, whose offset at index 7 is negative. -/
def p4 : State := block Config.cfgA2 (ramp 14) 0 1 14 []

/-- A block of amplitude 0 with two channels of 20 samples, as in program P2. -/
def p2 : State := block Config.cfgA0 (ramp 40) 0 2 20 []

theorem p1_inv : p1.Inv := block_inv _ _ _ _ _ _ (by decide) (by decide) (by decide)
theorem shortest_inv : shortest.Inv := block_inv _ _ _ _ _ _ (by decide) (by decide) (by decide)
theorem p4_inv : p4.Inv := block_inv _ _ _ _ _ _ (by decide) (by decide) (by decide)
theorem p2_inv : p2.Inv := block_inv _ _ _ _ _ _ (by decide) (by decide) (by decide)
theorem waiting_inv (cw : Word64) : (waiting cw).Inv := block_inv _ _ _ _ _ _ (by decide) (by decide) (by decide)

theorem p1_canProcess : p1.CanProcess := ⟨by decide, by decide, by decide, by decide⟩
theorem shortest_canProcess : shortest.CanProcess := ⟨by decide, by decide, by decide, by decide⟩
theorem p4_canProcess : p4.CanProcess := ⟨by decide, by decide, by decide, by decide⟩
theorem p2_canProcess : p2.CanProcess := ⟨by decide, by decide, by decide, by decide⟩

theorem p1_offsets : ∀ n, n < p1.dataLen.toNat → 0 ≤ p1.delayAt n := by decide +kernel
theorem shortest_offsets : ∀ n, n < shortest.dataLen.toNat → 0 ≤ shortest.delayAt n := by decide +kernel

theorem witness_DecodeOfEncodeIsIdentity : (Instr.rbGetf .lut 0x80000000).wellFormed = true := by decide

theorem witness_EncodeOfDecodeIsIdentity : decode 0x1301000080000000#64 = .ok (.rbGetf .lut 0x80000000) := by decide

theorem witness_DecoderSelectsTheOneMatchingRow :
    (0 < opcodeMap.length ∧ 11 < opcodeMap.length ∧ 0 ≠ 11) ∧
    (∃ row ∈ opcodeMap, 0x3100000000000000#64 &&& row.2.1 = row.1) ∧
    (∀ row ∈ opcodeMap, 0x1001000000000005#64 &&& row.2.1 ≠ row.1) ∧
    (waiting 0x1001000000000005#64).inputs = .command 0x1001000000000005#64 :: [] ∧
    (waiting 0x1001000000000005#64).halted = false := by
  refine ⟨by decide, ⟨_, List.getElem_mem (show 11 < opcodeMap.length by decide), by decide⟩, ?_, by decide, by decide⟩
  simp [opcodeMap]

/-- One word for each case of R78, the smallest value outside what the field may hold. -/
theorem witness_IllegalEncodingsRaiseIllegalCmd :
    (decode 0x0300000000000000#64).toOption = none ∧
    (waiting 0x0300000000000000#64).inputs = .command 0x0300000000000000#64 :: [] ∧
    (waiting 0x0300000000000000#64).halted = false ∧
    opcOf 0x0300000000000000#64 ∉ [0x00#8, 0x01#8, 0x02#8, 0x10#8, 0x11#8, 0x12#8, 0x13#8, 0x14#8, 0x20#8, 0x21#8,
      0x30#8, 0x31#8] ∧
    zeroOf 0x0000000100000000#64 ≠ 0 ∧
    (opcOf 0x3100000080000000#64 = 0x31#8 ∧ opndOf 0x3100000080000000#64 ≠ 0) ∧
    (opcOf 0x2001000000000000#64 = 0x20#8 ∧ selOf 0x2001000000000000#64 ≠ 0) ∧
    (opcOf 0x1202000000000000#64 = 0x12#8 ∧ 2 ≤ (selOf 0x1202000000000000#64).toNat) ∧
    0x06#8 ∉ [0x00#8, 0x01#8, 0x02#8, 0x03#8, 0x04#8, 0x05#8, 0x08#8, 0x09#8, 0x0A#8, 0x0B#8, 0x0C#8, 0x0D#8, 0x0E#8,
      0x10#8, 0x11#8, 0x12#8, 0x13#8] := by decide

/-- A table that is not the fill, so that OSC.RESET changes it. -/
theorem witness_MutatingRingCommandsExistOnDlOnly :
    (opcOf 0x1401000000000000#64 = 0x14#8 ∧ selOf 0x1401000000000000#64 = 0x01#8 ∧ (waiting 0).halted = false) ∧
    ∃ t, exec .oscReset { waiting 0 with lut := RingBuf.new 10 } = .next t ∧
      t.lut ≠ (({ waiting 0 with lut := RingBuf.new 10 } : State)).lut :=
  ⟨by decide, _, rfl, by decide⟩

theorem witness_StepRunsTheDecodedCommand :
    p1.inputs = .command 0x3000000000000000#64 :: [] ∧ decode 0x3000000000000000#64 = .ok .vibProcess := by decide

theorem witness_EveryCommandAnswersExactlyOnce :
    (stopped 0xFFFFFFFFFFFFFFFF#64).inputs = .command 0xFFFFFFFFFFFFFFFF#64 :: [] := by decide

theorem witness_IdleBlockHoldsItsState : shortest.inputs = [] := by decide

/-- A halted block with each kind of word: NOP, RDREG of a defined register, a word that is neither. -/
theorem witness_HaltedBlockOnlyAnswers :
    ((stopped 0).inputs = .command 0 :: [] ∧ (stopped 0).halted = true ∧ decode 0 = .ok .nop) ∧
    ((stopped 0x0104000000000000#64).inputs = .command 0x0104000000000000#64 :: [] ∧
      decode 0x0104000000000000#64 = .ok (.rdreg 0x04#8) ∧ Reg.faultCh.number = 0x04#8) ∧
    ((stopped 0x0106000000000000#64).inputs = .command 0x0106000000000000#64 :: [] ∧
      decode 0x0106000000000000#64 ≠ .ok .nop ∧ ∀ x : Reg, decode 0x0106000000000000#64 ≠ .ok (.rdreg x.number)) := by
  refine ⟨by decide, by decide, by decide, by decide, fun x => by cases x <;> decide⟩

/-- A step that enters the halted state, one that stays in it, and one that leaves it. -/
theorem witness_HaltEnteredByFaultLeftByReset :
    (∃ t, step (waiting 0x0300000000000000#64) = .next t ∧ (waiting 0x0300000000000000#64).halted = false ∧
      t.halted = true) ∧
    ((∃ t, step (stopped 0) = .next t) ∧ (stopped 0).halted = true ∧ ∀ rest, (stopped 0).inputs ≠ .rst :: rest) ∧
    (∃ t, step { stopped 0 with inputs := [.rst] } = .next t ∧
      (({ stopped 0 with inputs := [.rst] } : State)).inputs = .rst :: []) :=
  ⟨⟨_, rfl, by decide, by decide⟩, ⟨⟨_, rfl⟩, by decide, fun rest h => by cases h⟩, ⟨_, rfl, rfl⟩⟩

/-- Each piece of state is changed by some command: the premises of the clauses. -/
theorem witness_OnlyTheNamedCommandsChangeEachPiece :
    (∃ t, exec (.rbPush .dl 5) (waiting 0) = .next t ∧ t.dl ≠ (waiting 0).dl) ∧
    (∃ t, exec (.wrreg 0x01#8 7) (waiting 0) = .next t ∧ t.sigBase ≠ (waiting 0).sigBase) ∧
    (∃ t, exec (.wrreg 0x02#8 7) (waiting 0) = .next t ∧ t.chCount ≠ (waiting 0).chCount) ∧
    (∃ t, exec (.wrreg 0x03#8 7) (waiting 0) = .next t ∧ t.dataLen ≠ (waiting 0).dataLen) ∧
    (∃ t, exec (.wrreg 0x00#8 7) (waiting 0) = .next t ∧ t.status ≠ (waiting 0).status) :=
  ⟨⟨_, rfl, by decide⟩, ⟨_, rfl, by decide⟩, ⟨_, rfl, by decide⟩, ⟨_, rfl, by decide⟩, ⟨_, rfl, by decide⟩⟩

/-- VIB.PROCESS changes signal memory, OSC.RESET a table that is not the fill. -/
theorem witness_OnlyTheNamedCommandsChangeEachPiece_memory :
    ((after (exec .vibProcess p1)).map (fun t => decide (t.sig ≠ p1.sig))) = some true ∧
    (∃ t, exec .oscReset { waiting 0 with lut := RingBuf.new 10 } = .next t ∧
      t.lut ≠ (({ waiting 0 with lut := RingBuf.new 10 } : State)).lut) :=
  ⟨by decide +kernel, _, rfl, by decide⟩

theorem witness_CommandsIgnoreCpAndEarlierResponses : ∃ t, exec (.rdreg 0x10#8) (p3 0) = .next t := ⟨_, rfl⟩

theorem witness_NopAnswersOkAlways : opcOf 0x0000000000000001#64 = 0x00#8 ∧ 0x0000000000000001#64 ≠ 0#64 := by decide

/-- A reserved number on a running and on a halted block, and an illegal RDREG word of each kind. -/
theorem witness_RdregAnswersEveryRegister :
    (0x14#8 ∉ [0x00#8, 0x01#8, 0x02#8, 0x03#8, 0x04#8, 0x05#8, 0x08#8, 0x09#8, 0x0A#8, 0x0B#8, 0x0C#8, 0x0D#8, 0x0E#8,
      0x10#8, 0x11#8, 0x12#8, 0x13#8] ∧ (waiting 0).halted = false ∧ (stopped 0).halted = true) ∧
    (opcOf 0x0108000100000000#64 = 0x01#8 ∧ zeroOf 0x0108000100000000#64 ≠ 0) ∧
    (opcOf 0x0100000000000001#64 = 0x01#8 ∧ opndOf 0x0100000000000001#64 ≠ 0) := by decide

/-- The numbers next to the writable ones, 0x00 and 0x04. -/
theorem witness_WrregWritesOneArgumentRegister :
    (waiting 0).halted = false ∧ 0x00#8 ∉ [0x01#8, 0x02#8, 0x03#8] ∧ 0x04#8 ∉ [0x01#8, 0x02#8, 0x03#8] ∧
    opcOf 0x0201000100000000#64 = 0x02#8 ∧ zeroOf 0x0201000100000000#64 ≠ 0 := by decide

theorem witness_RbPushStoresAtWriteCursor :
    (p3 0).halted = false ∧ (p3 0).dl.mem.length = (p3 0).cfg.b ∧
    opcOf 0x1001000000000005#64 = 0x10#8 ∧ selOf 0x1001000000000005#64 ≠ 0 := by decide

/-- The read cursor at the last slot. -/
theorem witness_RbPopAnswersSlotAtReadCursor :
    (p3 0).halted = false ∧ (p3 0).dl.Shaped (p3 0).cfg.b ∧
    opcOf 0x1100000000000001#64 = 0x11#8 ∧ opndOf 0x1100000000000001#64 ≠ 0 :=
  ⟨by decide, ⟨by decide, by decide, by decide⟩, by decide, by decide⟩

theorem witness_RbGetAnswersSlotAtOffset :
    (p3 0).halted = false ∧ (p3 0).dl.Shaped (p3 0).cfg.b ∧ (p3 0).lut.Shaped (p3 0).cfg.p ∧
    opcOf 0x1202000000000000#64 = 0x12#8 ∧ 2 ≤ (selOf 0x1202000000000000#64).toNat :=
  ⟨by decide, ⟨by decide, by decide, by decide⟩, ⟨by decide, by decide, by decide⟩, by decide, by decide⟩

/-- The offsets -1 and 0, the highest negative one and the lowest that is not. -/
theorem witness_RbGetfInterpolatesTwoSlots :
    (p3 0).halted = false ∧ (0xFFFFFFFF#32).toInt < 0 ∧ 0 ≤ (0x00000000#32).toInt ∧ 0 ≤ (0x7FFFFFFF#32).toInt ∧
    (p3 0).dl.Shaped (p3 0).cfg.b ∧ (p3 0).lut.Shaped (p3 0).cfg.p ∧
    opcOf 0x1302000000000000#64 = 0x13#8 ∧ 2 ≤ (selOf 0x1302000000000000#64).toNat :=
  ⟨by decide, by decide, by decide, by decide, ⟨by decide, by decide, by decide⟩, ⟨by decide, by decide, by decide⟩,
    by decide, by decide⟩

theorem witness_RbResetZeroesDelayLine :
    (p3 0).halted = false ∧ (p3 0).dl.mem.length = (p3 0).cfg.b ∧ (stopped 0).halted = true ∧
    opcOf 0x1401000000000000#64 = 0x14#8 ∧ selOf 0x1401000000000000#64 ≠ 0 := by decide

theorem witness_RingCursorsCountOperations : 0 < p3Line.mem.length := by decide

/-- A buffer of two slots after push 5, push 6, pop, push 7: full, slot 0 rewritten; and one slot never pushed. -/
theorem witness_RingContentIsLastWordsPushed :
    0 < (RingBuf.new 2).mem.length ∧
    (let ops := [RingOp.push 5, .push 6, .pop, .push 7]
     (2 < (pushedWords ops).length ∧ 2 % 2 = 0 ∧
       ∀ t', t' < (pushedWords ops).length → 2 < t' → t' % 2 ≠ 0) ∧
     (popCount ops + 1 < (pushedWords ops).length ∧ (pushedWords ops).length - (popCount ops + 1) ≤ 2) ∧
     (popCount ops < (pushedWords ops).length ∧ (pushedWords ops).length - popCount ops ≤ 2) ∧
     (pushedWords ops).length = popCount ops + 2) ∧
    (∀ t, t < (pushedWords [RingOp.push 5]).length → t % 2 ≠ 1) := by decide

/-- Parameters whose normalized frequency is 1: one table entry, width 0. -/
noncomputable def tinyParams : Params :=
  { fs := 1, fMod := 1 / (2 * Real.pi), widthS := 0, ampReal := 1, sigWords := 64 }

/-- What they elaborate to. -/
def tiny : Cfg := { fs := 1, w := 0, d := 0, p := 1, sinRom := [0], amp := 65536, sigWords := 64 }

theorem tiny_elaborated : tiny.ElaboratedFrom tinyParams := by
  have hpi := Real.pi_ne_zero
  refine ⟨1, ?_, rfl, ?_, ?_, ?_, ?_, ?_, rfl⟩
  · simp only [Params.IsOmega, tinyParams]
    push_cast
    field_simp
  · norm_num [tiny, tinyParams, roundHalfAway]
  · norm_num [tiny, tinyParams, roundHalfAway]
  · norm_num [tiny, tinyParams, roundHalfAway]
  · norm_num [tiny, List.range_succ, quant]
  · norm_num [tiny, tinyParams, quant]

theorem tiny_OK : tiny.OK := by
  refine ⟨by decide, tinyParams, ⟨le_rfl, ?_, le_rfl, by decide⟩, tiny_elaborated⟩
  have := Real.pi_pos
  simp only [tinyParams]
  positivity

theorem witness_OscSampleAnswersTableEntry :
    ((waiting 0).Inv ∧ (waiting 0).halted = false) ∧
    ((block tiny [] 0 0 0 []).Inv ∧ (block tiny [] 0 0 0 []).cfg.OK ∧ (block tiny [] 0 0 0 []).halted = false) ∧
    (p2.Inv ∧ p2.cfg.amp = 0 ∧ p2.halted = false) ∧
    (opcOf 0x2001000000000000#64 = 0x20#8 ∧ selOf 0x2001000000000000#64 ≠ 0) :=
  ⟨⟨waiting_inv 0, by decide⟩, ⟨block_inv _ _ _ _ _ _ (by decide) (by decide) (by decide), tiny_OK, by decide⟩,
    ⟨p2_inv, by decide, by decide⟩, by decide, by decide⟩

theorem witness_OscResetFillsTable :
    (waiting 0).halted = false ∧ (waiting 0).Inv ∧ opcOf 0x2100000100000000#64 = 0x21#8 ∧
    zeroOf 0x2100000100000000#64 ≠ 0 :=
  ⟨by decide, waiting_inv 0, by decide, by decide⟩

theorem witness_SoftResetsOfTableAreInvisible : p1.Inv ∧ p1.halted = false := ⟨p1_inv, by decide⟩

/-- One configuration for each clause: amplitude 0, 1.0 and -1.0. -/
theorem witness_SamplesAreBoundedByAmplitude :
    (Config.cfgA0.ok = true ∧ Config.cfgA0.amp = 0) ∧ (Config.cfgA.ok = true ∧ Config.cfgA.amp = 65536) ∧
    (({ Config.cfgA with amp := -65536 } : Cfg).ok = true ∧ ({ Config.cfgA with amp := -65536 } : Cfg).amp = -65536) := by
  decide

theorem witness_FxmulRoundsToNearest :
    (-65536 : Int) ≤ 65536 ∧ (65536 : Int) ≤ 65536 ∧ -(2 ^ 31 - 1) ≤ (2147483647 : Int) ∧
    (2147483647 : Int) ≤ 2 ^ 31 - 1 := by decide

theorem witness_LerpObeysItsLaws :
    (0 : Int) ≤ 0 ∧ (0 : Int) ≤ 65535 ∧ (65535 : Int) ≤ 65535 ∧ (-1 : Int) ≤ 1 := by decide

/-- One state for each check: no samples, the longest short signal, the first base out of range. -/
theorem witness_VibProcessChecksInOrder :
    (let s := block Config.cfgA [] 0xFFFFFFFF 5 0 []
     s.halted = false ∧ (s.chCount = 0 ∨ s.dataLen = 0)) ∧
    (let s := block Config.cfgA [] 0 1 12 []
     s.halted = false ∧ s.chCount ≠ 0 ∧ s.dataLen ≠ 0 ∧ s.dataLen.toNat < s.cfg.b - 1) ∧
    (let s := block Config.cfgA [] 52 1 13 []
     s.halted = false ∧ s.chCount ≠ 0 ∧ s.dataLen ≠ 0 ∧ s.cfg.b - 1 ≤ s.dataLen.toNat ∧
      s.cfg.sigWords < s.sigBase.toNat + s.chCount.toNat * s.dataLen.toNat) := by decide

/-- Two channels of exactly `B` samples. -/
def atCapacity : State := block Config.cfgA (ramp 28) 0 2 14 []

/-- A run at each boundary: `L = B` and `L = B - 1`. -/
theorem witness_VibProcessEndState :
    (atCapacity.Inv ∧ atCapacity.CanProcess ∧ (∀ n, n < atCapacity.dataLen.toNat → 0 ≤ atCapacity.delayAt n) ∧
      atCapacity.dataLen.toNat = atCapacity.cfg.b) ∧
    (shortest.Inv ∧ shortest.CanProcess ∧ (∀ n, n < shortest.dataLen.toNat → 0 ≤ shortest.delayAt n) ∧
      shortest.dataLen.toNat = shortest.cfg.b - 1) :=
  ⟨⟨block_inv _ _ _ _ _ _ (by decide) (by decide) (by decide), ⟨by decide, by decide, by decide, by decide⟩,
    by decide +kernel, by decide⟩, shortest_inv, shortest_canProcess, shortest_offsets, by decide⟩

/-- `CFG_A` with 18 samples: its last tail index is 6, its seam is index 5, its first body index is 4. -/
def seam : State := block Config.cfgA (ramp 18) 0 1 18 []

/-- Program P1's signal over a delay line with the lag 12: the tap `i + 1 = 1` of index 15 is past the valid reads and
reaches the slot before the write cursor. -/
def stale : State := { block Config.cfgA (ramp 16) 0 1 16 [] with dl := staleLine 12 }

/-- The premises of the closed form at those three indices of channel 0, whose lag is 0; and those of the general form at
an index whose second read is not valid, the slot not pushed yet, and at one whose read wraps to the tape's start. -/
theorem witness_VibProcessClosedForm :
    (seam.Inv ∧ seam.CanProcess ∧ ∀ n, n < seam.dataLen.toNat → 0 ≤ seam.delayAt n) ∧
    (0 < seam.chCount.toNat ∧ 0 = (seam.lag + 0) % seam.cfg.b) ∧
    (6 < seam.dataLen.toNat ∧ 0 = (seam.delayAt 6 / 65536).toNat ∧ 11 = seam.dataLen.toNat - 1 - 6 ∧
      0 + 0 + 1 ≤ seam.cfg.b - 2 ∧ 0 + 11 + 0 + 1 ≤ seam.cfg.b - 2) ∧
    (5 < seam.dataLen.toNat ∧ 0 = (seam.delayAt 5 / 65536).toNat ∧ 12 = seam.dataLen.toNat - 1 - 5 ∧
      0 + 0 + 1 ≤ seam.cfg.b - 2 ∧ 0 + 12 + 0 = seam.cfg.b - 2) ∧
    (4 < seam.dataLen.toNat ∧ 2 = (seam.delayAt 4 / 65536).toNat ∧ 13 = seam.dataLen.toNat - 1 - 4 ∧
      0 + 2 + 1 ≤ seam.cfg.b - 2 ∧ seam.cfg.b - 1 ≤ 0 + 13 + 2) ∧
    (stale.Inv ∧ stale.CanProcess ∧ ∀ n, n < stale.dataLen.toNat → 0 ≤ stale.delayAt n) ∧
    (0 < stale.chCount.toNat ∧ 12 = (stale.lag + 0) % stale.cfg.b) ∧
    (15 < stale.dataLen.toNat ∧ 0 = (stale.delayAt 15 / 65536).toNat ∧ 0 = stale.dataLen.toNat - 1 - 15 ∧
      stale.cfg.b - 2 < 12 + 0 + 1 ∧ stale.lastPush 12 15 1 < 0) ∧
    (14 < stale.dataLen.toNat ∧ 2 = (stale.delayAt 14 / 65536).toNat ∧ 1 = stale.dataLen.toNat - 1 - 14 ∧
      stale.cfg.b - 2 < 12 + 2 + 1 ∧ stale.lastPush 12 14 2 = 1) := by
  have h := block_inv Config.cfgA (ramp 16) 0 1 16 [] (by decide) (by decide) (by decide)
  exact ⟨⟨block_inv _ _ _ _ _ _ (by decide) (by decide) (by decide), ⟨by decide, by decide, by decide, by decide⟩,
    by decide +kernel⟩, by decide, by decide +kernel, by decide +kernel, by decide +kernel,
    ⟨⟨h.1, ⟨by decide, by decide, by decide⟩, h.3, h.4, h.5, h.6, h.7⟩, ⟨by decide, by decide, by decide, by decide⟩,
      by decide +kernel⟩, by decide, by decide +kernel, by decide +kernel⟩

/-- The last tail index and the two kinds of body index of P2's first channel. -/
theorem witness_ZeroAmplitudeIsPureDelay :
    (p2.Inv ∧ p2.CanProcess ∧ p2.cfg.amp = 0) ∧
    (0 < p2.chCount.toNat ∧ 0 = (p2.lag + 0) % p2.cfg.b ∧ 0 + p2.cfg.d + 1 ≤ p2.cfg.b - 2) ∧
    (9 < p2.dataLen.toNat ∧ p2.dataLen.toNat + p2.cfg.d + 0 + 1 ≤ 9 + p2.cfg.b) ∧
    (8 < p2.dataLen.toNat ∧ 8 + p2.cfg.b ≤ p2.dataLen.toNat + p2.cfg.d + 0 ∧ p2.cfg.d + 0 + 1 ≤ 8) ∧
    (2 < p2.dataLen.toNat ∧ 2 + p2.cfg.b ≤ p2.dataLen.toNat + p2.cfg.d + 0 ∧ 2 < p2.cfg.d + 0 + 1) :=
  ⟨⟨p2_inv, p2_canProcess, by decide⟩, by decide, by decide, by decide, by decide⟩

/-- A channel of the word 5 and a channel of zeros, at the last index. -/
theorem witness_ConstantInputGivesConstantOutput :
    (let s := block Config.cfgA ((List.range 16).map (fun k => (k, 5#32))) 0 1 16 []
     s.Inv ∧ s.CanProcess ∧ (∀ n, n < s.dataLen.toNat → 0 ≤ s.delayAt n) ∧
      (0 < s.chCount.toNat ∧ 15 < s.dataLen.toNat ∧ 0 = (s.lag + 0) % s.cfg.b ∧ 0 = (s.delayAt 15 / 65536).toNat ∧
        0 + 0 + 1 ≤ s.cfg.b - 2) ∧
      (∀ n', n' < s.dataLen.toNat → s.word (s.addrOf 0 n') = 5) ∧
      0 + (s.dataLen.toNat - 1 - 15) + 0 + 1 ≤ s.cfg.b - 2) ∧
    (let s := block Config.cfgA [] 0 1 16 []
     s.Inv ∧ s.CanProcess ∧ (∀ n, n < s.dataLen.toNat → 0 ≤ s.delayAt n) ∧
      ∀ n', n' < s.dataLen.toNat → s.word (s.addrOf 0 n') = 0) := by
  refine ⟨⟨block_inv _ _ _ _ _ _ (by decide) (by decide) (by decide), ⟨by decide, by decide, by decide, by decide⟩,
    by decide +kernel, by decide +kernel, by decide +kernel, by decide⟩,
    block_inv _ _ _ _ _ _ (by decide) (by decide) (by decide), ⟨by decide, by decide, by decide, by decide⟩,
    by decide +kernel, by decide +kernel⟩

/-- Program P4's signal over a delay line with the lag 12. -/
def p4Stale : State := { p4 with dl := staleLine 12 }

/-- Program P4: the highest index with a negative offset is 7; and the same over a delay line with the lag 12, where the
reads of index 13 are not valid. -/
theorem witness_NegOffsetKeepsWhatWasDone :
    (p4.Inv ∧ p4.CanProcess ∧ 7 < p4.dataLen.toNat ∧ p4.delayAt 7 < 0 ∧
      ∀ k, k < p4.dataLen.toNat → 7 < k → 0 ≤ p4.delayAt k) ∧
    (p4Stale.Inv ∧ p4Stale.CanProcess ∧ 7 < p4Stale.dataLen.toNat ∧ p4Stale.delayAt 7 < 0 ∧
      (∀ k, k < p4Stale.dataLen.toNat → 7 < k → 0 ≤ p4Stale.delayAt k) ∧
      13 < p4Stale.dataLen.toNat ∧ 4 = (p4Stale.delayAt 13 / 65536).toNat ∧ p4Stale.cfg.b - 2 < p4Stale.lag + 4 + 1) := by
  have h := p4_inv
  exact ⟨⟨h, p4_canProcess, by decide, by decide +kernel, by decide +kernel⟩,
    ⟨h.1, ⟨by decide, by decide, by decide⟩, h.3, h.4, h.5, h.6, h.7⟩, ⟨by decide, by decide, by decide, by decide⟩,
    by decide, by decide +kernel, by decide +kernel, by decide, by decide +kernel, by decide⟩

/-- `CFG_A`, and the size example of width 0. -/
theorem witness_SmallAmplitudeKeepsReadsValid :
    (p1.cfg.ok = true ∧ |p1.cfg.amp| ≤ 65536 ∧ p1.cfg.w ≤ p1.cfg.d) ∧
    (({ Config.cfgA with w := 0, d := 0 } : Cfg).ok = true ∧ ({ Config.cfgA with w := 0, d := 0 } : Cfg).w = 0) := by
  decide

theorem witness_VibProcessTouchesOnlyItsRegion :
    p1.Inv ∧ (∃ t, exec .vibProcess p1 = .next t) ∧
    p1.sigBase.toNat + p1.chCount.toNat * p1.dataLen.toNat ≤ 16 :=
  ⟨p1_inv, by obtain ⟨u, _, h⟩ := exec_effect .vibProcess p1; exact ⟨_, h⟩, by decide⟩

theorem witness_VibProcessAccessesAreCounted :
    p1.Inv ∧ p1.CanProcess ∧ ∀ n, n < p1.dataLen.toNat → 0 ≤ p1.delayAt n := ⟨p1_inv, p1_canProcess, p1_offsets⟩

/-- Two channels; the first index that has a feed; a run that ends and one that faults, each with a read. -/
theorem witness_EveryReadReturnsAnOriginalSample :
    ((0 : Nat) ≠ 1 ∧ 19 < p2.dataLen.toNat ∧ 0 < p2.dataLen.toNat) ∧ p2.cfg.b ≤ 14 ∧
    (∃ w, p1.sequence = .run w) ∧ (∃ w c n, p4.sequence = .neg w c n) := by
  refine ⟨by decide, by decide, ?_, ?_⟩
  · rcases p1_canProcess.sequence_cases p1_inv with ⟨_, h⟩ | ⟨n, hn, hneg, _⟩
    · exact ⟨_, h⟩
    · exact absurd (p1_offsets n hn) (not_le.mpr hneg)
  · rcases p4_canProcess.sequence_cases p4_inv with ⟨h, _⟩ | ⟨n, _, _, _, h⟩
    · exact absurd (h 7 (by decide)) (by decide +kernel)
    · exact ⟨_, _, _, h⟩

/-- Two blocks that differ in `cp` only, and two that differ in the delay line. -/
theorem witness_VibProcessIsDeterminedByItsInputs :
    (let s := p1
     let s' : State := { p1 with cp := 3 }
     s.Inv ∧ s'.Inv ∧ s.halted = false ∧ s'.halted = false ∧ s.cfg = s'.cfg ∧ s.sigBase = s'.sigBase ∧
      s.chCount = s'.chCount ∧ s.dataLen = s'.dataLen ∧ s.dl = s'.dl ∧ s.sig = s'.sig) ∧
    (let s := waiting 0
     let s' := p3 0
     s.Inv ∧ s'.Inv ∧ s.halted = false ∧ s'.halted = false ∧ s.cfg = s'.cfg ∧ s.sigBase = s'.sigBase ∧
      s.chCount = s'.chCount ∧ s.dataLen = s'.dataLen ∧ s.sig = s'.sig) := by
  have h := p1_inv
  have g := waiting_inv 0
  exact ⟨⟨h, ⟨h.1, h.2, h.3, h.4, h.5, h.6, h.7⟩, by decide, by decide, rfl, rfl, rfl, rfl, rfl, rfl⟩,
    g, ⟨g.1, ⟨by decide, by decide, by decide⟩, g.3, g.4, g.5, g.6, g.7⟩, by decide, by decide, rfl, rfl, rfl, rfl, rfl⟩

theorem witness_VibResetRestoresBufferAndTable :
    (p3 0).halted = false ∧ (p3 0).dl.mem.length = (p3 0).cfg.b ∧ (stopped 0).halted = true ∧
    opcOf 0x3100000080000000#64 = 0x31#8 ∧ opndOf 0x3100000080000000#64 ≠ 0 := by decide

/-- The last word that exists and the first that does not. -/
theorem witness_MemWriteStoresOneWord :
    (ramp 16).wf = true ∧ 63 < Config.cfgA.sigWords ∧ Config.cfgA.sigWords ≤ 64 := by decide

theorem witness_HostWriteChangesOneWord :
    (let s := block Config.cfgA (ramp 16) 0 0 0 [.memWrite 63 5]
     s.sig.wf = true ∧ s.inputs = .memWrite 63 5 :: [] ∧ 63 < s.cfg.sigWords) ∧
    (let s := block Config.cfgA (ramp 16) 0 0 0 [.memWrite 64 5]
     s.sig.wf = true ∧ s.inputs = .memWrite 64 5 :: [] ∧ s.cfg.sigWords ≤ 64) := by decide

theorem witness_NoStepStopsWhileHostKeepsToMemory :
    (block Config.cfgA [] 0 0 0 [.memWrite 63 5, .command 1, .rst]).HostOk := by
  intro e he
  simp only [block, List.mem_cons, List.not_mem_nil, or_false] at he
  rcases he with rfl | rfl | rfl <;> decide

theorem witness_HardwareResetRestoresBlockState :
    ({ stopped 0 with inputs := [.rst] } : State).inputs = .rst :: [] := rfl

theorem witness_ResetStatesMeetTheInvariant :
    Config.cfgA.ok = true ∧ (ramp 16).wf = true ∧ (ramp 16).inRange Config.cfgA.sigWords = true := by decide

theorem witness_StepKeepsTheInvariant : p1.Inv ∧ ∃ t, step p1 = .next t := by
  refine ⟨p1_inv, ?_⟩
  obtain ⟨i, u, _, h⟩ := runWord_effect 0x3000000000000000#64 (p1.dequeued [])
  exact ⟨_, h⟩

/-- A reachable state that has run a command, and one that a fault halted. -/
theorem reachable_after_word (cw : Word64) : ∃ t, Reachable t ∧ step (waiting cw) = .next t := by
  obtain ⟨i, u, _, h⟩ := runWord_effect cw ((waiting cw).dequeued [])
  exact ⟨_, .step _ _ (.issue _ [.command cw] (.reset Config.cfgA [] (by decide) (by decide) (by decide))) h, h⟩

theorem witness_ReachableCursorsAndTable : ∃ s, Reachable s ∧ s.dl.wr = 1 := by
  obtain ⟨t, ht, hs⟩ := reachable_after_word 0x1000000000000005#64
  exact ⟨t, ht, by cases hs; rfl⟩

theorem witness_ReachableStatusIsLegal : ∃ s, Reachable s ∧ s.status = 0x00000101#32 ∧ s.status ≠ 0x00000301#32 := by
  obtain ⟨t, ht, hs⟩ := reachable_after_word 0x0300000000000000#64
  exact ⟨t, ht, by cases hs; decide, by cases hs; decide⟩

/-- A tie on each side of zero, as the third clause needs. -/
theorem witness_RoundHalfAwayIsNearest :
    roundHalfAway (5 / 2 : ℝ) = 3 ∧ |(((roundHalfAway (5 / 2 : ℝ)) : Int) : ℝ) - 5 / 2| = 1 / 2 ∧ (0 : ℝ) ≤ 5 / 2 := by
  have h : roundHalfAway (5 / 2 : ℝ) = 3 := by
    unfold roundHalfAway
    rw [if_neg (by norm_num), Int.floor_eq_iff]
    norm_num
  refine ⟨h, ?_, by norm_num⟩
  rw [h]
  norm_num [abs_of_pos]

theorem witness_ParametersDetermineTheConfiguration : tiny.ElaboratedFrom tinyParams ∧ (0 : Int) ∈ tiny.sinRom :=
  ⟨tiny_elaborated, by decide⟩

theorem witness_PseudoInstructionsExpand : (0 : Nat) < 2 ^ 32 ∧ 4294967295 < 2 ^ 32 := by decide

end Sys2Proof.Tests
end

section
/-! SUPPORT. What the sizing and table formulas give (00_scope.md R9, 42_oscillator.md R130 to R132, 43_vibrato.md R145
to R147), and the obligation that the parameters fix the configuration. -/

namespace Sys2Proof.Machine

theorem quant_mono {x y : ℝ} (h : x ≤ y) : quant x ≤ quant y :=
  Int.floor_mono (by linarith)

/-- An integer is on the Q16.16 grid, so R102 rounds nothing away. -/
theorem quant_intCast (n : Int) : quant (n : ℝ) = n * 65536 := by
  rw [quant, Int.floor_eq_iff]
  push_cast
  constructor <;> linarith

/-- A real in `[-1, 1]`, so every sine, quantizes into `[-65536, 65536]`. -/
theorem quant_bounds {x : ℝ} (h1 : -1 ≤ x) (h2 : x ≤ 1) : -65536 ≤ quant x ∧ quant x ≤ 65536 := by
  have hlow : quant ((-1 : Int) : ℝ) ≤ quant x := quant_mono (by exact_mod_cast h1)
  have hhigh : quant x ≤ quant ((1 : Int) : ℝ) := quant_mono (by exact_mod_cast h2)
  rw [quant_intCast] at hlow hhigh
  exact ⟨hlow, hhigh⟩

end Sys2Proof.Machine

namespace Sys2Proof

variable {c c' : Cfg} {q : Params}

/-- `OMEGA` is computed from the parameters, and then each field is: the two sizes and the table length are the only
natural numbers with their integer values, and the table is listed by its length. -/
theorem Cfg.ElaboratedFrom.unique (h : c.ElaboratedFrom q) (h' : c'.ElaboratedFrom q) : c = c' := by
  obtain ⟨omega, homega, hfs, hw, hd, hp, hrom, hamp, hsig⟩ := h
  obtain ⟨omega', homega', hfs', hw', hd', hp', hrom', hamp', hsig'⟩ := h'
  obtain rfl : omega = omega' := homega.trans homega'.symm
  have hww : c.w = c'.w := Int.ofNat_inj.mp (hw.trans hw'.symm)
  have hdd : c.d = c'.d := Int.ofNat_inj.mp (hd.trans hd'.symm)
  have hpp : c.p = c'.p := Int.ofNat_inj.mp (hp.trans hp'.symm)
  have hroms : c.sinRom = c'.sinRom := by rw [hrom, hrom', hpp]
  cases c
  cases c'
  exact (Cfg.mk.injEq ..).mpr
    ⟨hfs.trans hfs'.symm, hww, hdd, hpp, hroms, hamp.trans hamp'.symm, hsig.trans hsig'.symm⟩

theorem Cfg.ElaboratedFrom.w_eq_d (h : c.ElaboratedFrom q) : c.w = c.d := by
  obtain ⟨_, _, _, hw, hd, _⟩ := h
  exact Int.ofNat_inj.mp (hw.trans hd.symm)

theorem Cfg.ElaboratedFrom.b_eq (h : c.ElaboratedFrom q) : c.b = 2 * c.d + 10 := by
  rw [Cfg.b, h.w_eq_d]
  omega

theorem Cfg.ElaboratedFrom.sinRom_length (h : c.ElaboratedFrom q) : c.sinRom.length = c.p := by
  obtain ⟨_, _, _, _, _, _, hrom, _⟩ := h
  rw [hrom, List.length_map, List.length_range]

/-- Every table entry is a quantized sine. -/
theorem Cfg.ElaboratedFrom.sinRom_bounds (h : c.ElaboratedFrom q) {v : Int} (hv : v ∈ c.sinRom) :
    -65536 ≤ v ∧ v ≤ 65536 := by
  obtain ⟨_, _, _, _, _, _, hrom, _⟩ := h
  rw [hrom] at hv
  obtain ⟨i, _, rfl⟩ := List.mem_map.mp hv
  exact Machine.quant_bounds (Real.neg_one_le_sin _) (Real.sin_le_one _)

/-- Settles O53: each field is a function of the parameters, and a table entry is a quantized sine. -/
theorem parametersDetermineTheConfiguration : Obligations.ParametersDetermineTheConfiguration :=
  ⟨fun _ _ _ h h' => h.unique h',
    fun _ _ h => ⟨h.w_eq_d, h.b_eq, h.sinRom_length, fun _ hv => h.sinRom_bounds hv⟩⟩

end Sys2Proof
end

section
/-! SUPPORT. The state and its invariant (10_state.md): every operation a step is made of keeps `State.Inv`, so every
step does and every reachable state meets it (R23, R24, R32, R36, R39, R50). -/

namespace Sys2Proof.Machine

/-- The state after hardware reset meets the invariant (R39). -/
theorem State.resetOf_inv {c : Cfg} {m : SigMem} (hc : c.ok = true) (hwf : m.wf = true)
    (hr : m.inRange c.sigWords = true) : (State.resetOf c m).Inv where
  cfg_ok := hc
  dl_shaped := RingBuf.shaped_new (lt_of_lt_of_le (by decide) (cfg_b_ge c))
  lut_filled := rfl
  status_legal := (statusLegal_iff 0).mpr (.inl rfl)
  info_clear := fun _ => ⟨rfl, rfl⟩
  sig_wf := hwf
  sig_inRange := hr

/-! The invariant speaks of neither the argument registers, `cp` nor the host's streams. -/

theorem State.Inv.dequeued {s : State} (h : s.Inv) (rest : List HostInput) : (s.dequeued rest).Inv := { h with }

theorem State.Inv.advance {s : State} (h : s.Inv) : s.advance.Inv := { h with }

theorem State.Inv.respond {s : State} (h : s.Inv) (rc : Rc) (val : Word) : (s.respond rc val).Inv := { h with }

theorem State.Inv.setArguments {s : State} (h : s.Inv) (base ch len : Word) :
    State.Inv { s with sigBase := base, chCount := ch, dataLen := len } := { h with }

theorem State.Inv.setInputs {s : State} (h : s.Inv) (ins : List HostInput) :
    State.Inv { s with inputs := ins } := { h with }

/-! Each piece it does speak of. -/

theorem State.Inv.withDl {s : State} (h : s.Inv) {u : RingBuf} (hu : u.Shaped s.cfg.b) : (s.withDl u).Inv :=
  { h with dl_shaped := hu }

theorem State.Inv.refill {s : State} (h : s.Inv) : (s.withLut (oscFill s.cfg)).Inv :=
  { h with lut_filled := rfl }

theorem State.Inv.withSig {s : State} (h : s.Inv) {m : SigMem} (hwf : m.wf = true)
    (hr : m.inRange s.cfg.sigWords = true) : (s.withSig m).Inv :=
  { h with sig_wf := hwf, sig_inRange := hr }

/-- Fault entry writes a legal STATUS, and information other than zero with NEG_OFFSET only (R187, R36). -/
theorem State.Inv.raise {s : State} (h : s.Inv) {f : Cause} {ch idx : Nat}
    (hinfo : f = .negOffset ∨ (ch = 0 ∧ idx = 0)) : (s.raise f ch idx).Inv :=
  { h with
    status_legal := statusLegal_haltStatus f
    info_clear := by
      intro hcause
      rcases hinfo with rfl | ⟨rfl, rfl⟩
      · exact absurd (causeField_haltStatus .negOffset) hcause
      · exact ⟨rfl, rfl⟩ }

theorem State.Inv.hardwareReset {s : State} (h : s.Inv) : s.hardwareReset.Inv :=
  { State.resetOf_inv h.cfg_ok h.sig_wf h.sig_inRange with }

/-! What VIB.PROCESS has done when its sequencer stops, at the end or at a negative offset (R149, R165). -/

theorem State.Inv.withWork_of_run {s : State} (h : s.Inv) (hc : s.CanProcess) {w : Work} (hw : s.sequence = .run w) :
    (s.withWork w).Inv := by
  rcases hc.sequence_cases h with ⟨-, hrun⟩ | ⟨n, -, -, -, hneg⟩
  · obtain rfl : w = _ := Seq.run.inj (hw.symm.trans hrun)
    exact (h.withDl (s.job.chanStart_shaped h.dl_shaped s.sig _)).withSig
      (s.job.chanStart_wf s.dl h.sig_wf _) (s.job.chanStart_inRange hc.fits s.dl h.sig_inRange)
  · cases hw.symm.trans hneg

theorem State.Inv.withWork_of_neg {s : State} (h : s.Inv) (hc : s.CanProcess) {w : Work} {c n : Nat}
    (hw : s.sequence = .neg w c n) : (s.withWork w).Inv := by
  rcases hc.sequence_cases h with ⟨-, hrun⟩ | ⟨n', -, -, -, hneg⟩
  · cases hw.symm.trans hrun
  · obtain ⟨rfl, -, -⟩ := Seq.neg.inj (hw.symm.trans hneg)
    exact (h.withDl (s.job.lineAt_shaped 0 h.dl_shaped s.sig _)).withSig
      (s.job.sigAfter_wf 0 s.dl h.sig_wf _) (Job.sigAfter_inRange (hc.fits 0 hc.channels) s.dl h.sig_inRange _)

/-- Everything a command can do keeps the invariant. -/
theorem Effect.inv {i : Instr} {s u : State} (e : Effect s i u) (h : s.Inv) : u.Inv := by
  cases e with
  | ok i v => exact h.respond _ _
  | halted i hs => exact h.respond _ _
  | raise i f hs => exact h.raise (.inr ⟨rfl, rfl⟩)
  | sigBase v hs => exact (h.setArguments v s.chCount s.dataLen).respond _ _
  | chCount v hs => exact (h.setArguments s.sigBase v s.dataLen).respond _ _
  | dataLen v hs => exact (h.setArguments s.sigBase s.chCount v).respond _ _
  | push v hs => exact (h.withDl (h.dl_shaped.push v)).respond _ _
  | pop hs => exact (h.withDl h.dl_shaped.pop).respond _ _
  | zero hs => exact (h.withDl h.dl_shaped.zeroed).respond _ _
  | fill hs => exact h.refill.respond _ _
  | zeroFill hs => exact (h.withDl h.dl_shaped.zeroed).refill.respond _ _
  | process w hc hw => exact (h.withWork_of_run hc hw).respond _ _
  | processNeg w c n hc hw => exact (h.withWork_of_neg hc hw).raise (.inl rfl)

/-- Every step keeps the invariant: idle, a command word, RST, or the host's write of a word that exists. -/
theorem State.Inv.step {s t : State} (h : s.Inv) (hst : Machine.step s = .next t) : t.Inv := by
  rcases step_next hst with ⟨-, rfl⟩ | ⟨_, rest, _, _, -, e, rfl⟩ | ⟨rest, -, rfl⟩ | ⟨a, v, rest, -, ha, rfl⟩
  · exact h
  · exact (e.inv (h.dequeued rest)).advance
  · exact (h.dequeued rest).hardwareReset
  · exact (h.dequeued rest).withSig (SigMem.wf_write h.sig_wf a v) (SigMem.inRange_write h.sig_inRange ha v)

/-- Every reachable state meets the invariant. -/
theorem Reachable.inv {s : State} (h : Reachable s) : s.Inv := by
  induction h with
  | reset c m hc hwf hr => exact State.resetOf_inv hc hwf hr
  | issue s more _ ih => exact ih.setInputs _
  | step s t _ hst ih => exact ih.step hst

/-! The invariant in the words of the claims: the table's entries and the STATUS words. -/

/-- Slot `i` of the filled table, as R24 writes it. -/
theorem oscFill_getElem? {c : Cfg} {i : Nat} (hi : i < c.p) :
    (oscFill c).mem[i]? = some (BitVec.ofInt 32 ((c.sinRom.getD i 0 * c.amp + 32768) / 65536)) := by
  have hentry : (oscFill c).mem[i]? = some (oscEntry c i) := by simp [oscFill, hi]
  exact hentry

theorem haltStatus_mem (f : Cause) :
    haltStatus f ∈ [0x00000101#32, 0x00000201#32, 0x00000301#32, 0x00000401#32, 0x00000501#32] := by
  cases f <;> decide

/-- A legal STATUS whose cause is NEG_OFFSET is that fault's halt word (R32). -/
theorem status_of_negOffset_cause {w : Word} (hl : statusLegal w = true) (hc : causeField w = Cause.negOffset.code) :
    w = 0x00000301#32 := by
  rcases (statusLegal_iff w).mp hl with rfl | ⟨f, rfl⟩
  · exact absurd hc (by decide)
  · rw [causeField_haltStatus] at hc
    revert hc
    cases f <;> decide

end Sys2Proof.Machine

namespace Sys2Proof

open Machine

/-- Settles O48: each operation of a step keeps the invariant. -/
theorem stepKeepsTheInvariant : Obligations.StepKeepsTheInvariant :=
  fun _ _ h hst => h.step hst

/-- Settles O47: the spec gives every piece its value after reset. -/
theorem resetStatesMeetTheInvariant : Obligations.ResetStatesMeetTheInvariant :=
  ⟨fun _ _ hc hwf hr => State.resetOf_inv hc hwf hr, State.resetOf_inv (by decide) rfl rfl⟩

/-- Settles O49, from the invariant: the delay line is in shape and the table is the fill. -/
theorem reachableCursorsAndTable : Obligations.ReachableCursorsAndTable := by
  intro s hs
  have h := hs.inv
  have hdl := h.dl_shaped
  have hlut := RingBuf.shaped_oscFill (Cfg.ok_period h.cfg_ok)
  rw [h.lut_filled]
  exact ⟨hdl.length, hdl.rd_lt, hdl.wr_lt, hlut.length, hlut.rd_lt, hlut.wr_lt, rfl, rfl,
    fun i hi => oscFill_getElem? hi⟩

/-- Settles O50, from the invariant: a legal STATUS is zero or a halt word, and the cause is read from it. -/
theorem reachableStatusIsLegal : Obligations.ReachableStatusIsLegal := by
  intro s hs
  have h := hs.inv
  constructor
  · rcases (statusLegal_iff _).mp h.status_legal with hz | ⟨f, hf⟩
    · rw [hz]
      exact List.mem_cons_self
    · rw [hf]
      exact List.mem_cons_of_mem _ (haltStatus_mem f)
  · intro hne
    exact h.info_clear (fun hc => hne (status_of_negOffset_cause h.status_legal hc))

/-- Settles O46: the step that takes RST is the hardware reset, field by field as R39 lists it. -/
theorem hardwareResetRestoresBlockState : Obligations.HardwareResetRestoresBlockState := by
  intro s rest hi
  have hstep : step s = .next (s.dequeued rest).hardwareReset := by simp only [step, hi, takeInput]
  exact hstep

end Sys2Proof
end

section
/-! SUPPORT. What a command leaves alone and what it does not read (10_state.md R27, R30, R37; 20_memory.md R54;
60_exceptions.md R188). -/

namespace Sys2Proof.Machine

section Frame

variable {i : Instr} {s u : State} (e : Effect s i u)
include e

theorem Effect.dl_eq_or : u.dl = s.dl ∨
    (∃ v, i = .rbPush .dl v) ∨ i = .rbPop .dl ∨ i = .rbReset .dl ∨ i = .vibProcess ∨ i = .vibReset := by
  cases e with
  | push v => exact .inr (.inl ⟨v, rfl⟩)
  | pop => exact .inr (.inr (.inl rfl))
  | zero => exact .inr (.inr (.inr (.inl rfl)))
  | process | processNeg => exact .inr (.inr (.inr (.inr (.inl rfl))))
  | zeroFill => exact .inr (.inr (.inr (.inr (.inr rfl))))
  | _ => exact .inl rfl

theorem Effect.lut_eq_or : u.lut = s.lut ∨ i = .oscReset ∨ i = .vibReset := by
  cases e with
  | fill => exact .inr (.inl rfl)
  | zeroFill => exact .inr (.inr rfl)
  | _ => exact .inl rfl

theorem Effect.sig_eq_or : u.sig = s.sig ∨ i = .vibProcess := by
  cases e with
  | process | processNeg => exact .inr rfl
  | _ => exact .inl rfl

theorem Effect.sigBase_eq_or : u.sigBase = s.sigBase ∨ ∃ v, i = .wrreg 0x01#8 v := by
  cases e with
  | sigBase v => exact .inr ⟨v, rfl⟩
  | _ => exact .inl rfl

theorem Effect.chCount_eq_or : u.chCount = s.chCount ∨ ∃ v, i = .wrreg 0x02#8 v := by
  cases e with
  | chCount v => exact .inr ⟨v, rfl⟩
  | _ => exact .inl rfl

theorem Effect.dataLen_eq_or : u.dataLen = s.dataLen ∨ ∃ v, i = .wrreg 0x03#8 v := by
  cases e with
  | dataLen v => exact .inr ⟨v, rfl⟩
  | _ => exact .inl rfl

/-- Only the entry of a fault on a running block writes STATUS and the fault information (R187, R188). -/
theorem Effect.fault_eq_or : (u.status = s.status ∧ u.faultCh = s.faultCh ∧ u.faultIdx = s.faultIdx) ∨
    (s.halted = false ∧ u.halted = true) := by
  cases e with
  | raise i f hs => exact .inr ⟨hs, haltBit_haltStatus f⟩
  | processNeg w c n hc => exact .inr ⟨hc.running, haltBit_haltStatus .negOffset⟩
  | _ => exact .inl ⟨rfl, rfl, rfl⟩

theorem Effect.cfg_eq : u.cfg = s.cfg := by cases e <;> rfl

theorem Effect.inputs_eq : u.inputs = s.inputs := by cases e <;> rfl

end Frame

/-- The state with another command pointer and other earlier responses. -/
def State.withTrace (s : State) (k : Nat) (r : List Word64) : State := { s with cp := k, responses := r }

/-- `b` answers as `a` does: if `a` is a next state with one response word after those of `s`, then `b` is that state
with command pointer `k` and the same word after the responses `r`. -/
def AnswersAlike (s : State) (k : Nat) (r : List Word64) (a b : Result) : Prop :=
  ∀ t, a = .next t → ∃ rw : Word64, t.responses = s.responses ++ [rw] ∧ b = .next (t.withTrace k (r ++ [rw]))

section Alike

variable {s : State} {k : Nat} {r : List Word64}

theorem AnswersAlike.next {t : State} {rw : Word64} (h : t.responses = s.responses ++ [rw]) :
    AnswersAlike s k r (.next t) (.next (t.withTrace k (r ++ [rw]))) := by
  intro t' ht
  obtain rfl : t = t' := Host.Outcome.next.inj ht
  exact ⟨rw, h, rfl⟩

/-- The end of a command advances both command pointers (R27). -/
theorem AnswersAlike.endCommand {a b : Result} (h : AnswersAlike s k r a b) :
    AnswersAlike s (k + 1) r (endCommand a) (endCommand b) := by
  intro t ht
  cases a with
  | next u =>
    obtain ⟨rw, hu, rfl⟩ := h u rfl
    obtain rfl : u.advance = t := Host.Outcome.next.inj ht
    exact ⟨rw, hu, rfl⟩
  | fault f => cases ht
  | refused f => cases ht

/-- The envelope tests STATUS only (R189). -/
theorem AnswersAlike.runCommandBody {body : State → Result} (h : AnswersAlike s k r (body s) (body (s.withTrace k r))) :
    AnswersAlike s (k + 1) r (runCommandBody s body) (runCommandBody (s.withTrace k r) body) := by
  cases hs : s.halted
  · rw [runCommandBody_running hs, runCommandBody_running (s := s.withTrace k r) hs]
    exact h.endCommand
  · rw [runCommandBody_halted hs, runCommandBody_halted (s := s.withTrace k r) hs]
    exact (AnswersAlike.next (t := s.respondHalted) rfl).endCommand

/-- A body that always answers a next state, without reading `cp` or the responses. -/
theorem AnswersAlike.runCommandBody_next {g : State → State} {rw : Word64}
    (hr : (g s).responses = s.responses ++ [rw]) (hg : g (s.withTrace k r) = (g s).withTrace k (r ++ [rw])) :
    AnswersAlike s (k + 1) r (Machine.runCommandBody s (fun s => .next (g s)))
      (Machine.runCommandBody (s.withTrace k r) (fun s => .next (g s))) := by
  refine AnswersAlike.runCommandBody ?_
  rw [hg]
  exact .next hr

end Alike

theorem illegalCommand_alike (s : State) (k : Nat) (r : List Word64) :
    AnswersAlike s (k + 1) r (illegalCommand s) (illegalCommand (s.withTrace k r)) :=
  AnswersAlike.runCommandBody_next rfl rfl

theorem vibProcessBody_alike (s : State) (k : Nat) (r : List Word64) :
    AnswersAlike s k r (vibProcessBody s) (vibProcessBody (s.withTrace k r)) := by
  unfold vibProcessBody
  change AnswersAlike s k r _ (if zext32 s.chCount = 0 ∨ zext32 s.dataLen = 0 then _
    else if zext32 s.dataLen < s.cfg.primeCount then _
    else if s.cfg.sigWords < zext32 s.sigBase + zext32 s.chCount * zext32 s.dataLen then _
    else (s.withTrace k r).finishSeq s.sequence)
  split_ifs
  · exact .next rfl
  · exact .next rfl
  · exact .next rfl
  · cases s.sequence with
    | run w => exact .next rfl
    | neg w c n => exact .next rfl
    | absent a => intro t ht; cases ht

theorem execRdreg_alike (n : RegNum) (s : State) (k : Nat) (r : List Word64) :
    AnswersAlike s (k + 1) r (execRdreg n s) (execRdreg n (s.withTrace k r)) := by
  refine AnswersAlike.endCommand ?_
  cases regOf n with
  | some x => exact .next rfl
  | none =>
    change AnswersAlike s k r (.next (if s.halted then _ else _)) (.next (if s.halted then _ else _))
    cases s.halted <;> exact .next rfl

theorem execWrreg_alike (n : RegNum) (v : Word) (s : State) (k : Nat) (r : List Word64) :
    AnswersAlike s (k + 1) r (execWrreg n v s) (execWrreg n v (s.withTrace k r)) := by
  refine AnswersAlike.runCommandBody ?_
  cases regOf n with
  | some x => cases x <;> exact .next rfl
  | none => exact .next rfl

theorem execRbGetf_alike (u : RbUnit) (f : Word) (s : State) (k : Nat) (r : List Word64) :
    AnswersAlike s (k + 1) r (execRbGetf u f s) (execRbGetf u f (s.withTrace k r)) := by
  refine AnswersAlike.runCommandBody ?_
  have hu : (s.withTrace k r).unit u = s.unit u := rfl
  rw [hu]
  cases (s.unit u).getf (offsetOperand f) <;> exact .next rfl

/-- Every command answers alike whatever `cp` and the earlier responses are. -/
theorem exec_alike (i : Instr) (s : State) (k : Nat) (r : List Word64) :
    AnswersAlike s (k + 1) r (exec i s) (exec i (s.withTrace k r)) := by
  cases i with
  | nop => exact AnswersAlike.endCommand (.next rfl)
  | rdreg n => exact execRdreg_alike n s k r
  | wrreg n v => exact execWrreg_alike n v s k r
  | rbPush u v =>
    cases u
    · simp only [exec, execRbPush]
      exact AnswersAlike.runCommandBody_next rfl rfl
    · exact illegalCommand_alike s k r
  | rbPop u =>
    cases u
    · simp only [exec, execRbPop]
      exact AnswersAlike.runCommandBody_next rfl rfl
    · exact illegalCommand_alike s k r
  | rbGet u o =>
    simp only [exec, execRbGet]
    exact AnswersAlike.runCommandBody_next rfl rfl
  | rbGetf u f => exact execRbGetf_alike u f s k r
  | rbReset u =>
    cases u
    · simp only [exec, execRbReset]
      exact AnswersAlike.runCommandBody_next rfl rfl
    · exact illegalCommand_alike s k r
  | oscSample n =>
    simp only [exec, execOscSample]
    exact AnswersAlike.runCommandBody_next rfl rfl
  | oscReset =>
    simp only [exec, execOscReset]
    exact AnswersAlike.runCommandBody_next rfl rfl
  | vibProcess => exact AnswersAlike.runCommandBody (vibProcessBody_alike s k r)
  | vibReset =>
    simp only [exec, execVibReset]
    exact AnswersAlike.runCommandBody_next rfl rfl

end Sys2Proof.Machine

namespace Sys2Proof

open Machine

/-- Settles O13: the frame of each effect, the advance of `cp` changing none of these pieces. -/
theorem onlyTheNamedCommandsChangeEachPiece : Obligations.OnlyTheNamedCommandsChangeEachPiece := by
  intro i s t h
  obtain ⟨u, e, rfl⟩ := exec_next h
  refine ⟨e.dl_eq_or.resolve_left, e.lut_eq_or.resolve_left, e.sig_eq_or.resolve_left, e.sigBase_eq_or.resolve_left,
    e.chCount_eq_or.resolve_left, e.dataLen_eq_or.resolve_left, fun hne => e.fault_eq_or.resolve_left ?_,
    e.cfg_eq, e.inputs_eq⟩
  rintro ⟨hst, hch, hidx⟩
  rcases hne with hne | hne | hne
  · exact hne hst
  · exact hne hch
  · exact hne hidx

/-- Settles O14: the two runs of the command answer alike. -/
theorem commandsIgnoreCpAndEarlierResponses : Obligations.CommandsIgnoreCpAndEarlierResponses :=
  fun i s t k r h => exec_alike i s k r t h

end Sys2Proof
end

section
/-! SUPPORT. Signal memory under VIB.PROCESS and under the host's writes (20_memory.md): where the sequencer stops,
which words it has left alone and what it has read (R58, R66), and the step that takes an input (R67, R189). -/

namespace Sys2Proof.Machine

/-! Where the sequencer stops: some number of main-pass steps into some channel. -/

/-- What the sequencer holds before main-pass step `k` of channel `c`, the channels before it run to their end. -/
def Job.progress (j : Job) (u : RingBuf) (m : SigMem) (c k : Nat) : Work :=
  j.workAt c (j.chanStart u m c).dl (j.chanStart u m c).sig (j.chanStart u m c).log k

/-- A channel run to its end is where the next one starts (R163). -/
theorem Job.progress_len (j : Job) (u : RingBuf) (m : SigMem) (c : Nat) :
    j.progress u m c j.len = j.chanStart u m (c + 1) := rfl

/-- At its end and at a negative offset alike, the sequencer stands in one of the channels (R149, R165). -/
theorem State.CanProcess.stops_in_channel {s : State} (hc : s.CanProcess) (hi : s.Inv) {w : Work}
    (hw : s.sequence = .run w ∨ ∃ c n, s.sequence = .neg w c n) :
    ∃ c k, c < s.chCount.toNat ∧ k ≤ s.dataLen.toNat ∧ w = s.job.progress s.dl s.sig c k := by
  have hpos := hc.channels
  rcases hc.sequence_cases hi with ⟨-, hrun⟩ | ⟨n, -, -, -, hneg⟩
  · rw [hrun] at hw
    rcases hw with hw | ⟨_, _, hw⟩
    · refine ⟨s.chCount.toNat - 1, s.dataLen.toNat, by omega, le_rfl, (Seq.run.inj hw).symm.trans ?_⟩
      rw [← Nat.sub_add_cancel hpos]
      rfl
    · cases hw
  · rw [hneg] at hw
    rcases hw with hw | ⟨_, _, hw⟩
    · cases hw
    · exact ⟨0, _, hpos, by omega, (Seq.neg.inj hw).1.symm⟩

/-- The words the sequencer has written belong to the channels it has come to (R58). -/
theorem Job.progress_read_other (j : Job) (u : RingBuf) (m : SigMem) {c k a : Nat} (hk : k ≤ j.len)
    (h : ∀ i n, i ≤ c → n < j.len → a ≠ j.addr i n) : (j.progress u m c k).sig.read a = m.read a := by
  calc (j.progress u m c k).sig.read a
      = (j.chanStart u m c).sig.read a :=
        j.sigAfter_read_other c _ _ k a (fun i hik => h c _ le_rfl (by omega))
    _ = m.read a := j.chanStart_read_other u m c a (fun i n hic hn => h i n (by omega) hn)

/-- A read made in channel `c` is of one of its own words, and returns what that word held when the channel started:
priming comes before every write, and a feed reads below what is written so far. -/
theorem Job.read_mem_accessesTo {j : Job} {c : Nat} {u : RingBuf} {m : SigMem} {k a : Nat} {v : Word}
    (h : .read a v ∈ j.accessesTo c u m k) : ∃ n, a = j.addr c n ∧ v = m.read a := by
  rcases List.mem_append.mp h with hprime | hmain
  · obtain ⟨p, -, hp⟩ := List.mem_map.mp hprime
    obtain ⟨rfl, rfl⟩ := Access.read.inj hp
    exact ⟨_, rfl, rfl⟩
  · obtain ⟨i, -, hstep⟩ := List.mem_flatMap.mp hmain
    rcases List.mem_cons.mp hstep with hwrite | hfeed
    · cases hwrite
    · split_ifs at hfeed
      · obtain ⟨rfl, rfl⟩ := Access.read.inj (List.mem_singleton.mp hfeed)
        exact ⟨_, rfl, rfl⟩
      · cases hfeed

/-- Every read so far returned the original word: no earlier channel has written a word of a later one (R66). -/
theorem Job.progress_reads_original {j : Job} {u : RingBuf} {m : SigMem} {c k a : Nat} {v : Word}
    (h : .read a v ∈ (j.progress u m c k).log) : v = m.read a := by
  induction c generalizing k with
  | zero =>
    rcases List.mem_append.mp h with hown | hnone
    · obtain ⟨_, -, hv⟩ := Job.read_mem_accessesTo (List.mem_reverse.mp hown)
      exact hv
    · cases hnone
  | succ c ih =>
    rcases List.mem_append.mp h with hown | hbefore
    · obtain ⟨n, rfl, hv⟩ := Job.read_mem_accessesTo (List.mem_reverse.mp hown)
      exact hv.trans (j.chanStart_read_later u m le_rfl)
    · rw [← j.progress_len] at hbefore
      exact ih hbefore

/-! The region of a VIB.PROCESS (R51, R58). -/

/-- A word outside `[SIG_BASE, SIG_BASE + C * L)` is no word of any channel. -/
theorem State.ne_addrOf_of_outside {s : State} {a c n : Nat} (hc : c < s.chCount.toNat) (hn : n < s.dataLen.toNat)
    (ha : a < s.sigBase.toNat ∨ s.sigBase.toNat + s.chCount.toNat * s.dataLen.toNat ≤ a) : a ≠ s.addrOf c n := by
  have hend : (c + 1) * s.dataLen.toNat ≤ s.chCount.toNat * s.dataLen.toNat := Nat.mul_le_mul_right _ hc
  rw [Nat.add_mul, Nat.one_mul] at hend
  unfold State.addrOf
  omega

/-- What a stopped sequencer holds reads as before outside the region. -/
theorem State.CanProcess.read_outside {s : State} (hc : s.CanProcess) (hi : s.Inv) {w : Work}
    (hw : s.sequence = .run w ∨ ∃ c n, s.sequence = .neg w c n) {a : Nat}
    (ha : a < s.sigBase.toNat ∨ s.sigBase.toNat + s.chCount.toNat * s.dataLen.toNat ≤ a) :
    w.sig.read a = s.word a := by
  obtain ⟨c, k, hlt, hk, rfl⟩ := hc.stops_in_channel hi hw
  exact s.job.progress_read_other s.dl s.sig hk
    (fun i n hic hn => State.ne_addrOf_of_outside (by omega) hn ha)

/-- The words of different channels differ, in either order (R66). -/
theorem State.addrOf_ne_of_channel (s : State) {c c' n n' : Nat} (hc : c ≠ c') (hn : n < s.dataLen.toNat)
    (hn' : n' < s.dataLen.toNat) : s.addrOf c n ≠ s.addrOf c' n' := by
  rcases Nat.lt_or_gt_of_ne hc with hlt | hgt
  · exact s.job.addr_ne_of_channel hlt hn
  · exact (s.job.addr_ne_of_channel hgt hn').symm

/-! The step that takes an input. -/

theorem step_cons {s : State} {e : HostInput} {rest : List HostInput} (h : s.inputs = e :: rest) :
    step s = takeInput e (s.dequeued rest) := by
  simp only [step, h]

theorem State.hostWrite_of_lt {s : State} {a : Nat} (h : a < s.cfg.sigWords) (v : Word) :
    s.hostWrite a v = .next (s.withSig (s.sig.write a v)) := by
  simp only [State.hostWrite, memWrite_of_lt h]

theorem State.hostWrite_absent {s : State} {a : Nat} (h : ¬a < s.cfg.sigWords) (v : Word) :
    s.hostWrite a v = .fault (.absentWord a) := by
  simp only [State.hostWrite, memWrite_none h]

/-- An input that names no word that does not exist is answered by a next state (R189, R210, R67). -/
theorem takeInput_next {s : State} {e : HostInput} (h : e.present s.cfg = true) : ∃ t, takeInput e s = .next t := by
  cases e with
  | command cw =>
    obtain ⟨_, u, -, hu⟩ := runWord_effect cw s
    exact ⟨u.advance, hu⟩
  | rst => exact ⟨s.hardwareReset, rfl⟩
  | memWrite a v => exact ⟨_, State.hostWrite_of_lt (of_decide_eq_true h) v⟩

end Sys2Proof.Machine

namespace Sys2Proof

open Machine

/-- Settles O38: only the two outcomes of the sequencer touch signal memory, and both leave the outside alone. -/
theorem vibProcessTouchesOnlyItsRegion : Obligations.VibProcessTouchesOnlyItsRegion := by
  intro s t a hi h ha
  obtain ⟨u, e, rfl⟩ := exec_next h
  cases e with
  | process w hc hw => exact hc.read_outside hi (.inl hw) ha
  | processNeg w c n hc hw => exact hc.read_outside hi (.inr ⟨c, n, hw⟩) ha
  | ok | halted | raise => rfl

/-- Settles O40: disjoint channels, a feed below its write, and the accesses of the channel where the run stops. -/
theorem everyReadReturnsAnOriginalSample : Obligations.EveryReadReturnsAnOriginalSample := by
  refine ⟨fun s _ _ _ _ hc hn hn' => s.addrOf_ne_of_channel hc hn hn', fun s c n hn => ?_,
    fun s w hi hc hw a v hread => ?_⟩
  · have hb := cfg_b_ge s.cfg
    unfold State.addrOf
    omega
  · obtain ⟨c, k, -, -, rfl⟩ := hc.stops_in_channel hi hw
    exact Job.progress_reads_original hread

/-- Settles O43, from the laws of signal memory. -/
theorem memWriteStoresOneWord : Obligations.MemWriteStoresOneWord := by
  intro c m a v hm
  refine ⟨fun ha => ⟨m.write a v, memWrite_of_lt ha v, ?_, fun b hb => ?_, SigMem.wf_write hm a v⟩,
    fun ha => ⟨memWrite_none (by omega) v, memRead_none (by omega)⟩⟩
  · rw [memRead_of_lt ha, SigMem.read_write_same hm]
  · simp only [memRead, SigMem.read_write_other m hb]

/-- Settles O44: the step is the host's write on the dequeued state. -/
theorem hostWriteChangesOneWord : Obligations.HostWriteChangesOneWord := by
  intro s a v rest hm hin
  have hstep : step s = (s.dequeued rest).hostWrite a v := step_cons hin
  refine ⟨fun ha => ⟨(s.dequeued rest).withSig (s.sig.write a v), ?_, rfl, SigMem.read_write_same hm a v,
    fun b hb => SigMem.read_write_other s.sig hb v⟩, fun ha => ?_⟩
  · exact hstep.trans (State.hostWrite_of_lt (s := s.dequeued rest) ha v)
  · exact hstep.trans (State.hostWrite_absent (s := s.dequeued rest) (not_lt.mpr ha) v)

/-- Settles O45: an idle step holds the state, and every other takes an input that is present. -/
theorem noStepStopsWhileHostKeepsToMemory : Obligations.NoStepStopsWhileHostKeepsToMemory := by
  intro s h
  cases hin : s.inputs with
  | nil => exact ⟨s, by simp only [step, hin]⟩
  | cons e rest =>
    have hpresent : e.present (s.dequeued rest).cfg = true := h e (hin ▸ List.mem_cons_self)
    rw [step_cons hin]
    exact takeInput_next hpresent

end Sys2Proof
end

section
/-! SUPPORT. The decoder and the encoder as inverses (30_encoding.md R70 to R80): a word decodes to a command exactly
when it is the encoding of that command and the command exists, so what is illegal can be read off the encodings. -/

namespace Sys2Proof

/-- A word is the packing of four fields exactly when it has them (R70). -/
theorem packWord_eq_iff {o s : BitVec 8} {v : Word} {cw : Word64} :
    packWord o s v = cw ↔ opcOf cw = o ∧ selOf cw = s ∧ zeroOf cw = 0 ∧ opndOf cw = v := by
  constructor
  · rintro rfl
    simp
  · rintro ⟨h1, h2, h3, h4⟩
    exact fields_ext (by simp [h1]) (by simp [h2]) (by simp [h3]) (by simp [h4])

/-- Where `SEL` is 0x00 or 0x01, the unit read from it is the one it was packed from (R72). -/
theorem selOf_eq_unitSel {cw : Word64} (h : selOf cw = 0x00#8 ∨ selOf cw = 0x01#8) :
    selOf cw = unitSel (unitOf cw) := by
  rw [unitOf_eq_selOf]
  rcases h with h | h <;> rw [h] <;> decide

theorem unitOf_packWord_unitSel (o : BitVec 8) (u : RbUnit) (v : Word) : unitOf (packWord o (unitSel u) v) = u := by
  rw [unitOf_eq_selOf, selOf_packWord]
  cases u <;> decide

theorem unitSel_zero_or_one (u : RbUnit) : unitSel u = 0x00#8 ∨ unitSel u = 0x01#8 := by cases u <;> decide

/-- The encoding of a command that exists matches the row of its operation code, and no row before it. -/
theorem decode_encode {i : Instr} (h : i.wellFormed = true) : decode (encode i) = .ok i := by
  rw [decode_eq]
  cases i with
  | rbPush u | rbPop u | rbReset u =>
    cases u with
    | dl => simp [encode, opcodeOf, unitSel]
    | lut => cases h
  | rbGet u | rbGetf u => simp [encode, opcodeOf, unitSel_zero_or_one, unitOf_packWord_unitSel]
  | _ => simp [encode, opcodeOf]

/-- A word that matches a row has every field of the encoding of the row's command. -/
theorem encode_of_decode {cw : Word64} {i : Instr} (h : decode cw = .ok i) : i.wellFormed = true ∧ encode i = cw := by
  rw [decode_eq] at h
  simp only [ite_ok_iff, reduceCtorEq, and_false, or_false] at h
  rcases h with ⟨h, rfl⟩ | ⟨-, ⟨h, rfl⟩ | ⟨-, ⟨h, rfl⟩ | ⟨-, ⟨h, rfl⟩ | ⟨-, ⟨h, rfl⟩ | ⟨-, ⟨h, rfl⟩ | ⟨-, ⟨h, rfl⟩ |
    ⟨-, ⟨h, rfl⟩ | ⟨-, ⟨h, rfl⟩ | ⟨-, ⟨h, rfl⟩ | ⟨-, ⟨h, rfl⟩ | ⟨-, h, rfl⟩⟩⟩⟩⟩⟩⟩⟩⟩⟩⟩
  all_goals refine ⟨rfl, packWord_eq_iff.mpr ?_⟩
  · exact h
  · obtain ⟨ho, hz, hv⟩ := h
    exact ⟨ho, rfl, hz, hv⟩
  · obtain ⟨ho, hz⟩ := h
    exact ⟨ho, rfl, hz, rfl⟩
  · obtain ⟨ho, hs, hz⟩ := h
    exact ⟨ho, hs, hz, rfl⟩
  · exact h
  · obtain ⟨ho, hs, hz⟩ := h
    exact ⟨ho, selOf_eq_unitSel hs, hz, rfl⟩
  · obtain ⟨ho, hs, hz⟩ := h
    exact ⟨ho, selOf_eq_unitSel hs, hz, rfl⟩
  · exact h
  · obtain ⟨ho, hs, hz⟩ := h
    exact ⟨ho, hs, hz, rfl⟩
  · exact h
  · exact h
  · exact h

theorem decode_ok_iff {cw : Word64} {i : Instr} : decode cw = .ok i ↔ i.wellFormed = true ∧ encode i = cw :=
  ⟨encode_of_decode, fun ⟨hw, he⟩ => he ▸ decode_encode hw⟩

/-- Settles O1: a command that exists is decoded from its encoding. -/
theorem decodeOfEncodeIsIdentity : Obligations.DecodeOfEncodeIsIdentity := fun _ => decode_encode

/-- Settles O2: every field of a word that decodes is that of the command's encoding. -/
theorem encodeOfDecodeIsIdentity : Obligations.EncodeOfDecodeIsIdentity := fun _ _ => encode_of_decode

end Sys2Proof
end

section
/-! SUPPORT. The rows of the opcode map are told apart by their operation codes (30_encoding.md R75, R76), and a word
is illegal exactly when it is the encoding of no command that exists (R78 to R80). -/

namespace Sys2Proof

open Machine

/-! The rows. -/

/-- Every mask asks for all of `OPC`. -/
theorem opcOf_mask {row : Word64 × Word64 × (Word64 → Instr)} (h : row ∈ opcodeMap) : opcOf row.2.1 = 0xFF#8 := by
  revert row
  decide

theorem opcOf_eq_of_row {cw : Word64} {row : Word64 × Word64 × (Word64 → Instr)} (h : row ∈ opcodeMap)
    (hm : cw &&& row.2.1 = row.1) : opcOf cw = opcOf row.1 := by
  obtain ⟨ho, -⟩ := (and_eq_iff_fields _ _ _).mp hm
  rwa [opcOf_mask h, and_byte_ones] at ho

theorem opcodeMap_opcodes_nodup : (opcodeMap.map fun row => opcOf row.1).Nodup := by decide

/-- The rows are disjoint (R75). -/
theorem row_unique {cw : Word64} {a b : Word64 × Word64 × (Word64 → Instr)} (ha : a ∈ opcodeMap) (hb : b ∈ opcodeMap)
    (hca : cw &&& a.2.1 = a.1) (hcb : cw &&& b.2.1 = b.1) : a = b :=
  List.inj_on_of_nodup_map opcodeMap_opcodes_nodup ha hb
    ((opcOf_eq_of_row ha hca).symm.trans (opcOf_eq_of_row hb hcb))

theorem opcodeMap_nodup : opcodeMap.Nodup := opcodeMap_opcodes_nodup.of_map _

/-- The first row that matches is the only one (R75). -/
theorem decode_of_row {cw : Word64} {row : Word64 × Word64 × (Word64 → Instr)} (h : row ∈ opcodeMap)
    (hm : cw &&& row.2.1 = row.1) : decode cw = .ok (row.2.2 cw) := by
  cases hf : opcodeMap.find? (rowMatches cw) with
  | none => exact absurd (beq_iff_eq.mpr hm) (List.find?_eq_none.mp hf row h)
  | some first =>
    have hfirst : rowMatches cw first = true := List.find?_some hf
    rw [decode, hf, row_unique h (List.mem_of_find?_eq_some hf) hm (beq_iff_eq.mp hfirst)]

theorem decode_of_no_row {cw : Word64} (h : ∀ row ∈ opcodeMap, cw &&& row.2.1 ≠ row.1) :
    decode cw = .error (illegalReason cw) := by
  have hf : opcodeMap.find? (rowMatches cw) = none :=
    List.find?_eq_none.mpr fun row hrow hm => h row hrow (beq_iff_eq.mp hm)
  rw [decode, hf]

/-! Illegal words. -/

/-- A word that selects no command raises ILLEGAL_CMD when a running block takes it (R78). -/
theorem raisesIllegalCmd_of_noCommand {cw : Word64} (h : NoCommand cw) : RaisesIllegalCmd cw := by
  cases hd : decode cw with
  | ok i => simp [NoCommand, hd, Except.toOption] at h
  | error e => exact raisesIllegalCmd_of_error hd

/-- A word that encodes no command that exists is illegal (R78). -/
theorem raisesIllegalCmd_of_not_encoding {cw : Word64} (h : ∀ i, i.wellFormed = true → encode i ≠ cw) :
    RaisesIllegalCmd cw := by
  cases hd : decode cw with
  | ok i =>
    obtain ⟨hw, he⟩ := encode_of_decode hd
    exact absurd he (h i hw)
  | error e => exact raisesIllegalCmd_of_error hd

/-! The fields of an encoding. -/

/-- The fixed fields of every encoding, from those of each command (R70, R71, R76). -/
theorem encode_fixed_fields (i : Instr) : Laws.ReservedBits.Statement i := by
  cases i with
  | nop => exact Laws.ReservedBits.nop
  | rdreg r => exact Laws.ReservedBits.rdreg r
  | wrreg r v => exact Laws.ReservedBits.wrreg r v
  | rbPush u v => exact Laws.ReservedBits.rbPush u v
  | rbPop u => exact Laws.ReservedBits.rbPop u
  | rbGet u o => exact Laws.ReservedBits.rbGet u o
  | rbGetf u f => exact Laws.ReservedBits.rbGetf u f
  | rbReset u => exact Laws.ReservedBits.rbReset u
  | oscSample k => exact Laws.ReservedBits.oscSample k
  | oscReset => exact Laws.ReservedBits.oscReset
  | vibProcess => exact Laws.ReservedBits.vibProcess
  | vibReset => exact Laws.ReservedBits.vibReset

@[simp] theorem opcOf_encode (i : Instr) : opcOf (encode i) = opcodeOf i := by
  obtain ⟨ho, -, -⟩ := encode_fixed_fields i
  exact ho

@[simp] theorem zeroOf_encode (i : Instr) : zeroOf (encode i) = 0 := by
  obtain ⟨-, hz, -⟩ := encode_fixed_fields i
  exact hz

theorem opndOf_encode_of_no_operand {i : Instr} (h : opcodeOf i ∉ operandOpcodes) : opndOf (encode i) = 0 := by
  obtain ⟨-, -, hv⟩ := encode_fixed_fields i
  exact hv (by simpa using h)

theorem opcodeOf_mem_usedOpcodes (i : Instr) : opcodeOf i ∈ usedOpcodes := by
  cases i <;> simp [opcodeOf, usedOpcodes]

/-- `SEL` is zero where the command names neither a register nor a unit (R72). -/
theorem selOf_encode_of_no_select {i : Instr} (h : opcodeOf i ∈ [0x00#8, 0x20#8, 0x21#8, 0x30#8, 0x31#8]) :
    selOf (encode i) = 0 := by
  cases i with
  | nop | oscSample | oscReset | vibProcess | vibReset => exact selOf_packWord _ _ _
  | _ => simp [opcodeOf] at h

/-- `SEL` of a ring command is that of a unit, and of `dl` where the command changes the buffer (R72, R80). -/
theorem selOf_encode_of_ring {i : Instr} (h : opcodeOf i ∈ [0x10#8, 0x11#8, 0x12#8, 0x13#8, 0x14#8]) :
    ∃ u, selOf (encode i) = unitSel u := by
  cases i with
  | rbPush u | rbPop u | rbGet u | rbGetf u | rbReset u => exact ⟨u, selOf_packWord _ _ _⟩
  | _ => simp [opcodeOf] at h

theorem selOf_encode_of_mutating {i : Instr} (hw : i.wellFormed = true) (h : opcodeOf i ∈ [0x10#8, 0x11#8, 0x14#8]) :
    selOf (encode i) = unitSel .dl := by
  cases i with
  | rbPush u | rbPop u | rbReset u =>
    cases u with
    | dl => exact selOf_packWord _ _ _
    | lut => cases hw
  | _ => simp [opcodeOf] at h

/-! The cases (a) to (e) of R78. -/

theorem raisesIllegalCmd_of_reserved_opcode {cw : Word64} (h : opcOf cw ∉ usedOpcodes) : RaisesIllegalCmd cw := by
  refine raisesIllegalCmd_of_not_encoding ?_
  rintro i - rfl
  exact h (opcOf_encode i ▸ opcodeOf_mem_usedOpcodes i)

theorem raisesIllegalCmd_of_nonzero_zero {cw : Word64} (h : zeroOf cw ≠ 0) : RaisesIllegalCmd cw := by
  refine raisesIllegalCmd_of_not_encoding ?_
  rintro i - rfl
  exact h (zeroOf_encode i)

theorem raisesIllegalCmd_of_nonzero_operand {cw : Word64} (ho : opcOf cw ∉ operandOpcodes) (h : opndOf cw ≠ 0) :
    RaisesIllegalCmd cw := by
  refine raisesIllegalCmd_of_not_encoding ?_
  rintro i - rfl
  rw [opcOf_encode] at ho
  exact h (opndOf_encode_of_no_operand ho)

theorem raisesIllegalCmd_of_nonzero_select {cw : Word64} (ho : opcOf cw ∈ [0x00#8, 0x20#8, 0x21#8, 0x30#8, 0x31#8])
    (h : selOf cw ≠ 0) : RaisesIllegalCmd cw := by
  refine raisesIllegalCmd_of_not_encoding ?_
  rintro i - rfl
  rw [opcOf_encode] at ho
  exact h (selOf_encode_of_no_select ho)

theorem raisesIllegalCmd_of_no_unit {cw : Word64} (ho : opcOf cw ∈ [0x10#8, 0x11#8, 0x12#8, 0x13#8, 0x14#8])
    (h : 2 ≤ (selOf cw).toNat) : RaisesIllegalCmd cw := by
  refine raisesIllegalCmd_of_not_encoding ?_
  rintro i - rfl
  rw [opcOf_encode] at ho
  obtain ⟨u, hu⟩ := selOf_encode_of_ring ho
  rw [hu] at h
  cases u <;> exact absurd h (by decide)

theorem raisesIllegalCmd_of_mutating_lut {cw : Word64} (ho : opcOf cw ∈ [0x10#8, 0x11#8, 0x14#8])
    (h : selOf cw = unitSel .lut) : RaisesIllegalCmd cw := by
  refine raisesIllegalCmd_of_not_encoding ?_
  rintro i hw rfl
  rw [opcOf_encode] at ho
  rw [selOf_encode_of_mutating hw ho] at h
  exact absurd h (by decide)

/-! Register numbers that name no register (R78, R176, R177). -/

theorem regOf_eq_none {r : RegNum} (h : r ∉ allRegs.map Reg.number) : regOf r = none :=
  List.find?_eq_none.mpr fun x hx hr => h (List.mem_map.mpr ⟨x, hx, beq_iff_eq.mp hr⟩)

theorem exec_rdreg_badReg {s : State} {r : RegNum} (hs : s.halted = false) (hr : regOf r = none) :
    exec (.rdreg r) s = .next (s.faulted Cause.badReg.code 0 0) := by
  simp [exec_rdreg, hr, hs, State.raise_advance]

theorem exec_wrreg_badReg {s : State} {r : RegNum} (hs : s.halted = false) (hr : regOf r = none) (v : Word) :
    exec (.wrreg r v) s = .next (s.faulted Cause.badReg.code 0 0) := by
  simp [exec_wrreg_running hs, hr, State.raise_advance]

/-! The obligations. -/

/-- Settles O3: the rows differ in their operation codes. -/
theorem decoderSelectsTheOneMatchingRow : Obligations.DecoderSelectsTheOneMatchingRow := by
  refine ⟨fun cw i j hi hj hne ⟨hmi, hmj⟩ => hne ?_, fun cw row => decode_of_row, fun cw h =>
    raisesIllegalCmd_of_error (decode_of_no_row h)⟩
  exact (opcodeMap_nodup.getElem_inj_iff).mp (row_unique (List.getElem_mem hi) (List.getElem_mem hj) hmi hmj)

/-- Settles O4: a word whose fields no encoding has is illegal; RDREG and WRREG decode from their encodings. -/
theorem illegalEncodingsRaiseIllegalCmd : Obligations.IllegalEncodingsRaiseIllegalCmd := by
  refine ⟨fun _ => raisesIllegalCmd_of_noCommand, fun cw => ?_, fun _ => raisesIllegalCmd_of_reserved_opcode,
    fun _ => raisesIllegalCmd_of_nonzero_zero, fun cw ho => raisesIllegalCmd_of_nonzero_operand ?_,
    fun _ => raisesIllegalCmd_of_nonzero_select, fun _ => raisesIllegalCmd_of_no_unit,
    fun r => decode_encode (i := .rdreg r) rfl, fun r v => decode_encode (i := .wrreg r v) rfl,
    fun s r v hs hr => ⟨exec_rdreg_badReg hs (regOf_eq_none hr), exec_wrreg_badReg hs (regOf_eq_none hr) v⟩⟩
  · have hnop : encode .nop = 0 := by decide
    rw [decode_ok_iff, hnop]
    exact ⟨fun ⟨_, h⟩ => h.symm, fun h => ⟨rfl, h.symm⟩⟩
  · have hno : ∀ o ∈ [0x00#8, 0x01#8, 0x11#8, 0x14#8, 0x21#8, 0x30#8, 0x31#8], o ∉ operandOpcodes := by decide
    exact hno _ ho

/-- Settles O7: a mutating ring command that exists is encoded with `dl`, and only two effects change the table. -/
theorem mutatingRingCommandsExistOnDlOnly : Obligations.MutatingRingCommandsExistOnDlOnly := by
  refine ⟨fun _ => raisesIllegalCmd_of_mutating_lut, fun _ _ => decode_encode rfl, fun _ _ => decode_encode rfl,
    fun i s t h => ?_⟩
  obtain ⟨u, e, rfl⟩ := exec_next h
  exact e.lut_eq_or.resolve_left

/-- Settles O5: the zero word is the encoding of NOP, and 0xFF is no operation code. -/
theorem zeroWordIsNopAndOnesIllegal : Obligations.ZeroWordIsNopAndOnesIllegal := by
  have hopc : opcOf (BitVec.allOnes 64) = 0xFF#8 := by decide
  obtain ⟨hno, -⟩ := raisesIllegalCmd_of_reserved_opcode (cw := BitVec.allOnes 64) (by rw [hopc]; decide)
  exact ⟨decode_encode (i := .nop) rfl, hopc, hno⟩

/-- Settles O6: the six legal words are encodings; of the others one names the table in RB.PUSH and one has an operand
in VIB.RESET. -/
theorem sampleWordsDecode : Obligations.SampleWordsDecode := by
  obtain ⟨hpush, -⟩ := raisesIllegalCmd_of_mutating_lut (cw := 0x1001000000000005#64) (by decide) (by decide)
  obtain ⟨hreset, -⟩ := raisesIllegalCmd_of_nonzero_operand (cw := 0x3100000080000000#64) (by decide) (by decide)
  exact ⟨decode_encode (i := .rdreg 0x08#8) rfl, decode_encode (i := .wrreg 0x03#8 20#32) rfl,
    decode_encode (i := .rbPush .dl 0x00010000#32) rfl, decode_encode (i := .rbGetf .lut 0x00098000#32) rfl,
    decode_encode (i := .oscSample 2#32) rfl, decode_encode (i := .vibProcess) rfl, hpush, hreset⟩

end Sys2Proof
end

section
/-! SUPPORT. The answer to a command word (30_encoding.md R73, R74): which code it has, and what its value may be. -/

namespace Sys2Proof.Machine

/-- The value `val` is one that the code `rc` may carry in a state `s`: 0 in a fault's answer, STATUS in a HALTED
answer, and 0 with OK if the command returns no value (R74). -/
def Rc.Carries (s : State) (noValue : Prop) (val : Word) : Rc → Prop
  | .ok => noValue → val = 0
  | .fault _ => val = 0
  | .halted => val = s.status

/-- `t` is `s` with one more answer, its value one that its code may carry. -/
def Answered (s t : State) (noValue : Prop) : Prop :=
  ∃ rc val, t.responses = s.responses ++ [responseWord rc val] ∧ Rc.Carries s noValue val rc

section Answers

variable {i : Instr} {s u : State} {p q : Prop}

theorem Answered.imp (h : Answered s u p) (hpq : q → p) : Answered s u q := by
  obtain ⟨rc, val, hr, hc⟩ := h
  refine ⟨rc, val, hr, ?_⟩
  cases rc with
  | ok => exact fun hq => hc (hpq hq)
  | fault f => exact hc
  | halted => exact hc

theorem answered_ok (h : u.responses = s.responses) (val : Word) (hv : p → val = 0) : Answered s (u.respondOk val) p :=
  ⟨.ok, val, by simp [h], hv⟩

theorem answered_halted : Answered s s.respondHalted p := ⟨.halted, s.status, rfl, rfl⟩

theorem answered_raise (h : u.responses = s.responses) (f : Cause) (ch idx : Nat) : Answered s (u.raise f ch idx) p :=
  ⟨.fault f, 0, by simp [h], rfl⟩

theorem Effect.cp_eq (e : Effect s i u) : u.cp = s.cp := by cases e <;> rfl

/-- Every effect emits one answer (R73). -/
theorem Effect.answered (e : Effect s i u) : Answered s u False := by
  cases e with
  | halted => exact answered_halted
  | raise i f => exact answered_raise rfl f 0 0
  | processNeg w c n => exact answered_raise rfl .negOffset c n
  | _ => exact answered_ok rfl _ False.elim

theorem State.writeReg_responses {t : State} {x : Reg} {v : Word} (h : s.writeReg x v = some t) :
    t.responses = s.responses := by
  rcases State.writeReg_some h with ⟨-, rfl⟩ | ⟨-, rfl⟩ | ⟨-, rfl⟩ <;> rfl

/-- A command that returns no value answers OK with 0 on a running block, or a fault (R74). -/
theorem exec_answered_of_running (hs : s.halted = false) (hv : i.returnsValue = false) :
    ∃ u, exec i s = .next u.advance ∧ Answered s u True := by
  cases i with
  | nop => exact ⟨_, exec_nop s, answered_ok rfl 0 fun _ => rfl⟩
  | wrreg r v =>
    rw [exec_wrreg_running hs]
    cases hw : (regOf r).bind (fun x => s.writeReg x v) with
    | none => exact ⟨_, rfl, answered_raise rfl .badReg 0 0⟩
    | some t =>
      obtain ⟨x, -, hx⟩ := Option.bind_eq_some_iff.mp hw
      exact ⟨_, rfl, answered_ok (State.writeReg_responses hx) 0 fun _ => rfl⟩
  | rbPush u v =>
    cases u with
    | dl => exact ⟨_, exec_rbPush_running hs v, answered_ok rfl 0 fun _ => rfl⟩
    | lut => exact ⟨_, exec_illFormed_running hs rfl, answered_raise rfl .illegalCmd 0 0⟩
  | rbReset u =>
    cases u with
    | dl => exact ⟨_, exec_rbReset_running hs, answered_ok rfl 0 fun _ => rfl⟩
    | lut => exact ⟨_, exec_illFormed_running hs rfl, answered_raise rfl .illegalCmd 0 0⟩
  | oscReset => exact ⟨_, exec_oscReset_running hs, answered_ok rfl 0 fun _ => rfl⟩
  | vibReset => exact ⟨_, exec_vibReset_running hs, answered_ok rfl 0 fun _ => rfl⟩
  | vibProcess =>
    rw [exec_vibProcess_running hs]
    rcases vibProcessBody_cases hs with h | h | h | ⟨-, w, -, h⟩ | ⟨-, w, c, n, -, h⟩ <;> rw [h]
    · exact ⟨_, rfl, answered_ok rfl 0 fun _ => rfl⟩
    · exact ⟨_, rfl, answered_raise rfl .shortSignal 0 0⟩
    · exact ⟨_, rfl, answered_raise rfl .badRange 0 0⟩
    · exact ⟨_, rfl, answered_ok rfl 0 fun _ => rfl⟩
    · exact ⟨_, rfl, answered_raise rfl .negOffset c n⟩
  | rdreg | rbPop | rbGet | rbGetf | oscSample => cases hv

/-- A command that returns no value answers OK with 0, a fault, or HALTED (R74, R188). -/
theorem exec_answered_without_value (s : State) (hv : i.returnsValue = false) :
    ∃ u, exec i s = .next u.advance ∧ Answered s u True := by
  cases hs : s.halted with
  | false => exact exec_answered_of_running hs hv
  | true =>
    by_cases hnop : i = .nop
    · subst hnop
      exact ⟨_, exec_nop s, answered_ok rfl 0 fun _ => rfl⟩
    · have hreg : ∀ r, i ≠ .rdreg r := by
        rintro r rfl
        cases hv
      exact ⟨_, exec_halted hs i hnop hreg, answered_halted⟩

theorem exec_answered (i : Instr) (s : State) :
    ∃ u, exec i s = .next u.advance ∧ Answered s u (i.returnsValue = false) := by
  cases hv : i.returnsValue with
  | true =>
    obtain ⟨u, e, hu⟩ := exec_effect i s
    exact ⟨u, hu, e.answered.imp Bool.noConfusion⟩
  | false =>
    obtain ⟨u, hu, ha⟩ := exec_answered_without_value s hv
    exact ⟨u, hu, ha.imp fun _ => trivial⟩

/-- Every command word is answered once, legal or not, with a value only if it is a command that returns one (R73). -/
theorem runWord_answered (cw : Word64) (s : State) :
    ∃ u, runWord cw s = .next u.advance ∧ Answered s u (∀ i, decode cw = .ok i → i.returnsValue = false) := by
  cases hd : decode cw with
  | ok i =>
    obtain ⟨u, hu, ha⟩ := exec_answered i s
    exact ⟨u, by simp only [runWord, hd, hu], ha.imp fun h => h i rfl⟩
  | error e =>
    cases hs : s.halted with
    | false => exact ⟨_, runWord_illegal hd hs, answered_raise rfl .illegalCmd 0 0⟩
    | true => exact ⟨_, runWord_illegal_halted hd hs, answered_halted⟩

theorem runWord_cp_inputs {cw : Word64} {s t : State} (h : runWord cw s = .next t) :
    t.cp = s.cp + 1 ∧ t.inputs = s.inputs := by
  obtain ⟨i, u, e, hu⟩ := runWord_effect cw s
  obtain rfl := Host.Outcome.next.inj (hu.symm.trans h)
  exact ⟨congrArg (· + 1) e.cp_eq, e.inputs_eq⟩

end Answers

theorem Rc.code_mem (rc : Rc) : rc.code ∈ [0x00#8, 0x01#8, 0x02#8, 0x03#8, 0x04#8, 0x05#8, 0xFF#8] := by
  cases rc with
  | fault f => cases f <;> decide
  | ok | halted => decide

/-- What a code may carry, in terms of its number (R74). -/
theorem Rc.Carries.by_code {s : State} {p : Prop} {val : Word} {rc : Rc} (h : Rc.Carries s p val rc) :
    (rc.code ∈ [0x01#8, 0x02#8, 0x03#8, 0x04#8, 0x05#8] → val = 0) ∧ (rc.code = 0xFF#8 → val = s.status) ∧
    (p → rc.code ≠ 0xFF#8 → val = 0) := by
  cases rc with
  | ok => exact ⟨fun hc => absurd hc (by decide), fun hc => absurd hc (by decide), fun hp _ => h hp⟩
  | fault f => exact ⟨fun _ => h, fun hc => absurd hc (by cases f <;> decide), fun _ _ => h⟩
  | halted => exact ⟨fun hc => absurd hc (by decide), fun _ => h, fun _ hne => absurd rfl hne⟩

end Sys2Proof.Machine

namespace Sys2Proof

open Machine

/-- Settles O9: the step runs the word on the dequeued state, which answers once. -/
theorem everyCommandAnswersExactlyOnce : Obligations.EveryCommandAnswersExactlyOnce := by
  intro s cw rest hin
  obtain ⟨u, hu, rc, val, hr, hc⟩ := runWord_answered cw (s.dequeued rest)
  obtain ⟨hcp, hinputs⟩ := runWord_cp_inputs hu
  exact ⟨u.advance, rc.code, val, (step_cons hin).trans hu, hr, hcp, hinputs, rc.code_mem, hc.by_code⟩

end Sys2Proof
end

section
/-! SUPPORT. The pseudo-instructions of the assembler (30_encoding.md R83). -/

namespace Sys2Proof.Machine

theorem AsmOperand.word_num {n : Nat} (h : n < 2 ^ 32) : (AsmOperand.num n).word = some (BitVec.ofNat 32 n) := if_pos h

/-- Commands that all exist pass the unit check of R82. -/
theorem assembleOps_of_expandLine {m : Mnemonic} {ops : List AsmOperand} {is : List Instr}
    (h : expandLine m ops = some is) (hw : is.all Instr.wellFormed = true) : assembleOps m ops = some is := by
  rw [assembleOps, h, Option.bind_some, if_pos hw]

/-- Three numerals that fit in a word, as the arguments of SETSIG and VIB.RUN. -/
theorem bind_word_num {α : Type} {a b c : Nat} (ha : a < 2 ^ 32) (hb : b < 2 ^ 32) (hc : c < 2 ^ 32)
    (f : Word → Word → Word → α) :
    ((AsmOperand.num a).word.bind fun x => (AsmOperand.num b).word.bind fun y => (AsmOperand.num c).word.map fun z =>
      f x y z) = some (f (BitVec.ofNat 32 a) (BitVec.ofNat 32 b) (BitVec.ofNat 32 c)) := by
  simp only [AsmOperand.word_num ha, AsmOperand.word_num hb, AsmOperand.word_num hc, Option.bind_some, Option.map_some]

end Sys2Proof.Machine

namespace Sys2Proof

open Machine

/-- Settles O55: each expansion of the table passes the unit check, its commands all existing. -/
theorem pseudoInstructionsExpand : Obligations.PseudoInstructionsExpand :=
  ⟨fun _ => assembleOps_of_expandLine rfl rfl,
    fun _ _ _ hb hc hl => assembleOps_of_expandLine (bind_word_num hb hc hl expandSetSig) rfl,
    assembleOps_of_expandLine rfl rfl,
    fun _ _ _ hb hc hl => assembleOps_of_expandLine (bind_word_num hb hc hl expandVibRun) rfl⟩

end Sys2Proof
end

section
/-! SUPPORT. Rounding to the nearest integer as one floor (40_fixed_point.md): the rounding shift of R93 and R94, and
the two roundings of the elaboration (R101, R102). -/

namespace Sys2Proof.Machine

/-- Adding one half before the floor picks the one integer within one half of `y`, the larger one of a tie. -/
theorem eq_floor_add_half_iff (y : ℝ) (q : Int) :
    q = ⌊y + 1 / 2⌋ ↔ -(1 / 2) < (q : ℝ) - y ∧ (q : ℝ) - y ≤ 1 / 2 := by
  rw [eq_comm, Int.floor_eq_iff]
  constructor <;> rintro ⟨h1, h2⟩ <;> constructor <;> linarith

theorem abs_floor_add_half_sub_le (y : ℝ) : |(⌊y + 1 / 2⌋ : ℝ) - y| ≤ 1 / 2 := by
  rw [← round_eq, abs_sub_comm]
  exact abs_sub_round y

/-- The shift by 16 is the floor of the real quotient (R13). -/
theorem asr_sixteen_eq_floor (v : Int) : asr v 16 = ⌊(v : ℝ) / 65536⌋ := by
  have h := Int.floor_div_natCast (v : ℝ) 65536
  rw [Int.floor_intCast] at h
  exact_mod_cast h.symm

/-! The fixed-point product (R93). -/

theorem fxmul_one (a : Int) : fxmul a 65536 = a := by
  rw [fxmul_eq]
  omega

theorem one_fxmul (b : Int) : fxmul 65536 b = b := by
  rw [fxmul_eq]
  omega

theorem fxmul_neg_one (a : Int) : fxmul a (-65536) = -a := by
  rw [fxmul_eq]
  omega

theorem fxmul_zero (a : Int) : fxmul a 0 = 0 := by simp [fxmul_eq]

theorem zero_fxmul (b : Int) : fxmul 0 b = 0 := by simp [fxmul_eq]

/-! The interpolation (R95). -/

theorem lerp_zero_frac (a b : Int) : lerp a b 0 = a := by simp [lerp_one_multiplier]

theorem lerp_self (a fr : Int) : lerp a a fr = a := by simp [lerp_one_multiplier]

/-- The result stays in the interval of its inputs (R95 (c)). -/
theorem min_le_lerp_le_max (a b : Int) {fr : Int} (h0 : 0 ≤ fr) (h1 : fr ≤ 65535) :
    min a b ≤ lerp a b fr ∧ lerp a b fr ≤ max a b := by
  rw [lerp_one_multiplier]
  rcases le_total 0 (b - a) with h | h
  · have := lerp_step_bounds (b - a) fr h h0 h1
    omega
  · have := lerp_step_bounds_neg (b - a) fr h h0 h1
    omega

/-- Between two sample words `lerp` does not wrap in a word (R95 (c)). -/
theorem sext32_word32_lerp (a b : Word) {fr : Int} (h0 : 0 ≤ fr) (h1 : fr ≤ 65535) :
    sext32 (word32 (lerp (sext32 a) (sext32 b) fr)) = lerp (sext32 a) (sext32 b) fr := by
  obtain ⟨hlow, hhigh⟩ := lerp_range _ _ fr (sext32_bounds a) (sext32_bounds b) h0 h1
  exact sext32_word32 _ hlow hhigh

theorem lerp_mono_frac {a b fr fr' : Int} (hab : a ≤ b) (hfr : fr ≤ fr') : lerp a b fr ≤ lerp a b fr' := by
  have hp : (b - a) * fr ≤ (b - a) * fr' := mul_le_mul_of_nonneg_left hfr (by omega)
  rw [lerp_one_multiplier, lerp_one_multiplier]
  omega

/-- `lerp` rounds the real interpolation once (R94). -/
theorem lerp_eq_floor_add_half (a b fr : Int) :
    lerp a b fr = ⌊(a : ℝ) + ((b : ℝ) - a) * fr / 65536 + 1 / 2⌋ := by
  rw [lerp, asr_sixteen_eq_floor]
  push_cast
  congr 1
  ring

theorem lerp_half (a b : Int) : lerp a b 32768 = (a + b + 1) / 2 := by
  rw [lerp_eq]
  omega

/-! Ties away from zero (R101). -/

theorem roundHalfAway_of_nonneg {x : ℝ} (h : 0 ≤ x) : roundHalfAway x = ⌊x + 1 / 2⌋ := if_neg h.not_gt

theorem roundHalfAway_of_neg {x : ℝ} (h : x < 0) : roundHalfAway x = -⌊-x + 1 / 2⌋ := if_pos h

theorem roundHalfAway_eq_sign_mul (x : ℝ) : roundHalfAway x = SignType.sign x * ⌊|x| + 1 / 2⌋ := by
  rcases lt_trichotomy x 0 with h | rfl | h
  · simp [roundHalfAway_of_neg h, abs_of_neg h, sign_neg h]
  · norm_num [roundHalfAway_of_nonneg]
  · simp [roundHalfAway_of_nonneg h.le, abs_of_pos h, sign_pos h]

/-- The magnitude of the result is the rounded magnitude, and both lie on the same side of zero: the error of
`roundHalfAway` is the error of rounding `|x|`. -/
theorem abs_roundHalfAway_sub (x : ℝ) : |(roundHalfAway x : ℝ) - x| = |(⌊|x| + 1 / 2⌋ : ℝ) - (|x|)| := by
  rcases le_or_gt 0 x with h | h
  · rw [roundHalfAway_of_nonneg h, abs_of_nonneg h]
  · rw [roundHalfAway_of_neg h, abs_of_neg h, ← abs_neg]
    push_cast
    ring_nf

theorem abs_roundHalfAway (x : ℝ) : |(roundHalfAway x : ℝ)| = ⌊|x| + 1 / 2⌋ := by
  have hpos : (0 : ℝ) ≤ ⌊|x| + 1 / 2⌋ := by exact_mod_cast Int.floor_nonneg.mpr (by positivity)
  rcases le_or_gt 0 x with h | h
  · rw [abs_of_nonneg h] at hpos ⊢
    rw [roundHalfAway_of_nonneg h, abs_of_nonneg hpos]
  · rw [abs_of_neg h] at hpos ⊢
    rw [roundHalfAway_of_neg h, Int.cast_neg, abs_neg, abs_of_nonneg hpos]

/-- A tie goes away from zero: rounding a magnitude never goes down by a whole half, so a tie goes up by one. -/
theorem abs_lt_abs_roundHalfAway_of_tie {x : ℝ} (h : |(roundHalfAway x : ℝ) - x| = 1 / 2) :
    |x| < |(roundHalfAway x : ℝ)| := by
  rw [abs_roundHalfAway_sub] at h
  rw [abs_roundHalfAway]
  obtain ⟨hlow, -⟩ := (eq_floor_add_half_iff |x| _).mp rfl
  rcases eq_or_eq_neg_of_abs_eq h with h | h <;> linarith

end Sys2Proof.Machine

namespace Sys2Proof

open Machine

/-- Settles O29: the range and the fit come from `|fxmul a b| <= |b|`. -/
theorem fxmulRoundsToNearest : Obligations.FxmulRoundsToNearest := by
  refine ⟨fun a b => asr_sixteen_eq_floor _,
    fun a b => ⟨fxmul_zero a, zero_fxmul b, fxmul_one a, one_fxmul b, fxmul_neg_one a⟩, fun a b ha ha' hb hb' => ?_⟩
  have h : |fxmul a b| ≤ 2 ^ 31 - 1 := (abs_fxmul_le a b (abs_le.mpr ⟨ha, ha'⟩)).trans (abs_le.mpr ⟨hb, hb'⟩)
  obtain ⟨hlow, hhigh⟩ := abs_le.mp h
  exact ⟨h, sext32_word32 _ (by omega) (by omega)⟩

/-- Settles O30: a law each, from the one-multiplier form, and the error from the single rounding. -/
theorem lerpObeysItsLaws : Obligations.LerpObeysItsLaws := by
  refine ⟨lerp_zero_frac, fun a fr _ _ => lerp_self a fr, fun a b fr => min_le_lerp_le_max a b,
    fun a b fr => sext32_word32_lerp a b, fun fr _ _ => lerp_self 0 fr,
    fun a b fr fr' hab _ hfr _ => lerp_mono_frac hab hfr, fun a b fr _ _ => ?_, lerp_half, lerp_one_multiplier⟩
  rw [lerp_eq_floor_add_half]
  exact abs_floor_add_half_sub_le _

/-- Settles O51: the error of `roundHalfAway x` is the error of rounding `|x|`. -/
theorem roundHalfAwayIsNearest : Obligations.RoundHalfAwayIsNearest := fun x =>
  ⟨roundHalfAway_eq_sign_mul x, (abs_roundHalfAway_sub x).trans_le (abs_floor_add_half_sub_le |x|),
    abs_lt_abs_roundHalfAway_of_tie, roundHalfAway_of_nonneg⟩

/-- Settles O52: `quant x` rounds `65536 * x`. -/
theorem quantIsFixedByItsConstraint : Obligations.QuantIsFixedByItsConstraint := by
  intro x q
  rw [quant, mul_comm x]
  exact eq_floor_add_half_iff (65536 * x) q

end Sys2Proof
end

section
/-! SUPPORT. The ring-buffer commands (41_ring_buffer.md): what a read of a buffer in shape finds, what the slots hold
after pushes and pops from a reset (R122, R123), and the command words of the mutating ring commands (R80). -/

namespace Sys2Proof.Machine

/-! Reads of a buffer in shape. -/

/-- `get` answers an existing slot (R114). -/
theorem RingBuf.Shaped.getElem?_get {u : RingBuf} {n : Nat} (h : u.Shaped n) (o : Nat) :
    u.mem[(u.rd + o) % n]? = some (u.get o) := by
  rw [RingBuf.get, h.cap_eq]
  exact RingBuf.getElem?_eq_slot h.length (Nat.mod_lt _ h.pos)

/-- `pop` answers an existing slot (R113). -/
theorem RingBuf.Shaped.getElem?_popped {u : RingBuf} {n : Nat} (h : u.Shaped n) : u.mem[u.rd]? = some u.popped :=
  RingBuf.getElem?_eq_slot h.length h.rd_lt

/-- The popped word is the one at offset 0 (R113, R114). -/
theorem RingBuf.Shaped.popped_eq_get {u : RingBuf} {n : Nat} (h : u.Shaped n) : u.popped = u.get 0 := by
  rw [RingBuf.get, h.cap_eq, Nat.add_zero, Nat.mod_eq_of_lt h.rd_lt]
  rfl

/-- An offset that is not negative, read as the unsigned field it is (R71, R96). -/
theorem RingBuf.getf_toInt_of_nonneg {u : RingBuf} {f : Word} (h : 0 ≤ f.toInt) :
    u.getf f.toInt = some (word32 (lerp (sext32 (u.get (f.toNat / 65536))) (sext32 (u.get (f.toNat / 65536 + 1)))
      (f.toNat % 65536 : Nat))) := by
  have hf : f.toInt = (f.toNat : Int) := by
    have := BitVec.toInt_eq_toNat_cond f
    split at this <;> omega
  have hi : ((f.toNat : Int) / 65536).toNat = f.toNat / 65536 := by omega
  rw [RingBuf.getf_of_nonneg h, hf, hi]
  rfl

/-- RB.GETF at an offset that is not negative, on either unit (R120). -/
theorem exec_rbGetf_nonneg {s : State} (hs : s.halted = false) {u : RbUnit} {f : Word} (hf : 0 ≤ f.toInt) :
    exec (.rbGetf u f) s = .next (s.answered 0x00 (word32 (lerp (sext32 ((s.unit u).get (f.toNat / 65536)))
      (sext32 ((s.unit u).get (f.toNat / 65536 + 1))) (f.toNat % 65536 : Nat)))) := by
  rw [exec_rbGetf_running hs, RingBuf.getf_toInt_of_nonneg hf]
  rfl

/-- RB.GETF at a negative offset (R120). -/
theorem exec_rbGetf_neg {s : State} (hs : s.halted = false) (u : RbUnit) {f : Word} (hf : f.toInt < 0) :
    exec (.rbGetf u f) s = .next (s.faulted Cause.negOffset.code 0 0) := by
  rw [exec_rbGetf_running hs, RingBuf.getf_of_neg hf]
  exact congrArg _ (State.raise_advance s .negOffset 0 0)

/-! A buffer after pushes and pops from a reset. -/

section AfterReset

variable {u : RingBuf} (h : 0 < u.mem.length) (ops : List RingOp)
include h

theorem RingBuf.shaped_zeroed : u.zeroed.Shaped u.mem.length := by
  rw [RingBuf.zeroed_eq_new]
  exact RingBuf.shaped_new h

theorem RingBuf.shaped_applyAll_zeroed : (u.zeroed.applyAll ops).Shaped u.mem.length :=
  (RingBuf.shaped_zeroed h).applyAll ops

/-- The write cursor counts the pushes (R122). -/
theorem RingBuf.wr_applyAll_zeroed : (u.zeroed.applyAll ops).wr = (pushedWords ops).length % u.mem.length := by
  have hz := RingBuf.shaped_zeroed h
  simp [hz.applyAll_eq ops, RingBuf.pushAll_wr hz]

/-- The read cursor counts the pops (R122). -/
theorem RingBuf.rd_applyAll_zeroed : (u.zeroed.applyAll ops).rd = popCount ops % u.mem.length := by
  simp [(RingBuf.shaped_zeroed h).applyAll_eq ops]

/-- The `t`-th word pushed stands in slot `t mod N` until a capacity of words came after it (R123). -/
theorem RingBuf.getElem?_applyAll_zeroed {t : Nat} (ht : t < (pushedWords ops).length)
    (hq : (pushedWords ops).length - t ≤ u.mem.length) :
    (u.zeroed.applyAll ops).mem[t % u.mem.length]? = (pushedWords ops)[t]? := by
  have hz := RingBuf.shaped_zeroed h
  have hslot := RingBuf.slot_pushAll hz (pushedWords ops) t ht hq
  rw [RingBuf.zeroed_wr, Nat.zero_add] at hslot
  rw [hz.applyAll_eq ops, RingBuf.getElem?_eq_slot (hz.pushAll _).length (Nat.mod_lt t h), hslot,
    List.getD_eq_getElem _ _ ht, List.getElem?_eq_getElem ht]

/-- A slot no word was pushed to is zero, as the reset left it (R123, R115). -/
theorem RingBuf.getElem?_applyAll_zeroed_unreached {j : Nat} (hj : j < u.mem.length)
    (hno : ∀ t, t < (pushedWords ops).length → t % u.mem.length ≠ j) :
    (u.zeroed.applyAll ops).mem[j]? = some 0 := by
  have hz := RingBuf.shaped_zeroed h
  have hslot : (u.zeroed.pushAll (pushedWords ops)).slot j = u.zeroed.slot j :=
    RingBuf.slot_pushAll_unreached hz _ j fun p hp => by
      rw [RingBuf.zeroed_wr, Nat.zero_add]
      exact (hno p hp).symm
  rw [hz.applyAll_eq ops, RingBuf.getElem?_eq_slot (hz.pushAll _).length hj, hslot]
  simp [RingBuf.slot, RingBuf.zeroed, hj]

/-- `get` at offset `o` after `q` pops answers word `q + o`, if it is pushed and not yet overwritten (R123). -/
theorem RingBuf.get_applyAll_zeroed {o : Nat} (ho : popCount ops + o < (pushedWords ops).length)
    (hq : (pushedWords ops).length - (popCount ops + o) ≤ u.mem.length) :
    some ((u.zeroed.applyAll ops).get o) = (pushedWords ops)[popCount ops + o]? := by
  rw [← (RingBuf.shaped_applyAll_zeroed h ops).getElem?_get, RingBuf.rd_applyAll_zeroed h ops, Nat.mod_add_mod]
  exact RingBuf.getElem?_applyAll_zeroed h ops ho hq

end AfterReset

/-- If no later index below `p` has the residue of `t`, at most `n` indices remain from `t` on. -/
theorem sub_le_of_last_of_residue {n p t : Nat} (hn : 0 < n)
    (hlast : ∀ t', t < t' → t' < p → t' % n ≠ t % n) : p - t ≤ n := by
  by_contra hgt
  exact hlast (t + n) (by omega) (by omega) (Nat.add_mod_right t n)

end Sys2Proof.Machine

namespace Sys2Proof

open Machine

/-- A mutating ring command takes no `SEL` but zero (R80). -/
theorem raisesIllegalCmd_of_mutating_select {cw : Word64} (ho : opcOf cw ∈ [0x10#8, 0x11#8, 0x14#8])
    (h : selOf cw ≠ 0) : RaisesIllegalCmd cw := by
  refine raisesIllegalCmd_of_not_encoding ?_
  rintro i hw rfl
  rw [opcOf_encode] at ho
  exact h (selOf_encode_of_mutating hw ho)

/-- RB.POP and RB.RESET have no free field (R71, R80). -/
theorem raisesIllegalCmd_of_fixed_ring_word {cw : Word64} (ho : opcOf cw ∈ [0x11#8, 0x14#8])
    (h : selOf cw ≠ 0 ∨ zeroOf cw ≠ 0 ∨ opndOf cw ≠ 0) : RaisesIllegalCmd cw := by
  have hfixed : ∀ o ∈ [0x11#8, 0x14#8], o ∈ [0x10#8, 0x11#8, 0x14#8] ∧ o ∉ operandOpcodes := by decide
  obtain ⟨hmut, hnone⟩ := hfixed _ ho
  obtain hs | hz | hv := h
  · exact raisesIllegalCmd_of_mutating_select hmut hs
  · exact raisesIllegalCmd_of_nonzero_zero hz
  · exact raisesIllegalCmd_of_nonzero_operand hnone hv

/-- RB.GET and RB.GETF take the two units only (R72). -/
theorem raisesIllegalCmd_of_ring_read {cw : Word64} (ho : opcOf cw ∈ [0x12#8, 0x13#8])
    (h : 2 ≤ (selOf cw).toNat ∨ zeroOf cw ≠ 0) : RaisesIllegalCmd cw :=
  have hring : [0x12#8, 0x13#8] ⊆ [0x10#8, 0x11#8, 0x12#8, 0x13#8, 0x14#8] := by decide
  h.elim (raisesIllegalCmd_of_no_unit (hring ho)) raisesIllegalCmd_of_nonzero_zero

/-! The obligations. -/

/-- Settles O21: `getf` is the rounded interpolation of two reads, each of an existing slot. -/
theorem rbGetfInterpolatesTwoSlots : Obligations.RbGetfInterpolatesTwoSlots :=
  ⟨fun _ u _ hs hf => exec_rbGetf_neg hs u hf,
    fun _ f hs hf hu => ⟨_, _, hu.getElem?_get (f.toNat / 65536), hu.getElem?_get (f.toNat / 65536 + 1),
      exec_rbGetf_nonneg hs hf⟩,
    fun _ f hs hf hu => ⟨_, _, hu.getElem?_get (f.toNat / 65536), hu.getElem?_get (f.toNat / 65536 + 1),
      exec_rbGetf_nonneg hs hf⟩,
    fun f => ⟨decode_encode (i := .rbGetf .dl f) rfl, decode_encode (i := .rbGetf .lut f) rfl⟩,
    fun _ ho => raisesIllegalCmd_of_ring_read (by simp [ho])⟩

/-- Settles O23: pushes and pops each advance their own cursor. -/
theorem ringCursorsCountOperations : Obligations.RingCursorsCountOperations := fun _ ops h =>
  ⟨RingBuf.wr_applyAll_zeroed h ops, RingBuf.rd_applyAll_zeroed h ops⟩

/-- Settles O24: word `t` is in slot `t mod N`, and the write cursor of a full buffer is at the oldest unread word. -/
theorem ringContentIsLastWordsPushed : Obligations.RingContentIsLastWordsPushed := by
  intro u ops h
  have hshape := RingBuf.shaped_applyAll_zeroed h ops
  refine ⟨?_, fun _ => RingBuf.getElem?_applyAll_zeroed_unreached h ops, fun _ => RingBuf.get_applyAll_zeroed h ops,
    fun hp hq => ?_, fun v hfull => ⟨?_, ?_⟩⟩
  · rintro t _ ht rfl hlast
    exact RingBuf.getElem?_applyAll_zeroed h ops ht (sub_le_of_last_of_residue h hlast)
  · rw [hshape.popped_eq_get]
    exact RingBuf.get_applyAll_zeroed h ops (o := 0) hp hq
  · rw [RingBuf.wr_applyAll_zeroed h ops, hfull, Nat.add_mod_right]
    exact RingBuf.getElem?_applyAll_zeroed h ops (by omega) (by omega)
  · rw [RingBuf.push_mem]
    exact List.getElem?_set_self (by rw [hshape.length]; exact hshape.wr_lt)

/-- Settles O18: the capacity the cursor wraps at is `B`. -/
theorem rbPushStoresAtWriteCursor : Obligations.RbPushStoresAtWriteCursor := by
  refine ⟨fun s v hs hb => ?_, fun v => decode_encode (i := .rbPush .dl v) rfl, fun cw ho h =>
    h.elim (raisesIllegalCmd_of_mutating_select (by simp [ho])) raisesIllegalCmd_of_nonzero_zero⟩
  rw [exec_rbPush_running hs, ← hb]
  rfl

/-- Settles O19: the read cursor is at an existing slot, which `pop` leaves as it is. -/
theorem rbPopAnswersSlotAtReadCursor : Obligations.RbPopAnswersSlotAtReadCursor := by
  refine ⟨fun s hs hdl => ⟨s.dl.popped, hdl.getElem?_popped, ?_⟩, decode_encode (i := .rbPop .dl) rfl,
    fun cw ho => raisesIllegalCmd_of_fixed_ring_word (by simp [ho])⟩
  rw [exec_rbPop_running hs, ← hdl.cap_eq]
  rfl

/-- Settles O20: the read wraps at the capacity of the unit, so the slot exists for every offset. -/
theorem rbGetAnswersSlotAtOffset : Obligations.RbGetAnswersSlotAtOffset :=
  ⟨fun _ o hs hu => ⟨_, hu.getElem?_get _, exec_rbGet_running hs .dl o⟩,
    fun _ o hs hu => ⟨_, hu.getElem?_get _, exec_rbGet_running hs .lut o⟩,
    fun o => ⟨decode_encode (i := .rbGet .dl o) rfl, decode_encode (i := .rbGet .lut o) rfl⟩,
    fun _ ho => raisesIllegalCmd_of_ring_read (by simp [ho])⟩

/-- Settles O22: the zeroed buffer is a new one of the same capacity. -/
theorem rbResetZeroesDelayLine : Obligations.RbResetZeroesDelayLine := by
  refine ⟨fun s hs hb => ?_, fun s hs => exec_halted hs _ (by simp) (by simp), decode_encode (i := .rbReset .dl) rfl,
    fun cw ho => raisesIllegalCmd_of_fixed_ring_word (by simp [ho])⟩
  rw [exec_rbReset_running hs, RingBuf.zeroed_eq_new, ← hb]
  rfl

end Sys2Proof
end

section
/-! SUPPORT. The oscillator (42_oscillator.md): the entries of its table for the amplitudes and the index that fix them
(R136, R139), its two commands under the table invariant, and the unit table of CFG_A (R130 to R132). -/

namespace Sys2Proof.Machine

theorem quant_zero : quant (0 : ℝ) = 0 := by simpa using quant_intCast 0

theorem quant_one : quant (1 : ℝ) = 65536 := by simpa using quant_intCast 1

theorem quant_neg_one : quant (-1 : ℝ) = -65536 := by simpa using quant_intCast (-1)

end Sys2Proof.Machine

namespace Sys2Proof

open Machine

/-- The sine of index 0 is zero whatever the frequency (R131). -/
theorem Cfg.ElaboratedFrom.sin_zero {c : Cfg} {q : Params} (h : c.ElaboratedFrom q) (hp : 1 ≤ c.p) : c.sin 0 = 0 := by
  obtain ⟨omega, -, -, -, -, -, hrom, -⟩ := h
  have hentry : c.sin 0 = quant (Real.sin (omega * (0 : Nat))) := by
    rw [Cfg.sin, hrom, List.getD_eq_getElem _ _ (by simpa using Nat.lt_of_succ_le hp)]
    simp
  rw [hentry, Nat.cast_zero, mul_zero, Real.sin_zero, quant_zero]

end Sys2Proof

namespace Sys2Proof.Machine

/-! The table's entries and samples. -/

theorem oscEntry_of_amp_zero {c : Cfg} (h : c.amp = 0) (i : Nat) : oscEntry c i = 0 := by
  rw [oscEntry, h, fxmul_zero]
  rfl

theorem oscEntry_of_sin_zero {c : Cfg} {i : Nat} (h : c.sin i = 0) : oscEntry c i = 0 := by
  rw [oscEntry, h, zero_fxmul]
  rfl

/-- A sample of the filled table as an integer: the product, which does not wrap in a word (R135, R139). -/
theorem sext32_sampleAt_oscFill {c : Cfg} (h : c.ok = true) (k : Nat) :
    sext32 (sampleAt c (oscFill c) k) = fxmul (c.sin (k % c.p)) c.amp := by
  rw [sampleAt_oscFill (Cfg.ok_period h), sext32_oscEntry h]

/-! The commands under the table invariant (R24). -/

section Commands

variable {s : State} (hi : s.Inv) (hs : s.halted = false)
include hi hs

/-- OSC.SAMPLE answers the table's entry `k mod P` (R136). -/
theorem exec_oscSample_of_inv (k : Word) :
    exec (.oscSample k) s = .next (s.answered 0x00 (oscEntry s.cfg (k.toNat % s.cfg.p))) := by
  rw [exec_oscSample_running hs, hi.lut_filled, sampleAt_oscFill (Cfg.ok_period hi.cfg_ok), State.respondOk_advance]

/-- OSC.RESET writes the table it finds (R137). -/
theorem exec_oscReset_of_inv : exec .oscReset s = .next (s.answered 0x00 0) := by
  have hlut : s.withLut (oscFill s.cfg) = s := by
    rw [← hi.lut_filled]
    rfl
  rw [exec_oscReset_running hs, hlut, State.respondOk_advance]

end Commands

/-! The unit table of CFG_A: its frequency is `pi / 4`, an eighth of a turn per sample. -/

/-- Half a turn is four samples. -/
theorem sin_pi_div_four_mul_of_eq_add_four {x y v : ℝ} (hy : y = x + 4) (h : Real.sin (Real.pi / 4 * x) = v) :
    Real.sin (Real.pi / 4 * y) = -v := by
  rw [← h, ← Real.sin_add_pi, hy]
  congr 1
  ring

/-- The first half turn; the rest of the table repeats it with alternating sign. -/
theorem sin_pi_div_four_mul_lt_four :
    Real.sin (Real.pi / 4 * 0) = 0 ∧ Real.sin (Real.pi / 4 * 1) = √2 / 2 ∧ Real.sin (Real.pi / 4 * 2) = 1 ∧
    Real.sin (Real.pi / 4 * 3) = √2 / 2 := by
  refine ⟨by simp, by rw [mul_one, Real.sin_pi_div_four], ?_, ?_⟩
  · rw [← Real.sin_pi_div_two]
    congr 1
    ring
  · rw [← Real.sin_pi_div_four, ← Real.sin_pi_sub]
    congr 1
    ring

/-- `65536 * √2 / 2 = 46340.95…` and its negation both round away from zero (R102). -/
theorem quant_sqrt_two_div_two : quant (√2 / 2) = 46341 ∧ quant (-(√2 / 2)) = -46341 := by
  have hlow : (1.41421 : ℝ) < √2 := Real.lt_sqrt_of_sq_lt (by norm_num)
  have hhigh : √2 < (1.41422 : ℝ) := (Real.sqrt_lt' (by norm_num)).mpr (by norm_num)
  constructor <;> rw [quant, Int.floor_eq_iff] <;> push_cast <;> constructor <;> linarith

/-- The unit table of CFG_A is the quantized sine (R131): the first half turn, and from index 4 on the entry four
before with its sign changed. -/
theorem sinRomA_eq :
    Config.sinRomA = (List.range 10).map (fun i : Nat => quant (Real.sin (Real.pi / 4 * (i : ℝ)))) := by
  obtain ⟨h0, h1, h2, h3⟩ := sin_pi_div_four_mul_lt_four
  have h4 := sin_pi_div_four_mul_of_eq_add_four (y := 4) (by norm_num) h0
  have h5 := sin_pi_div_four_mul_of_eq_add_four (y := 5) (by norm_num) h1
  have h6 := sin_pi_div_four_mul_of_eq_add_four (y := 6) (by norm_num) h2
  have h7 := sin_pi_div_four_mul_of_eq_add_four (y := 7) (by norm_num) h3
  have h8 := sin_pi_div_four_mul_of_eq_add_four (y := 8) (by norm_num) h4
  have h9 := sin_pi_div_four_mul_of_eq_add_four (y := 9) (by norm_num) h5
  obtain ⟨hroot, hneg_root⟩ := quant_sqrt_two_div_two
  simp only [List.range_succ, List.range_zero, List.nil_append, List.cons_append, List.map_cons, List.map_nil,
    Nat.cast_zero, Nat.cast_one, Nat.cast_ofNat, h0, h1, h2, h3, h4, h5, h6, h7, h8, h9, neg_zero, neg_neg,
    hroot, hneg_root, quant_zero, quant_one, quant_neg_one, Config.sinRomA]

/-- The period of CFG_A: `32 / pi = 10.18…` (R130). -/
theorem roundHalfAway_eight_div_pi_div_four : roundHalfAway (8 / (Real.pi / 4)) = 10 := by
  have hpi := Real.pi_pos
  have hlow : 19 / 2 ≤ 8 / (Real.pi / 4) := by
    rw [le_div_iff₀ (by positivity)]
    linarith [Real.pi_lt_d2]
  have hhigh : 8 / (Real.pi / 4) < 21 / 2 := by
    rw [div_lt_iff₀ (by positivity)]
    linarith [Real.pi_gt_d2]
  rw [roundHalfAway_of_nonneg (by positivity), Int.floor_eq_iff]
  push_cast
  constructor <;> linarith

end Sys2Proof.Machine

namespace Sys2Proof

open Machine

/-- OSC.SAMPLE has no free field but its index (R136). -/
theorem raisesIllegalCmd_of_oscSample {cw : Word64} (ho : opcOf cw = 0x20#8)
    (h : selOf cw ≠ 0 ∨ zeroOf cw ≠ 0) : RaisesIllegalCmd cw :=
  h.elim (raisesIllegalCmd_of_nonzero_select (by simp [ho])) raisesIllegalCmd_of_nonzero_zero

/-- NOP, OSC.RESET, VIB.PROCESS and VIB.RESET have no free field (R76). -/
theorem raisesIllegalCmd_of_fixed_word {cw : Word64} (ho : opcOf cw ∈ [0x00#8, 0x21#8, 0x30#8, 0x31#8])
    (h : selOf cw ≠ 0 ∨ zeroOf cw ≠ 0 ∨ opndOf cw ≠ 0) : RaisesIllegalCmd cw := by
  have hfixed : ∀ o ∈ [0x00#8, 0x21#8, 0x30#8, 0x31#8],
      o ∈ [0x00#8, 0x20#8, 0x21#8, 0x30#8, 0x31#8] ∧ o ∉ operandOpcodes := by decide
  obtain ⟨hselect, hnone⟩ := hfixed _ ho
  obtain hs | hz | hv := h
  · exact raisesIllegalCmd_of_nonzero_select hselect hs
  · exact raisesIllegalCmd_of_nonzero_zero hz
  · exact raisesIllegalCmd_of_nonzero_operand hnone hv

/-! The obligations. -/

/-- Settles O25: under the invariant a sample is a table entry, and an entry is zero where a factor is. -/
theorem oscSampleAnswersTableEntry : Obligations.OscSampleAnswersTableEntry := by
  refine ⟨fun s k hi hs => exec_oscSample_of_inv hi hs k, fun s hi ⟨_, q, _, helab⟩ hs => ?_,
    fun s k hi hamp hs => ?_, fun k => decode_encode (i := .oscSample k) rfl,
    fun _ => raisesIllegalCmd_of_oscSample⟩
  · have hsin : s.cfg.sin ((0 : Word).toNat % s.cfg.p) = 0 := by
      simpa using helab.sin_zero (Cfg.ok_period hi.cfg_ok)
    rw [exec_oscSample_of_inv hi hs, oscEntry_of_sin_zero hsin]
  · rw [exec_oscSample_of_inv hi hs, oscEntry_of_amp_zero hamp]

/-- Settles O28: the factor `SINROM[k mod P]` has magnitude at most `65536`, and the three amplitudes are the laws of
the product. -/
theorem samplesAreBoundedByAmplitude : Obligations.SamplesAreBoundedByAmplitude := by
  intro c k hok
  rw [sext32_sampleAt_oscFill hok]
  refine ⟨abs_fxmul_le _ _ (Cfg.ok_sin hok k), fun hamp => ?_, fun hamp => ?_, fun hamp => ?_⟩
  · rw [sampleAt_oscFill (Cfg.ok_period hok), oscEntry_of_amp_zero hamp]
  · rw [hamp, fxmul_one]
    rfl
  · rw [hamp, fxmul_neg_one]
    rfl

/-- Settles O26: the fill is the same table whatever stood there before, so a filled table stays. -/
theorem oscResetFillsTable : Obligations.OscResetFillsTable :=
  ⟨fun _ hs => exec_oscReset_running hs, fun _ => exec_oscReset_of_inv, decode_encode (i := .oscReset) rfl,
    fun _ ho => raisesIllegalCmd_of_fixed_word (by simp [ho])⟩

/-- Settles O54: `OMEGA = pi / 4`, and `32 / pi` lies between 9.5 and 10.5. -/
theorem cfgAIsElaboratedFromItsParameters : Obligations.CfgAIsElaboratedFromItsParameters := by
  have hwidth : roundHalfAway (1 / 4 * (8 : Nat) : ℝ) = 2 := by norm_num [roundHalfAway]
  have homega : (1 : ℝ) * 2 * Real.pi / (8 : Nat) = Real.pi / 4 := by
    push_cast
    ring
  refine ⟨by decide, rfl, Real.pi / 4, homega.symm, rfl, hwidth.symm, hwidth.symm, ?_, sinRomA_eq, ?_, rfl⟩
  · exact_mod_cast roundHalfAway_eight_div_pi_div_four.symm
  · exact quant_one.symm

end Sys2Proof
end

section
/-! SUPPORT. VIB.PROCESS and VIB.RESET as commands (43_vibrato.md): the checks (R148, R154), what enters into a run
(R157), the state a run leaves when no offset is negative (R164), and the offsets of a small amplitude (R159). -/

namespace Sys2Proof.Machine

theorem zext32_eq_zero_iff {w : Word} : zext32 w = 0 ↔ w = 0 := by
  rw [zext32, ← BitVec.toNat_inj]
  rfl

/-! The checks, in their order (R148, R190). -/

theorem not_zext32_eq_zero_or {s : State} (hch : s.chCount ≠ 0) (hlen : s.dataLen ≠ 0) :
    ¬(zext32 s.chCount = 0 ∨ zext32 s.dataLen = 0) :=
  not_or.mpr ⟨mt zext32_eq_zero_iff.mp hch, mt zext32_eq_zero_iff.mp hlen⟩

section Checks

variable {s : State} (hs : s.halted = false)
include hs

theorem exec_vibProcess_noop (h : s.chCount = 0 ∨ s.dataLen = 0) :
    exec .vibProcess s = .next (s.answered 0x00 0) := by
  have hz : zext32 s.chCount = 0 ∨ zext32 s.dataLen = 0 := h.imp zext32_eq_zero_iff.mpr zext32_eq_zero_iff.mpr
  rw [exec_vibProcess_running hs, vibProcessBody, if_pos hz]
  rfl

theorem exec_vibProcess_short (hch : s.chCount ≠ 0) (hlen : s.dataLen ≠ 0) (h : s.dataLen.toNat < s.cfg.b - 1) :
    exec .vibProcess s = .next (s.faulted Cause.shortSignal.code 0 0) := by
  have hshort : zext32 s.dataLen < s.cfg.primeCount := h
  rw [exec_vibProcess_running hs, vibProcessBody, if_neg (not_zext32_eq_zero_or hch hlen), if_pos hshort]
  exact congrArg _ (State.raise_advance s .shortSignal 0 0)

theorem exec_vibProcess_badRange (hch : s.chCount ≠ 0) (hlen : s.dataLen ≠ 0) (h : s.cfg.b - 1 ≤ s.dataLen.toNat)
    (hr : s.cfg.sigWords < s.sigBase.toNat + s.chCount.toNat * s.dataLen.toNat) :
    exec .vibProcess s = .next (s.faulted Cause.badRange.code 0 0) := by
  have hlong : ¬zext32 s.dataLen < s.cfg.primeCount := not_lt.mpr h
  have hrange : s.cfg.sigWords < zext32 s.sigBase + zext32 s.chCount * zext32 s.dataLen := hr
  rw [exec_vibProcess_running hs, vibProcessBody, if_neg (not_zext32_eq_zero_or hch hlen), if_neg hlong,
    if_pos hrange]
  exact congrArg _ (State.raise_advance s .badRange 0 0)

end Checks

/-! What enters into a run (R157). -/

/-- If `a` is a next state, `b` is one with the same delay line, signal memory and last response word. -/
def SameOutcome (a b : Result) : Prop :=
  ∀ t, a = .next t → ∃ t', b = .next t' ∧ t.dl = t'.dl ∧ t.sig = t'.sig ∧
    t.responses.getLast? = t'.responses.getLast?

theorem SameOutcome.next {t t' : State} {r r' : List Word64} {rw : Word64} (hdl : t.dl = t'.dl)
    (hsig : t.sig = t'.sig) (hr : t.responses = r ++ [rw]) (hr' : t'.responses = r' ++ [rw]) :
    SameOutcome (.next t) (.next t') := by
  rintro _ ⟨⟩
  exact ⟨t', rfl, hdl, hsig, by rw [hr, hr', List.getLast?_concat, List.getLast?_concat]⟩

theorem SameOutcome.endCommand {a b : Result} (h : SameOutcome a b) : SameOutcome (endCommand a) (endCommand b) := by
  intro t ht
  cases a with
  | next u =>
    obtain ⟨u', rfl, hsame⟩ := h u rfl
    obtain rfl : u.advance = t := Host.Outcome.next.inj ht
    exact ⟨u'.advance, rfl, hsame⟩
  | fault f => cases ht
  | refused f => cases ht

/-- The states agree on all that VIB.PROCESS reads. -/
structure State.SameArguments (s s' : State) : Prop where
  cfg : s.cfg = s'.cfg
  lut : s.lut = s'.lut
  sigBase : s.sigBase = s'.sigBase
  chCount : s.chCount = s'.chCount
  dataLen : s.dataLen = s'.dataLen
  dl : s.dl = s'.dl
  sig : s.sig = s'.sig

theorem State.Inv.lut_eq {s s' : State} (hi : s.Inv) (hi' : s'.Inv) (hcfg : s.cfg = s'.cfg) : s.lut = s'.lut := by
  rw [hi.lut_filled, hi'.lut_filled, hcfg]

section SameArguments

variable {s s' : State} (h : s.SameArguments s')
include h

theorem State.SameArguments.sequence : s.sequence = s'.sequence := by
  obtain ⟨hcfg, hlut, hbase, hch, hlen, hdl, hsig⟩ := h
  simp only [State.sequence, State.job, hcfg, hlut, hbase, hch, hlen, hdl, hsig]

/-- The body takes the same branch in both states (R148, R157). -/
theorem State.SameArguments.vibProcessBody : SameOutcome (vibProcessBody s) (vibProcessBody s') := by
  unfold Machine.vibProcessBody
  rw [h.sequence, h.cfg, h.sigBase, h.chCount, h.dataLen]
  split_ifs
  · exact .next h.dl h.sig rfl rfl
  · exact .next h.dl h.sig rfl rfl
  · exact .next h.dl h.sig rfl rfl
  · cases s'.sequence with
    | run w => exact .next rfl rfl rfl rfl
    | neg w c n => exact .next rfl rfl rfl rfl
    | absent a => intro t ht; cases ht

/-- VIB.PROCESS answers in both states, and alike. -/
theorem State.SameArguments.exec_vibProcess (hs : s.halted = false) (hs' : s'.halted = false) :
    ∃ t t' : State, exec .vibProcess s = .next t ∧ exec .vibProcess s' = .next t' ∧ t.dl = t'.dl ∧ t.sig = t'.sig ∧
      t.responses.getLast? = t'.responses.getLast? := by
  obtain ⟨u, -, hu⟩ := exec_effect .vibProcess s
  have hsame : SameOutcome (exec .vibProcess s) (exec .vibProcess s') := by
    rw [exec_vibProcess_running hs, exec_vibProcess_running hs']
    exact h.vibProcessBody.endCommand
  obtain ⟨t', hu', heq⟩ := hsame u.advance hu
  exact ⟨u.advance, t', hu, hu', heq⟩

end SameArguments

/-! A run without a negative offset, and the state it leaves (R164). -/

/-- The state after all channels have run, the command answered. -/
def State.processed (s : State) : State :=
  (s.withWork (s.job.chanStart s.dl s.sig s.chCount.toNat)).answered 0x00 0

theorem State.CanProcess.sequence_run {s : State} (hc : s.CanProcess) (hi : s.Inv)
    (hd : ∀ n, n < s.dataLen.toNat → 0 ≤ s.delayAt n) :
    s.sequence = .run (s.job.chanStart s.dl s.sig s.chCount.toNat) := by
  rcases hc.sequence_cases hi with ⟨-, hrun⟩ | ⟨n, hn, hneg, -, -⟩
  · exact hrun
  · exact absurd (hd n hn) (not_le.mpr hneg)

theorem State.CanProcess.exec_vibProcess_run {s : State} (hc : s.CanProcess) (hi : s.Inv)
    (hd : ∀ n, n < s.dataLen.toNat → 0 ≤ s.delayAt n) : exec .vibProcess s = .next s.processed := by
  rw [exec_vibProcess_running hc.running, hc.body, hc.sequence_run hi hd]
  rfl

/-- The write cursor before main-pass step `k` (R150, R153). -/
theorem Job.lineAt_wr (j : Job) (c : Nat) {u : RingBuf} (hu : u.Shaped j.cfg.b) (m : SigMem) (k : Nat) :
    (j.lineAt c u m k).wr = (u.wr + (j.cfg.b - 1 + k)) % j.cfg.b := by
  have h := RingBuf.pushAll_wr hu (j.tapeList c m (j.cfg.b - 1 + k))
  rwa [Job.tapeList_length] at h

/-- Any `n` consecutive positions from a cursor `w` on reach every slot. -/
theorem exists_position_of_slot {n i : Nat} (hi : i < n) (w q : Nat) :
    ∃ p, q ≤ p ∧ p < q + n ∧ (w + p) % n = i := by
  have hw : (w + q) % n < n := Nat.mod_lt _ (by omega)
  have hlt : (i + n - (w + q) % n) % n < n := Nat.mod_lt _ (by omega)
  refine ⟨q + (i + n - (w + q) % n) % n, by omega, by omega, ?_⟩
  rw [← Nat.add_assoc, Nat.add_mod_mod, ← Nat.mod_add_mod,
    show (w + q) % n + (i + n - (w + q) % n) = i + n by omega, Nat.add_mod_right, Nat.mod_eq_of_lt hi]

/-- The slots after a channel of `B - 1` samples: the last sample primed, `x[0]`, is the oldest of the last `B` pushes,
the rest are silence (R164). -/
theorem Job.lineAt_end_slots_shortest {j : Job} {u : RingBuf} (hu : u.Shaped j.cfg.b) (hl : j.len = j.cfg.b - 1)
    (c : Nat) (m : SigMem) {i : Nat} (hi : i < j.cfg.b) :
    (j.lineAt c u m j.len).slot i = if i = (j.lineAt c u m j.len).wr then m.read (j.addr c 0) else 0 := by
  have hb := cfg_b_ge j.cfg
  have hwr : (j.lineAt c u m j.len).wr = (u.wr + (j.cfg.b - 2)) % j.cfg.b := by
    rw [j.lineAt_wr c hu, show u.wr + (j.cfg.b - 1 + j.len) = u.wr + (j.cfg.b - 2) + j.cfg.b by omega,
      Nat.add_mod_right]
  obtain ⟨p, hlow, hhigh, rfl⟩ := exists_position_of_slot hi u.wr (j.cfg.b - 2)
  have hslot : (j.lineAt c u m j.len).slot ((u.wr + p) % j.cfg.b) = j.tape c m p := by
    show (u.pushAll (j.tapeList c m (j.cfg.b - 1 + j.len))).slot _ = _
    rw [RingBuf.slot_pushAll hu _ p (by simp; omega) (by simp; omega), Job.tapeList_getD _ _ _ (by omega)]
  rw [hslot, hwr]
  by_cases hp : p = j.cfg.b - 2
  · subst hp
    rw [if_pos rfl, Job.tape, if_pos (by omega)]
    congr 2
    omega
  · rw [if_neg (mod_eq_iff_of_close (by omega) (by omega)).symm, j.tape_silent c m (by omega) (by omega)]

/-- The last channel of a run, and the one before it that it starts from. -/
theorem State.CanProcess.processed_dl {s : State} (hc : s.CanProcess) :
    s.processed.dl = s.job.lineAt (s.chCount.toNat - 1) (s.job.chanStart s.dl s.sig (s.chCount.toNat - 1)).dl
      (s.job.chanStart s.dl s.sig (s.chCount.toNat - 1)).sig s.job.len := by
  show (s.job.chanStart s.dl s.sig s.chCount.toNat).dl = _
  rw [← Nat.sub_add_cancel hc.channels]
  rfl

section EndState

variable {s : State} (hc : s.CanProcess) (hi : s.Inv)
include hi

theorem State.Inv.processed_dl_shaped : s.processed.dl.Shaped s.cfg.b :=
  s.job.chanStart_shaped hi.dl_shaped s.sig s.chCount.toNat

theorem State.Inv.processed_rd :
    s.processed.dl.rd = (s.dl.rd + s.chCount.toNat * s.dataLen.toNat) % s.cfg.b :=
  s.job.chanStart_rd hi.dl_shaped s.sig s.chCount.toNat

theorem State.Inv.processed_wr :
    s.processed.dl.wr = (s.dl.wr + s.chCount.toNat * (s.cfg.b - 1 + s.dataLen.toNat)) % s.cfg.b :=
  s.job.chanStart_wr hi.dl_shaped s.sig s.chCount.toNat

theorem State.Inv.processed_lag : s.processed.lag = (s.lag + s.chCount.toNat) % s.cfg.b :=
  lag_unique (s.job.chanStart_lag hi.dl_shaped s.sig hi.rd_eq s.chCount.toNat) (Nat.mod_lt _ hi.dl_shaped.pos)

include hc

/-- Each channel pushes `L - 1` words and `B` more, which bring the write cursor once around (R164). -/
theorem State.CanProcess.processed_wr_reduced :
    s.processed.dl.wr = (s.dl.wr + s.chCount.toNat * (s.dataLen.toNat - 1)) % s.cfg.b := by
  have hb := cfg_b_ge s.cfg
  have hl := hc.len_pos
  rw [hi.processed_wr, show s.cfg.b - 1 + s.dataLen.toNat = s.dataLen.toNat - 1 + s.cfg.b by omega, Nat.mul_add,
    ← Nat.add_assoc, Nat.add_mul_mod_self_right]

theorem State.CanProcess.processed_mem_long (hl : s.cfg.b ≤ s.dataLen.toNat) :
    s.processed.dl.mem = List.replicate s.cfg.b 0 := by
  refine RingBuf.mem_eq_replicate hi.processed_dl_shaped.length fun i => ?_
  rw [hc.processed_dl]
  exact s.job.lineAt_end_slots _ (s.job.chanStart_shaped hi.dl_shaped s.sig _) _ hl i

theorem State.CanProcess.processed_mem_shortest (hl : s.dataLen.toNat = s.cfg.b - 1) {i : Nat} (hib : i < s.cfg.b) :
    s.processed.dl.mem[i]? =
      some (if i = s.processed.dl.wr then s.word (s.addrOf (s.chCount.toNat - 1) 0) else 0) := by
  have hfirst : (s.job.chanStart s.dl s.sig (s.chCount.toNat - 1)).sig.read (s.job.addr (s.chCount.toNat - 1) 0) =
      s.word (s.addrOf (s.chCount.toNat - 1) 0) := s.job.chanStart_read_later s.dl s.sig le_rfl
  rw [RingBuf.getElem?_eq_slot hi.processed_dl_shaped.length hib, hc.processed_dl,
    Job.lineAt_end_slots_shortest (s.job.chanStart_shaped hi.dl_shaped s.sig _) hl _ _ hib, hfirst]

end EndState

/-! The offsets (R152, R159). -/

theorem State.delayAt_eq {s : State} (hok : s.cfg.ok = true) (n : Nat) :
    s.delayAt n = s.cfg.d * 65536 + s.cfg.w * fxmul (s.cfg.sin (n % s.cfg.p)) s.cfg.amp :=
  congrArg (fun m : Int => s.cfg.d * 65536 + s.cfg.w * m) (sext32_oscEntry hok n)

/-- Width 0 and amplitude 0 leave no modulation (R159, R161). -/
theorem State.delayAt_of_width_zero {s : State} (hw : s.cfg.w = 0) (n : Nat) : s.delayAt n = s.cfg.d * 65536 := by
  simp [State.delayAt, hw]

theorem State.delayAt_of_amp_zero {s : State} (hok : s.cfg.ok = true) (ha : s.cfg.amp = 0) (n : Nat) :
    s.delayAt n = s.cfg.d * 65536 := by
  rw [State.delayAt_eq hok, ha, fxmul_zero, mul_zero, add_zero]

/-- An amplitude in `[-1, 1]` moves the offset by at most `W` (R159). -/
theorem State.abs_delayAt_sub_le {s : State} (hok : s.cfg.ok = true) (ha : |s.cfg.amp| ≤ 65536) (n : Nat) :
    |s.delayAt n - s.cfg.d * 65536| ≤ s.cfg.w * 65536 := by
  rw [State.delayAt_eq hok, add_sub_cancel_left, abs_mul, Nat.abs_cast]
  exact mul_le_mul_of_nonneg_left ((abs_fxmul_le _ _ (Cfg.ok_sin hok n)).trans ha) (Int.natCast_nonneg _)

end Sys2Proof.Machine

namespace Sys2Proof

open Machine

/-- Settles O31: the three checks are the branches of the command's body, each before the sequencer. -/
theorem vibProcessChecksInOrder : Obligations.VibProcessChecksInOrder := fun _ hs =>
  ⟨exec_vibProcess_noop hs, exec_vibProcess_short hs, exec_vibProcess_badRange hs⟩

/-- Settles O32: the cursors count the pushes and pops, and the slots hold the last `B` pushes of the last channel. -/
theorem vibProcessEndState : Obligations.VibProcessEndState := fun _ hi hc hd =>
  ⟨_, hc.exec_vibProcess_run hi hd, rfl, hi.processed_dl_shaped.length, hi.processed_rd, hi.processed_wr,
    hc.processed_wr_reduced hi, hi.processed_lag, hc.processed_mem_long hi,
    fun hl _ => hc.processed_mem_shortest hi hl⟩

/-- Settles O37: the modulation is at most `W`, and the guard of 10 covers a lag of 7 and the second read. -/
theorem smallAmplitudeKeepsReadsValid : Obligations.SmallAmplitudeKeepsReadsValid := by
  refine fun s n hok => ⟨fun ha hwd => ?_, fun hw => State.delayAt_of_width_zero hw n⟩
  obtain ⟨hlow, hhigh⟩ := abs_le.mp (State.abs_delayAt_sub_le hok ha n)
  have hb := cfg_b_eq s.cfg
  exact ⟨by omega, by omega, fun lag hlag => by omega⟩

/-- Settles O41: all that the sequencer reads is the same; the table is, by the invariant, and the delay line is after
VIB.RESET. -/
theorem vibProcessIsDeterminedByItsInputs : Obligations.VibProcessIsDeterminedByItsInputs := by
  refine ⟨fun s s' hi hi' hs hs' hcfg hbase hch hlen hdl hsig => ?_,
    fun s s' hi hi' hs hs' hcfg hbase hch hlen hsig => ?_⟩
  · exact State.SameArguments.exec_vibProcess ⟨hcfg, hi.lut_eq hi' hcfg, hbase, hch, hlen, hdl, hsig⟩ hs hs'
  · have hzero : s.dl.zeroed = s'.dl.zeroed := by
      rw [RingBuf.zeroed_eq_new, RingBuf.zeroed_eq_new, hi.dl_shaped.cap_eq, hi'.dl_shaped.cap_eq, hcfg]
    obtain ⟨t, t', ht⟩ := State.SameArguments.exec_vibProcess
      (s := (((s.withDl s.dl.zeroed).withLut (oscFill s.cfg)).respondOk 0).advance)
      (s' := (((s'.withDl s'.dl.zeroed).withLut (oscFill s'.cfg)).respondOk 0).advance)
      ⟨hcfg, congrArg oscFill hcfg, hbase, hch, hlen, hzero, hsig⟩ hs hs'
    exact ⟨_, _, t, t', exec_vibReset_running hs, exec_vibReset_running hs', ht⟩

/-- Settles O42: the zeroed delay line is a new one of the same capacity, and the table is filled anew. -/
theorem vibResetRestoresBufferAndTable : Obligations.VibResetRestoresBufferAndTable := by
  refine ⟨fun s hs hb => ?_, fun s hs => exec_halted hs _ (by simp) (by simp), decode_encode (i := .vibReset) rfl,
    fun cw ho => raisesIllegalCmd_of_fixed_word (by simp [ho])⟩
  rw [exec_vibReset_running hs, RingBuf.zeroed_eq_new, ← hb]
  rfl

end Sys2Proof
end

section
/-! SUPPORT. The words a VIB.PROCESS writes (43_vibrato.md): what its two offsets reach (R158, R217), the closed form
with its tail, seam and body (R160), the pure delay and the constant channel (R161, R162), and what a negative offset
leaves (R165). -/

namespace Sys2Proof.Machine

/-- The word written at index `n` of channel `c`: the interpolation between what the two offsets reach (R158). -/
theorem State.CanProcess.outAt_eq_reached {s : State} (hc : s.CanProcess) (hi : s.Inv) {c n lag i : Nat}
    (hn : n < s.dataLen.toNat) (hlag : lag = (s.lag + c) % s.cfg.b) (hd : 0 ≤ s.delayAt n)
    (hiq : i = (s.delayAt n / 65536).toNat) :
    s.job.outAt c (s.job.chanStart s.dl s.sig c).dl s.sig n =
      word32 (lerp (s.reached c lag n i) (s.reached c lag n (i + 1)) (s.delayAt n % 65536)) := by
  rw [← State.job_delayAt hi] at hd
  rw [Job.outAt, RingBuf.getf_of_nonneg hd, Option.getD_some, State.job_delayAt hi, ← hiq,
    ← hc.get_eq_reached hi c i hlag hn, ← hc.get_eq_reached hi c (i + 1) hlag hn]
  rfl

/-! The taps where the reads are valid, by region (R160). With `k = L - 1 - n` the tape position of offset `j` is
`lag + k + j`; up to `B - 2` it was primed, after that it was fed. -/

section Taps

variable {s : State} {c lag n j : Nat}

theorem State.CanProcess.tap_primed_word (hc : s.CanProcess) (hn : n < s.dataLen.toNat)
    (h : lag + (s.dataLen.toNat - 1 - n) + j ≤ s.cfg.b - 2) :
    s.tap c lag n j = sext32 (s.word (s.addrOf c (n - j - lag))) := by
  have hb := cfg_b_ge s.cfg
  have hl := hc.long
  rw [State.tap_of_primed h]
  exact State.xz_of_eq (by omega)

theorem State.tap_fed_word (h : ¬lag + (s.dataLen.toNat - 1 - n) + j ≤ s.cfg.b - 2) (hj : j + lag + 1 ≤ n) :
    s.tap c lag n j = sext32 (s.word (s.addrOf c (n - j - lag - 1))) := by
  rw [State.tap_of_fed h]
  exact State.xz_of_eq (by omega)

theorem State.tap_fed_silent (h : ¬lag + (s.dataLen.toNat - 1 - n) + j ≤ s.cfg.b - 2) (hj : n < j + lag + 1) :
    s.tap c lag n j = 0 := by
  rw [State.tap_of_fed h]
  exact State.xz_of_neg (by omega)

/-- On a constant channel a tap is the constant, unless it lies below index 0 (R162). -/
theorem State.CanProcess.tap_of_constant (hc : s.CanProcess) {v : Word}
    (hv : ∀ n', n' < s.dataLen.toNat → s.word (s.addrOf c n') = v) (hn : n < s.dataLen.toNat)
    (h : j + lag + 1 ≤ n ∨ lag + (s.dataLen.toNat - 1 - n) + j ≤ s.cfg.b - 2) : s.tap c lag n j = sext32 v := by
  by_cases hp : lag + (s.dataLen.toNat - 1 - n) + j ≤ s.cfg.b - 2
  · rw [hc.tap_primed_word hn hp, hv _ (by omega)]
  · rw [State.tap_fed_word hp (h.resolve_right hp), hv _ (by omega)]

/-- On a channel of zeros every tap is zero, in range or not (R162). -/
theorem State.CanProcess.tap_of_zero (hc : s.CanProcess)
    (hz : ∀ n', n' < s.dataLen.toNat → s.word (s.addrOf c n') = 0) (hn : n < s.dataLen.toNat) :
    s.tap c lag n j = 0 := by
  by_cases h : j + lag + 1 ≤ n ∨ lag + (s.dataLen.toNat - 1 - n) + j ≤ s.cfg.b - 2
  · rw [hc.tap_of_constant hz hn h, sext32_zero]
  · exact State.tap_fed_silent (by omega) (by omega)

end Taps

/-! The words of a run without a negative offset. -/

section Written

variable {s : State} (hc : s.CanProcess) (hi : s.Inv) {c n lag i : Nat} (hch : c < s.chCount.toNat)
  (hn : n < s.dataLen.toNat) (hlag : lag = (s.lag + c) % s.cfg.b) (hd : 0 ≤ s.delayAt n)
  (hiq : i = (s.delayAt n / 65536).toNat)
include hc hi hch hn hlag hd hiq

theorem State.CanProcess.processed_word :
    s.processed.word (s.addrOf c n) =
      word32 (lerp (s.reached c lag n i) (s.reached c lag n (i + 1)) (s.delayAt n % 65536)) :=
  (s.job.chanStart_read_done s.dl hi.sig_wf hch hn).trans (hc.outAt_eq_reached hi hn hlag hd hiq)

theorem State.CanProcess.processed_word_of_valid (hv : lag + i + 1 ≤ s.cfg.b - 2) :
    s.processed.word (s.addrOf c n) =
      word32 (lerp (s.tap c lag n i) (s.tap c lag n (i + 1)) (s.delayAt n % 65536)) := by
  rw [hc.processed_word hi hch hn hlag hd hiq, s.reached_eq_tap c hn (by omega), s.reached_eq_tap c hn (by omega)]

/-- Without modulation the offset has no fraction, so the word is the first tap (R161). -/
theorem State.CanProcess.processed_word_of_amp_zero (ha : s.cfg.amp = 0) (hv : lag + s.cfg.d + 1 ≤ s.cfg.b - 2) :
    s.processed.word (s.addrOf c n) = word32 (s.tap c lag n s.cfg.d) := by
  have hdelay := State.delayAt_of_amp_zero hi.cfg_ok ha n
  have hfrac : s.delayAt n % 65536 = 0 := by omega
  obtain rfl : i = s.cfg.d := by omega
  rw [hc.processed_word_of_valid hi hch hn hlag hd hiq hv, hfrac, lerp_zero_frac]

end Written

/-! A negative offset (R165). -/

/-- The highest index with a negative offset is where the sequencer stops. -/
theorem State.CanProcess.sequence_neg {s : State} (hc : s.CanProcess) (hi : s.Inv) {n : Nat}
    (hn : n < s.dataLen.toNat) (hneg : s.delayAt n < 0)
    (hhigh : ∀ k, n < k → k < s.dataLen.toNat → 0 ≤ s.delayAt k) :
    s.sequence = .neg (s.job.workAt 0 s.dl s.sig [] (s.dataLen.toNat - 1 - n)) 0 n := by
  rcases hc.sequence_cases hi with ⟨hd, -⟩ | ⟨n', hn', hneg', hhigh', hseq⟩
  · exact absurd hneg (not_lt.mpr (hd n hn))
  · obtain hlt | rfl | hgt := lt_trichotomy n n'
    · exact absurd hneg' (not_lt.mpr (hhigh n' hlt hn'))
    · exact hseq
    · exact absurd hneg (not_lt.mpr (hhigh' n hgt hn))

/-- The state after NEG_OFFSET at index `n` of channel 0, the steps above it done. -/
def State.stoppedAt (s : State) (n : Nat) : State :=
  (s.withWork (s.job.workAt 0 s.dl s.sig [] (s.dataLen.toNat - 1 - n))).faulted Cause.negOffset.code 0 n

theorem State.CanProcess.exec_vibProcess_neg {s : State} (hc : s.CanProcess) (hi : s.Inv) {n : Nat}
    (hn : n < s.dataLen.toNat) (hneg : s.delayAt n < 0)
    (hhigh : ∀ k, n < k → k < s.dataLen.toNat → 0 ≤ s.delayAt k) :
    exec .vibProcess s = .next (s.stoppedAt n) := by
  rw [exec_vibProcess_running hc.running, hc.body, hc.sequence_neg hi hn hneg hhigh]
  exact congrArg _ (State.raise_advance _ .negOffset 0 n)

theorem State.lag_lt (s : State) : s.lag < s.cfg.b := by
  have hb := cfg_b_ge s.cfg
  have hlt := Int.emod_lt_of_pos (s.dl.rd - s.dl.wr : Int) (show (0 : Int) < s.cfg.b by omega)
  rw [State.lag]
  omega

section Stopped

variable {s : State} (hi : s.Inv) {n : Nat}

/-- Every word but those of channel 0 above `n` is original. -/
theorem State.stoppedAt_word_other {a : Nat} (h : ∀ k, n < k → k < s.dataLen.toNat → a ≠ s.addrOf 0 k) :
    (s.stoppedAt n).word a = s.word a :=
  s.job.sigAfter_read_other 0 s.dl s.sig _ a fun i hik =>
    h (s.dataLen.toNat - 1 - i) (by omega) (by omega)

include hi

/-- Channel 0 holds its output above `n`. -/
theorem State.Inv.stoppedAt_word {k : Nat} (hk : n < k) (hkl : k < s.dataLen.toNat) :
    (s.stoppedAt n).word (s.addrOf 0 k) = s.job.outAt 0 s.dl s.sig k := by
  have hlen : s.job.len = s.dataLen.toNat := rfl
  have h := s.job.sigAfter_read_written 0 s.dl hi.sig_wf (k := s.dataLen.toNat - 1 - n)
    (i := s.dataLen.toNat - 1 - k) (by omega) (by omega)
  rwa [show s.job.len - 1 - (s.dataLen.toNat - 1 - k) = k by omega] at h

theorem State.Inv.stoppedAt_dl_shaped : (s.stoppedAt n).dl.Shaped s.cfg.b :=
  s.job.lineAt_shaped 0 hi.dl_shaped s.sig _

theorem State.Inv.stoppedAt_wr :
    (s.stoppedAt n).dl.wr = (s.dl.wr + (s.cfg.b - 1) + (s.dataLen.toNat - 1 - n)) % s.cfg.b :=
  (s.job.lineAt_wr 0 hi.dl_shaped s.sig _).trans (by rw [Nat.add_assoc]; rfl)

end Stopped

end Sys2Proof.Machine

namespace Sys2Proof

open Machine

/-- Settles O33: both reads reach what the tape of the channel says, and the region says which taps were primed. -/
theorem vibProcessClosedForm : Obligations.VibProcessClosedForm := by
  refine fun s hi hc hd => ⟨_, hc.exec_vibProcess_run hi hd, fun c n lag i k hch hn hlag hiq hk =>
    ⟨hc.processed_word hi hch hn hlag (hd n hn) hiq, fun hv => ?_⟩⟩
  have hword := hc.processed_word_of_valid hi hch hn hlag (hd n hn) hiq hv
  have hb := cfg_b_ge s.cfg
  subst hk
  refine ⟨hword, fun htail => ?_, fun hseam => ?_, fun hbody => ?_⟩
  · have hidx : n - (i + 1) - lag = n - i - lag - 1 := by omega
    rw [hword, hc.tap_primed_word hn (by omega), hc.tap_primed_word hn (by omega), hidx]
  · have hfirst : (n : Int) - i - lag = s.dataLen.toNat - s.cfg.b + 1 := by omega
    have hsecond : (n : Int) - (i + 1 : Nat) - lag - 1 = s.dataLen.toNat - s.cfg.b - 1 := by omega
    rw [hword, State.tap_of_primed (by omega), State.tap_of_fed (by omega), hfirst, hsecond]
  · have hsecond : (n : Int) - (i + 1 : Nat) - lag - 1 = n - i - lag - 2 := by omega
    rw [hword, State.tap_of_fed (by omega), State.tap_of_fed (by omega), hsecond]

/-- Settles O34: the word is the tap at offset `D`, primed on the tail and fed on the body. -/
theorem zeroAmplitudeIsPureDelay : Obligations.ZeroAmplitudeIsPureDelay := by
  intro s hi hc ha
  have hd (n : Nat) : 0 ≤ s.delayAt n := by
    rw [State.delayAt_of_amp_zero hi.cfg_ok ha]
    positivity
  refine ⟨_, hc.exec_vibProcess_run hi fun n _ => hd n, fun c n lag hch hn hlag hv => ?_⟩
  have hword := hc.processed_word_of_amp_zero hi hch hn hlag (hd n) rfl ha hv
  have hb := cfg_b_ge s.cfg
  refine ⟨fun htail => ?_, fun hbody hin => ?_, fun hbody hout => ?_⟩
  · rw [hword, hc.tap_primed_word hn (by omega), word32_sext32]
  · rw [hword, State.tap_fed_word (by omega) (by omega), word32_sext32]
  · rw [hword, State.tap_fed_silent (by omega) (by omega)]
    rfl

/-- Settles O35: both taps are the constant, and interpolating between equal taps gives it back. -/
theorem constantInputGivesConstantOutput : Obligations.ConstantInputGivesConstantOutput := by
  refine fun s hi hc hd => ⟨_, hc.exec_vibProcess_run hi hd, fun c n lag i hch hn hlag hiq hvalid => ?_⟩
  have hword := hc.processed_word_of_valid hi hch hn hlag (hd n hn) hiq hvalid
  refine ⟨fun v hv hin => ?_, fun hz => ?_⟩
  · rw [hword, hc.tap_of_constant hv hn (by omega), hc.tap_of_constant hv hn (by omega), lerp_self, word32_sext32]
  · rw [hword, hc.tap_of_zero hz hn, hc.tap_of_zero hz hn, lerp_self]
    rfl

/-- Settles O36: the sequencer stands before the step at `n` of channel 0, whose delay line and signal memory are the
closed forms of the steps above. -/
theorem negOffsetKeepsWhatWasDone : Obligations.NegOffsetKeepsWhatWasDone := by
  intro s n hi hc hn hneg hhigh
  have hlag : s.lag = (s.lag + 0) % s.cfg.b := (Nat.mod_eq_of_lt s.lag_lt).symm
  refine ⟨_, hc.exec_vibProcess_neg hi hn hneg hhigh, rfl, (by decide : haltStatus .negOffset = _),
    haltBit_haltStatus .negOffset, fun a => State.stoppedAt_word_other, fun k i hk hkl hiq => ?_,
    hi.stoppedAt_dl_shaped.length, rfl, hi.stoppedAt_wr, fun o => hc.get_eq_reached hi 0 o hlag hn⟩
  exact (hi.stoppedAt_word hk hkl).trans (hc.outAt_eq_reached hi hkl hlag (hhigh k hk hkl) hiq)

end Sys2Proof
end

section
/-! SUPPORT. The accesses of a VIB.PROCESS to signal memory (43_vibrato.md R156): how many a channel makes, where, and
that none comes back to a word already written (R66). -/

namespace Sys2Proof.Machine

/-- The access `y` leaves alone the word that `x` wrote, if `x` is a write. -/
def Access.Spares (x y : Access) : Prop := x.isRead = false → y.addr ≠ x.addr

/-- The access writes the word at `a`. -/
def Access.writesTo (a : Nat) (x : Access) : Bool := !x.isRead && x.addr == a

/-! The accesses of one channel: priming, then one main-pass step after the other. -/

theorem Job.accessesTo_zero (j : Job) (c : Nat) (u : RingBuf) (m : SigMem) :
    j.accessesTo c u m 0 = j.primeAccesses c m (j.cfg.b - 1) := by simp [Job.accessesTo]

theorem Job.accessesTo_succ (j : Job) (c : Nat) (u : RingBuf) (m : SigMem) (k : Nat) :
    j.accessesTo c u m (k + 1) = j.accessesTo c u m k ++ j.stepAccesses c u m k := by
  simp [Job.accessesTo, List.range_succ]

theorem Job.isRead_of_mem_primeAccesses {j : Job} {c q : Nat} {m : SigMem} {x : Access}
    (h : x ∈ j.primeAccesses c m q) : x.isRead = true := by
  obtain ⟨p, -, rfl⟩ := List.mem_map.mp h
  rfl

theorem Job.countP_isRead_primeAccesses (j : Job) (c : Nat) (m : SigMem) (q : Nat) :
    (j.primeAccesses c m q).countP Access.isRead = q := by
  rw [List.countP_eq_length.mpr fun _ => Job.isRead_of_mem_primeAccesses]
  simp [Job.primeAccesses]

theorem Job.countP_primeAccesses_eq_zero (j : Job) (c : Nat) (m : SigMem) (q : Nat) {f : Access → Bool}
    (hf : ∀ a v, f (.read a v) = false) : (j.primeAccesses c m q).countP f = 0 := by
  refine List.countP_eq_zero.mpr fun x hx => ?_
  obtain ⟨p, -, rfl⟩ := List.mem_map.mp hx
  simp [hf]

section Channel

variable {j : Job} {c : Nat} {u : RingBuf} {m : SigMem} {k : Nat}

/-- Main-pass step `k` writes index `L - 1 - k` and then, if it feeds from the signal, reads index `L - 1 - k - B`. -/
theorem Job.mem_stepAccesses {x : Access} (h : x ∈ j.stepAccesses c u m k) :
    (x.isRead = false ∧ x.addr = j.addr c (j.len - 1 - k)) ∨
    (x.isRead = true ∧ j.cfg.b ≤ j.len - 1 - k ∧ x.addr = j.addr c (j.len - 1 - k - j.cfg.b)) := by
  rcases List.mem_cons.mp h with rfl | hfeed
  · exact .inl ⟨rfl, rfl⟩
  · split_ifs at hfeed with hb
    · obtain rfl := List.mem_singleton.mp hfeed
      exact .inr ⟨rfl, hb, rfl⟩
    · cases hfeed

theorem Job.addr_of_mem_stepAccesses {x : Access} (h : x ∈ j.stepAccesses c u m k) :
    ∃ n, n ≤ j.len - 1 - k ∧ x.addr = j.addr c n := by
  rcases Job.mem_stepAccesses h with ⟨-, hx⟩ | ⟨-, -, hx⟩
  · exact ⟨_, le_rfl, hx⟩
  · exact ⟨_, Nat.sub_le _ _, hx⟩

theorem Job.countP_isRead_stepAccesses :
    (j.stepAccesses c u m k).countP Access.isRead = if j.cfg.b ≤ j.len - 1 - k then 1 else 0 := by
  rw [Job.stepAccesses]
  split_ifs <;> rfl

/-- A step makes one write, so it counts once at most where reads do not count. -/
theorem Job.countP_stepAccesses {f : Access → Bool} (hf : ∀ a v, f (.read a v) = false) :
    (j.stepAccesses c u m k).countP f =
      if f (.write (j.addr c (j.len - 1 - k)) (j.outAt c u m (j.len - 1 - k))) then 1 else 0 := by
  rw [Job.stepAccesses, List.countP_cons]
  split_ifs <;> simp [hf]

/-- Every access of a channel is to one of its own words. -/
theorem Job.Fits.addr_of_mem_accessesTo (hf : j.Fits c) {x : Access} (h : x ∈ j.accessesTo c u m k) :
    ∃ n, n < j.len ∧ x.addr = j.addr c n := by
  have hpos := hf.len_pos
  rcases List.mem_append.mp h with hprime | hmain
  · obtain ⟨p, -, rfl⟩ := List.mem_map.mp hprime
    exact ⟨_, by omega, rfl⟩
  · obtain ⟨i, -, hstep⟩ := List.mem_flatMap.mp hmain
    obtain ⟨n, hn, hx⟩ := Job.addr_of_mem_stepAccesses hstep
    exact ⟨n, by omega, hx⟩

/-- A channel reads its first `B - 1` words to prime, and one for every index from `B` on. -/
theorem Job.countP_isRead_accessesTo :
    (j.accessesTo c u m k).countP Access.isRead = j.cfg.b - 1 + min k (j.len - j.cfg.b) := by
  have hb := cfg_b_ge j.cfg
  induction k with
  | zero => rw [Job.accessesTo_zero, Job.countP_isRead_primeAccesses, Nat.zero_min, Nat.add_zero]
  | succ k ih =>
    rw [Job.accessesTo_succ, List.countP_append, ih, Job.countP_isRead_stepAccesses]
    split_ifs <;> omega

theorem Job.countP_isWrite_accessesTo :
    (j.accessesTo c u m k).countP (fun x => !x.isRead) = k := by
  induction k with
  | zero => rw [Job.accessesTo_zero, Job.countP_primeAccesses_eq_zero _ _ _ _ fun _ _ => rfl]
  | succ k ih =>
    rw [Job.accessesTo_succ, List.countP_append, ih, Job.countP_stepAccesses fun _ _ => rfl]
    rfl

/-- A channel writes index `n` in step `L - 1 - n` and in no other. -/
theorem Job.countP_writesTo_accessesTo {n : Nat} (hn : n < j.len) (hk : k ≤ j.len) :
    (j.accessesTo c u m k).countP (Access.writesTo (j.addr c n)) = if j.len - 1 - n < k then 1 else 0 := by
  induction k with
  | zero =>
    rw [Job.accessesTo_zero, Job.countP_primeAccesses_eq_zero _ _ _ _ fun _ _ => rfl]
    simp
  | succ k ih =>
    have haddr : j.addr c (j.len - 1 - k) = j.addr c n ↔ j.len - 1 - k = n := ⟨Job.addr_inj, congrArg _⟩
    rw [Job.accessesTo_succ, List.countP_append, ih (by omega), Job.countP_stepAccesses fun _ _ => rfl]
    simp only [Access.writesTo, Access.isRead, Access.addr, Bool.not_false, Bool.true_and, beq_iff_eq, haddr]
    split_ifs <;> omega

/-- After the write at index `L - 1 - k` a channel goes strictly below it. -/
theorem Job.spares_of_steps {i : Nat} (hki : k < i) (hi : i < j.len) {x y : Access}
    (hx : x ∈ j.stepAccesses c u m k) (hy : y ∈ j.stepAccesses c u m i) : x.Spares y := by
  intro hwrite hsame
  obtain ⟨n, hn, hya⟩ := Job.addr_of_mem_stepAccesses hy
  rcases Job.mem_stepAccesses hx with ⟨-, hxa⟩ | ⟨hread, -, -⟩
  · have hidx : n = j.len - 1 - k := Job.addr_inj (hya.symm.trans (hsame.trans hxa))
    omega
  · cases hwrite.symm.trans hread

theorem Job.stepAccesses_pairwise : (j.stepAccesses c u m k).Pairwise Access.Spares := by
  have hb := cfg_b_ge j.cfg
  rw [Job.stepAccesses]
  split_ifs with hfeed
  · refine List.pairwise_pair.mpr fun _ hsame => ?_
    have := Job.addr_inj hsame
    omega
  · exact List.pairwise_singleton _ _

/-- No access of a channel comes back to a word the channel wrote (R66). -/
theorem Job.accessesTo_pairwise (hk : k ≤ j.len) : (j.accessesTo c u m k).Pairwise Access.Spares := by
  refine List.pairwise_append.mpr ⟨?_, ?_, fun x hx _ _ hwrite => ?_⟩
  · refine List.pairwise_of_forall_mem_list fun x hx _ _ hwrite => ?_
    cases hwrite.symm.trans (Job.isRead_of_mem_primeAccesses hx)
  · refine List.pairwise_flatMap.mpr ⟨fun _ _ => Job.stepAccesses_pairwise, ?_⟩
    refine List.pairwise_lt_range.imp_of_mem fun {a b} _ hb hab x hx y hy => ?_
    exact Job.spares_of_steps hab (lt_of_lt_of_le (List.mem_range.mp hb) hk) hx hy
  · cases hwrite.symm.trans (Job.isRead_of_mem_primeAccesses hx)

end Channel

/-! The accesses of the channels one after the other. -/

section Channels

variable {j : Job} {u : RingBuf} {m : SigMem} {c : Nat}

/-- What every channel has the same number of. -/
theorem Job.countP_accessesBefore {f : Access → Bool} {q : Nat}
    (h : ∀ c u m, (j.accessesTo c u m j.len).countP f = q) : (j.accessesBefore u m c).countP f = c * q := by
  induction c with
  | zero => simp [Job.accessesBefore, Job.chanStart]
  | succ c ih => rw [Job.accessesBefore_succ, List.countP_append, ih, h, Nat.add_mul, Nat.one_mul]

theorem Job.addr_of_mem_accessesBefore (hf : ∀ i, i < c → j.Fits i) {x : Access}
    (h : x ∈ j.accessesBefore u m c) : ∃ i n, i < c ∧ n < j.len ∧ x.addr = j.addr i n := by
  induction c with
  | zero => cases h
  | succ c ih =>
    rw [Job.accessesBefore_succ] at h
    rcases List.mem_append.mp h with hbefore | hown
    · obtain ⟨i, n, hi, hn, hx⟩ := ih (fun i hi => hf i (by omega)) hbefore
      exact ⟨i, n, by omega, hn, hx⟩
    · obtain ⟨n, hn, hx⟩ := (hf c (by omega)).addr_of_mem_accessesTo hown
      exact ⟨c, n, by omega, hn, hx⟩

/-- No access of a run comes back to a word already written (R66). -/
theorem Job.accessesBefore_pairwise (hf : ∀ i, i < c → j.Fits i) :
    (j.accessesBefore u m c).Pairwise Access.Spares := by
  induction c with
  | zero => exact List.Pairwise.nil
  | succ c ih =>
    have hearlier : ∀ i, i < c → j.Fits i := fun i hi => hf i (by omega)
    rw [Job.accessesBefore_succ]
    refine List.pairwise_append.mpr ⟨ih hearlier, Job.accessesTo_pairwise le_rfl, fun x hx y hy _ hsame => ?_⟩
    obtain ⟨i, n, hi, hn, hxa⟩ := Job.addr_of_mem_accessesBefore hearlier hx
    obtain ⟨n', -, hya⟩ := (hf c (by omega)).addr_of_mem_accessesTo hy
    exact j.addr_ne_of_channel hi hn (hxa.symm.trans (hsame.symm.trans hya))

/-- Each word is written once, by its own channel. -/
theorem Job.countP_writesTo_accessesBefore (hf : ∀ i, i < c → j.Fits i) {i n : Nat} (hi : i < c) (hn : n < j.len) :
    (j.accessesBefore u m c).countP (Access.writesTo (j.addr i n)) = 1 := by
  induction c with
  | zero => omega
  | succ c ih =>
    have hearlier : ∀ i, i < c → j.Fits i := fun i hi => hf i (by omega)
    have hother {l : List Access} (h : ∀ x ∈ l, x.addr ≠ j.addr i n) :
        l.countP (Access.writesTo (j.addr i n)) = 0 :=
      List.countP_eq_zero.mpr fun x hx => by simp [Access.writesTo, h x hx]
    rw [Job.accessesBefore_succ, List.countP_append]
    rcases Nat.lt_succ_iff_lt_or_eq.mp hi with hlt | rfl
    · rw [ih hearlier hlt, hother fun x hx => ?_]
      obtain ⟨n', -, hxa⟩ := (hf c (by omega)).addr_of_mem_accessesTo hx
      rw [hxa]
      exact (j.addr_ne_of_channel hlt hn).symm
    · rw [Job.countP_writesTo_accessesTo hn le_rfl, if_pos (by omega), hother fun x hx => ?_]
      obtain ⟨i', n', hi', hn', hxa⟩ := Job.addr_of_mem_accessesBefore hearlier hx
      rw [hxa]
      exact j.addr_ne_of_channel hi' hn'

end Channels

/-- The words of the channels lie in the region of the command (R51, R58). -/
theorem State.addrOf_in_region {s : State} {c n : Nat} (hc : c < s.chCount.toNat) (hn : n < s.dataLen.toNat) :
    s.sigBase.toNat ≤ s.addrOf c n ∧ s.addrOf c n < s.sigBase.toNat + s.chCount.toNat * s.dataLen.toNat := by
  by_contra hout
  exact State.ne_addrOf_of_outside hc hn (a := s.addrOf c n) (by omega) rfl

end Sys2Proof.Machine

namespace Sys2Proof

open Machine

/-- Settles O39: per channel the accesses are counted step by step, and no access comes back to a word written. -/
theorem vibProcessAccessesAreCounted : Obligations.VibProcessAccessesAreCounted := by
  intro s hi hc hd
  have hlog : (s.job.chanStart s.dl s.sig s.chCount.toNat).log =
      (s.job.accessesBefore s.dl s.sig s.chCount.toNat).reverse := (List.reverse_reverse _).symm
  refine ⟨_, hc.sequence_run hi hd, ?_, ?_, fun x hx => ?_, fun c n hch hn => ?_, fun before after a v hsplit => ?_⟩
  · rw [hlog, List.countP_reverse]
    refine Job.countP_accessesBefore fun c u m => ?_
    rw [Job.countP_isRead_accessesTo, Nat.min_eq_right (Nat.sub_le _ _)]
    rfl
  · rw [hlog, List.countP_reverse]
    exact Job.countP_accessesBefore fun c u m => Job.countP_isWrite_accessesTo
  · rw [hlog, List.mem_reverse] at hx
    obtain ⟨c, n, hch, hn, hxa⟩ := Job.addr_of_mem_accessesBefore hc.fits hx
    rw [hxa]
    exact State.addrOf_in_region hch hn
  · rw [hlog, List.countP_reverse]
    exact Job.countP_writesTo_accessesBefore hc.fits hch hn
  · have hpair : (before ++ .write a v :: after).Pairwise Access.Spares :=
      hsplit ▸ Job.accessesBefore_pairwise hc.fits
    obtain ⟨-, htail, -⟩ := List.pairwise_append.mp hpair
    obtain ⟨hafter, -⟩ := List.pairwise_cons.mp htail
    exact fun x hx _ => hafter x hx rfl

end Sys2Proof
end

section
/-! SUPPORT. The system commands (44_system.md): the registers RDREG answers and WRREG stores in, by number (R176,
R177), and the one word of NOP's operation code (R175). -/

namespace Sys2Proof.Machine

section Registers

variable {s : State} {r : RegNum} {x : Reg}

/-- A register is read by its number, halted or not (R176). -/
theorem exec_rdreg_number (s : State) (x : Reg) : exec (.rdreg x.number) s = .next (s.answered 0x00 (s.readReg x)) := by
  rw [exec_rdreg, regOf_number]
  rfl

theorem exec_rdreg_reserved_halted (hs : s.halted = true) (hr : regOf r = none) :
    exec (.rdreg r) s = .next (s.answered 0xFF s.status) := by
  simp [exec_rdreg, hr, hs, State.respondHalted_advance]

/-- The registers by number, each with its word, as R30 lists them. -/
theorem allRegs_map_word (s : State) : allRegs.map (fun x => (x.number, s.readReg x)) =
    [(0x00#8, s.status), (0x01#8, s.sigBase), (0x02#8, s.chCount), (0x03#8, s.dataLen),
      (0x04#8, s.faultCh), (0x05#8, s.faultIdx), (0x08#8, idWord), (0x09#8, BitVec.ofNat 32 s.cfg.b),
      (0x0A#8, BitVec.ofNat 32 s.cfg.d), (0x0B#8, BitVec.ofNat 32 s.cfg.w), (0x0C#8, BitVec.ofNat 32 s.cfg.p),
      (0x0D#8, BitVec.ofInt 32 s.cfg.amp), (0x0E#8, BitVec.ofNat 32 s.cfg.sigWords),
      (0x10#8, BitVec.ofNat 32 s.dl.rd), (0x11#8, BitVec.ofNat 32 s.dl.wr), (0x12#8, BitVec.ofNat 32 s.lut.rd),
      (0x13#8, BitVec.ofNat 32 s.lut.wr)] := by
  simp only [allRegs, List.map_cons, List.map_nil, Reg.number, State.readReg, word32_natCast]
  rfl

/-- Only the three argument registers can be written (R30, R177). -/
theorem State.writeReg_eq_none {v : Word} (h : x.number ∉ [0x01#8, 0x02#8, 0x03#8]) : s.writeReg x v = none := by
  rw [Option.eq_none_iff_forall_ne_some]
  intro t hw
  rcases State.writeReg_some hw with ⟨rfl, -⟩ | ⟨rfl, -⟩ | ⟨rfl, -⟩ <;> exact h (by decide)

theorem exec_wrreg_number (hs : s.halted = false) {v : Word} {t : State} (h : s.writeReg x v = some t) :
    exec (.wrreg x.number v) s = .next (t.answered 0x00 0) := by
  simp [exec_wrreg_running hs, regOf_number, h, State.respondOk_advance]

/-- A number that names no register and one that names a read-only register raise the same fault (R177). -/
theorem exec_wrreg_of_not_writable (hs : s.halted = false) (h : r ∉ [0x01#8, 0x02#8, 0x03#8]) (v : Word) :
    exec (.wrreg r v) s = .next (s.faulted Cause.badReg.code 0 0) := by
  have hw : ((regOf r).bind fun x => s.writeReg x v) = none :=
    Option.bind_eq_none_iff.mpr fun x hx => State.writeReg_eq_none (by rwa [regOf_some hx])
  rw [exec_wrreg_running hs, hw, State.raise_advance]

end Registers

end Sys2Proof.Machine

namespace Sys2Proof

open Machine

/-- NOP alone has its operation code, and its encoding is the zero word (R175). -/
theorem raisesIllegalCmd_of_nop_opcode {cw : Word64} (ho : opcOf cw = 0x00#8) (h : cw ≠ 0) : RaisesIllegalCmd cw := by
  refine raisesIllegalCmd_of_not_encoding ?_
  rintro i - rfl
  rw [opcOf_encode] at ho
  cases i with
  | nop => exact h (by decide)
  | _ => simp [opcodeOf] at ho

/-- RDREG has no free field but the register number (R176). -/
theorem raisesIllegalCmd_of_rdreg {cw : Word64} (ho : opcOf cw = 0x01#8) (h : zeroOf cw ≠ 0 ∨ opndOf cw ≠ 0) :
    RaisesIllegalCmd cw := by
  have hnone : opcOf cw ∉ operandOpcodes := by
    rw [ho]
    decide
  exact h.elim raisesIllegalCmd_of_nonzero_zero (raisesIllegalCmd_of_nonzero_operand hnone)

/-! The obligations. -/

/-- Settles O16: the list of the statement is that of all registers with the words they read as. -/
theorem rdregAnswersEveryRegister : Obligations.RdregAnswersEveryRegister := by
  refine ⟨fun s e he => ?_, fun s r hr => ⟨fun hs => exec_rdreg_badReg hs (regOf_eq_none hr),
    fun hs => exec_rdreg_reserved_halted hs (regOf_eq_none hr)⟩, fun r => decode_encode (i := .rdreg r) rfl,
    fun _ => raisesIllegalCmd_of_rdreg⟩
  obtain ⟨x, -, rfl⟩ := List.mem_map.mp ((allRegs_map_word s).symm ▸ he)
  exact exec_rdreg_number s x

/-- Settles O17: the write of each argument register answers, and no other number has a write. -/
theorem wrregWritesOneArgumentRegister : Obligations.WrregWritesOneArgumentRegister :=
  ⟨fun _ v hs => ⟨exec_wrreg_number (x := .sigBase) hs rfl, exec_wrreg_number (x := .chCount) hs rfl,
      exec_wrreg_number (x := .dataLen) hs rfl, fun _ hr => exec_wrreg_of_not_writable hs hr v⟩,
    fun r v => decode_encode (i := .wrreg r v) rfl, fun _ _ => raisesIllegalCmd_of_nonzero_zero⟩

/-- Settles O15: NOP is answered without the halted test. -/
theorem nopAnswersOkAlways : Obligations.NopAnswersOkAlways :=
  ⟨exec_nop, decode_encode (i := .nop) rfl, fun _ => raisesIllegalCmd_of_nop_opcode⟩

end Sys2Proof
end

section
/-! SUPPORT. The envelope of a command and the halted state (60_exceptions.md R187 to R189, R201): what a step does with
an empty queue and with a word that decodes, what a halted block answers, and how the halted state is entered, kept
and left. -/

namespace Sys2Proof.Machine

section Envelope

variable {s : State} {cw : Word64} {rest : List HostInput} {i : Instr}

/-- With no input waiting the block holds its state (R201). -/
theorem step_nil (h : s.inputs = []) : step s = .next s := by
  simp only [step, h]

/-- A step that takes a command runs it on the dequeued state (R189). -/
theorem step_of_decode (hin : s.inputs = .command cw :: rest) (hd : decode cw = .ok i) :
    step s = exec i (s.dequeued rest) := by
  simp only [step_cons hin, takeInput, runWord, hd]

/-- A halted block refuses every command but NOP and RDREG of a defined register (R188). -/
theorem exec_refused_halted (hs : s.halted = true) (hnop : i ≠ .nop) (hreg : ∀ x : Reg, i ≠ .rdreg x.number) :
    exec i s = .next (s.answered 0xFF s.status) := by
  by_cases hrd : ∃ r, i = .rdreg r
  · obtain ⟨r, rfl⟩ := hrd
    have hreserved : regOf r = none :=
      Option.eq_none_iff_forall_ne_some.mpr fun x hx => hreg x (by rw [regOf_some hx])
    exact exec_rdreg_reserved_halted hs hreserved
  · exact exec_halted hs i hnop fun r hr => hrd ⟨r, hr⟩

/-- So a halted block refuses every other word, legal or not (R188, R189). -/
theorem runWord_refused_halted (hs : s.halted = true) (hnop : decode cw ≠ .ok .nop)
    (hreg : ∀ x : Reg, decode cw ≠ .ok (.rdreg x.number)) : runWord cw s = .next (s.answered 0xFF s.status) := by
  cases hd : decode cw with
  | error e => exact runWord_illegal_halted hd hs
  | ok i =>
    have hexec : exec i s = .next (s.answered 0xFF s.status) :=
      exec_refused_halted hs (fun h => hnop (h ▸ hd)) fun x h => hreg x (h ▸ hd)
    simp only [runWord, hd, hexec]

end Envelope

section Halt

variable {s t u : State} {i : Instr} {rest : List HostInput}

/-- STATUS alone says whether the block is halted (R32). -/
theorem State.halted_congr (h : t.status = s.status) : t.halted = s.halted := congrArg haltBit h

theorem State.hardwareReset_halted (s : State) : s.hardwareReset.halted = false := by
  rw [State.halted, State.hardwareReset_status]
  decide

/-- An effect that halts a running block is a fault entry: every other keeps STATUS (R187). -/
theorem Effect.fault_of_halts (e : Effect s i u) (hs : s.halted = false) (hu : u.halted = true) :
    ∃ f : Cause, u.status = haltStatus f ∧ u.responses = s.responses ++ [responseWord (.fault f) 0] := by
  cases e with
  | raise i f => exact ⟨f, rfl, rfl⟩
  | processNeg => exact ⟨.negOffset, rfl, rfl⟩
  | _ => exact absurd (hs.symm.trans hu) Bool.false_ne_true

/-- On a halted block an effect keeps the fault that halted it (R188). -/
theorem Effect.keeps_first_fault (e : Effect s i u) (hs : s.halted = true) :
    u.status = s.status ∧ u.faultCh = s.faultCh ∧ u.faultIdx = s.faultIdx :=
  e.fault_eq_or.resolve_right fun ⟨hrun, _⟩ => Bool.false_ne_true (hrun.symm.trans hs)

/-- Of what a step can do, only a command word's effect halts a running block (R187). -/
theorem step_fault_of_halts (h : step s = .next t) (hs : s.halted = false) (ht : t.halted = true) :
    ∃ f : Cause, t.status = haltStatus f ∧ t.responses = s.responses ++ [responseWord (.fault f) 0] := by
  rcases step_next h with ⟨-, rfl⟩ | ⟨_, _, _, u, -, e, rfl⟩ | ⟨_, -, rfl⟩ | ⟨_, _, _, -, -, rfl⟩
  · exact absurd (hs.symm.trans ht) Bool.false_ne_true
  · exact e.fault_of_halts hs ht
  · exact absurd ((State.hardwareReset_halted _).symm.trans ht) Bool.false_ne_true
  · exact absurd (hs.symm.trans ht) Bool.false_ne_true

/-- Without RST, a halted block keeps the fault that halted it (R188). -/
theorem step_keeps_first_fault (h : step s = .next t) (hs : s.halted = true) (hrst : ∀ rest, s.inputs ≠ .rst :: rest) :
    t.status = s.status ∧ t.faultCh = s.faultCh ∧ t.faultIdx = s.faultIdx := by
  rcases step_next h with ⟨-, rfl⟩ | ⟨_, _, _, u, -, e, rfl⟩ | ⟨rest, hin, -⟩ | ⟨_, _, _, -, -, rfl⟩
  · exact ⟨rfl, rfl, rfl⟩
  · exact e.keeps_first_fault hs
  · exact absurd hin (hrst rest)
  · exact ⟨rfl, rfl, rfl⟩

/-- RST leaves the halted state (R188). -/
theorem step_rst_halted (h : step s = .next t) (hin : s.inputs = .rst :: rest) : t.halted = false := by
  obtain rfl : (s.dequeued rest).hardwareReset = t := Host.Outcome.next.inj ((step_cons hin).symm.trans h)
  exact State.hardwareReset_halted _

end Halt

end Sys2Proof.Machine

namespace Sys2Proof

open Machine

/-! The obligations. -/

/-- Settles O11: NOP and a defined register are answered without the halted test, and all else is refused. -/
theorem haltedBlockOnlyAnswers : Obligations.HaltedBlockOnlyAnswers := by
  intro s cw rest hin hs
  refine ⟨fun hd => ?_, fun r x hd hx => ?_, fun hnop hreg => ?_⟩
  · exact (step_of_decode hin hd).trans (exec_nop _)
  · subst hx
    exact (step_of_decode hin hd).trans (exec_rdreg_number _ x)
  · exact (step_cons hin).trans (runWord_refused_halted (s := s.dequeued rest) hs hnop hreg)

/-- Settles O12: how a step enters the halted state, what it keeps there, and how RST leaves it. -/
theorem haltEnteredByFaultLeftByReset : Obligations.HaltEnteredByFaultLeftByReset := by
  intro s t h
  refine ⟨fun hs ht => ?_, fun hs hrst => ?_, fun _ => step_rst_halted h⟩
  · obtain ⟨f, hstatus, hresp⟩ := step_fault_of_halts h hs ht
    exact ⟨f, hstatus.trans (haltStatus_eq f), hresp⟩
  · have hkept := step_keeps_first_fault h hs hrst
    exact ⟨(State.halted_congr hkept.left).trans hs, hkept⟩

/-- Settles O8: the queue gives the word and the decoder the command. -/
theorem stepRunsTheDecodedCommand : Obligations.StepRunsTheDecodedCommand := fun _ _ _ _ => step_of_decode

/-- Settles O10: the empty queue is the step's first case. -/
theorem idleBlockHoldsItsState : Obligations.IdleBlockHoldsItsState := fun _ => step_nil

end Sys2Proof
end

section
/-! SUPPORT. The soft resets of the table (70_reset_and_hazards.md R211): filling a table that is the fill already changes
nothing, so what a soft reset does besides the fill is all that shows. -/

namespace Sys2Proof.Machine

/-- Filling the table again gives back the state (R24, R133). -/
theorem State.Inv.withLut_oscFill {s : State} (hi : s.Inv) : s.withLut (oscFill s.cfg) = s := by
  rw [← hi.lut_filled]
  rfl

section SoftResets

variable {s : State} (hi : s.Inv) (hs : s.halted = false)
include hi hs

/-- OSC.RESET only refills the table, so what shows is the answer, which is that of NOP. -/
theorem exec_oscReset_eq_nop : exec .oscReset s = exec .nop s := by
  rw [exec_oscReset_running hs, hi.withLut_oscFill, exec_nop]

/-- VIB.RESET zeroes the delay line, which keeps the invariant, and then refills the table. -/
theorem exec_vibReset_eq_rbReset : exec .vibReset s = exec (.rbReset .dl) s := by
  have hfill : (s.withDl s.dl.zeroed).withLut (oscFill s.cfg) = s.withDl s.dl.zeroed :=
    (hi.withDl hi.dl_shaped.zeroed).withLut_oscFill
  rw [exec_vibReset_running hs, hfill, exec_rbReset_running hs]

end SoftResets

end Sys2Proof.Machine

namespace Sys2Proof

open Machine

/-- Settles O27: under the invariant the fill writes the table that stands there. -/
theorem softResetsOfTableAreInvisible : Obligations.SoftResetsOfTableAreInvisible :=
  fun _ hi hs => ⟨exec_oscReset_eq_nop hi hs, exec_vibReset_eq_rbReset hi hs⟩

end Sys2Proof
end
